-- ==== Sys2Proof/Word.lean ====
section
/-! DEFINITION. The machine's bit-vector types (R10: XLEN and addresses of 32 bits; R100: 32 registers; R202: bytes). -/

namespace Sys2Proof

/-- XLEN = 32 bits: a register, an address, an instruction word (R10, R100, R300). -/
abbrev Word := BitVec 32

/-- The smallest addressable unit of memory (R131). -/
abbrev Byte := BitVec 8

/-- A register index, 0 to 31 (R100, R306). `−1`, "no register" (R16), is `none` of `Option Reg`. -/
abbrev Reg := BitVec 5

/-- Register 2, `v0` (R102). -/
abbrev Reg.v0 : Reg := 2#5

/-- Register 3, `v1` (R102). -/
abbrev Reg.v1 : Reg := 3#5

/-- Register 31, the link register of JAL, BLTZAL and BGEZAL (R102, R564). -/
abbrev Reg.ra : Reg := 31#5

end Sys2Proof
end

