-- ==== Sys2Proof/Syntax.lean ====
section
/-! DEFINITION. The 53 instructions of R311, one constructor for each row of spec/opcode_table.json.
Operands stand in the assembler order of R330. A field an instruction does not use (R307) is no operand of it. -/

namespace Sys2Proof

/-- The instruction subset (R311). A word outside it is unknown (R320) and has no constructor: `decode` rejects it by name
and the pipeline runs it as the do-nothing op of R320 (Machine/Unknown.lean). -/
inductive Instr
  -- three-register arithmetic and logic, R451–R460
  | add (rd rs rt : Reg)
  | addu (rd rs rt : Reg)
  | sub (rd rs rt : Reg)
  | subu (rd rs rt : Reg)
  | and (rd rs rt : Reg)
  | or (rd rs rt : Reg)
  | xor (rd rs rt : Reg)
  | nor (rd rs rt : Reg)
  | slt (rd rs rt : Reg)
  | sltu (rd rs rt : Reg)
  -- immediate arithmetic and logic, R461–R468
  | addi (rt rs : Reg) (imm : BitVec 16)
  | addiu (rt rs : Reg) (imm : BitVec 16)
  | slti (rt rs : Reg) (imm : BitVec 16)
  | sltiu (rt rs : Reg) (imm : BitVec 16)
  | andi (rt rs : Reg) (imm : BitVec 16)
  | ori (rt rs : Reg) (imm : BitVec 16)
  | xori (rt rs : Reg) (imm : BitVec 16)
  | lui (rt : Reg) (imm : BitVec 16)
  -- shifts, R470–R475; a constant amount is a count, 0 to 31 in a well-formed instruction (R305)
  | sll (rd rt : Reg) (shamt : Nat)
  | srl (rd rt : Reg) (shamt : Nat)
  | sra (rd rt : Reg) (shamt : Nat)
  | sllv (rd rt rs : Reg)
  | srlv (rd rt rs : Reg)
  | srav (rd rt rs : Reg)
  -- multiply, divide, HI and LO, R505–R512
  | mult (rs rt : Reg)
  | multu (rs rt : Reg)
  | div (rs rt : Reg)
  | divu (rs rt : Reg)
  | mfhi (rd : Reg)
  | mflo (rd : Reg)
  | mthi (rs : Reg)
  | mtlo (rs : Reg)
  -- branches and jumps, R551–R562
  | beq (rs rt : Reg) (offset : BitVec 16)
  | bne (rs rt : Reg) (offset : BitVec 16)
  | blez (rs : Reg) (offset : BitVec 16)
  | bgtz (rs : Reg) (offset : BitVec 16)
  | bltz (rs : Reg) (offset : BitVec 16)
  | bgez (rs : Reg) (offset : BitVec 16)
  | bltzal (rs : Reg) (offset : BitVec 16)
  | bgezal (rs : Reg) (offset : BitVec 16)
  | j (target : BitVec 26)
  | jal (target : BitVec 26)
  | jalr (rd rs : Reg)
  | jr (rs : Reg)
  -- loads and stores, R610–R622
  | lb (rt rs : Reg) (offset : BitVec 16)
  | lbu (rt rs : Reg) (offset : BitVec 16)
  | lh (rt rs : Reg) (offset : BitVec 16)
  | lhu (rt rs : Reg) (offset : BitVec 16)
  | lw (rt rs : Reg) (offset : BitVec 16)
  | sb (rt rs : Reg) (offset : BitVec 16)
  | sh (rt rs : Reg) (offset : BitVec 16)
  | sw (rt rs : Reg) (offset : BitVec 16)
  -- system, R650
  | syscall
  deriving DecidableEq, Repr

end Sys2Proof
end

