-- ==== Sys2Proof/WellFormed.lean ====
section
/-! DEFINITION. Which instructions can be written: register indices, immediates and targets have their exact widths by type;
a constant shift amount is "0 to 31" (R305), so it is checked here. -/

namespace Sys2Proof

/-- The one check of the subset's operands: `shamt` of SLL, SRL and SRA is 0 to 31 (R305; 95_test_vectors.md section 5:
"A shift by the width (32) cannot be written"). -/
def Instr.wellFormed : Instr → Bool
  | .sll _ _ shamt => shamt < 32
  | .srl _ _ shamt => shamt < 32
  | .sra _ _ shamt => shamt < 32
  | .add .. | .addu .. | .sub .. | .subu .. | .and .. | .or .. | .xor ..
  | .nor .. | .slt .. | .sltu .. | .addi .. | .addiu .. | .slti .. | .sltiu ..
  | .andi .. | .ori .. | .xori .. | .lui .. | .sllv .. | .srlv .. | .srav ..
  | .mult .. | .multu .. | .div .. | .divu .. | .mfhi .. | .mflo .. | .mthi ..
  | .mtlo .. | .beq .. | .bne .. | .blez .. | .bgtz .. | .bltz .. | .bgez ..
  | .bltzal .. | .bgezal .. | .j .. | .jal .. | .jalr .. | .jr .. | .lb ..
  | .lbu .. | .lh .. | .lhu .. | .lw .. | .sb .. | .sh .. | .sw ..
  | .syscall => true

/-- An instruction that has an encoding. -/
abbrev Instr.WellFormed (i : Instr) : Prop := i.wellFormed = true

end Sys2Proof
end

