-- ==== Sys2Proof/Decode.lean ====
section
/-! DEFINITION. From bits to instructions and back: the field positions of R301–R304, the maps of R307–R310 as a total
decoder that rejects every other word by name, the encoder written from the same maps, and the table's own decoder entry. -/

namespace Sys2Proof

/-! ## Fields (R301–R304) -/

/-- Bits 31:26. -/
def fieldOpcode (w : Word) : BitVec 6 := w.extractLsb' 26 6
/-- Bits 25:21. -/
def fieldRs (w : Word) : Reg := w.extractLsb' 21 5
/-- Bits 20:16. -/
def fieldRt (w : Word) : Reg := w.extractLsb' 16 5
/-- Bits 15:11. -/
def fieldRd (w : Word) : Reg := w.extractLsb' 11 5
/-- Bits 10:6. -/
def fieldShamt (w : Word) : BitVec 5 := w.extractLsb' 6 5
/-- Bits 5:0. -/
def fieldFunct (w : Word) : BitVec 6 := w.extractLsb' 0 6
/-- Bits 15:0. -/
def fieldImm16 (w : Word) : BitVec 16 := w.extractLsb' 0 16
/-- Bits 25:0. -/
def fieldTarget (w : Word) : BitVec 26 := w.extractLsb' 0 26
/-- `sext_32(w[15:0])` (R304). -/
def fieldSeImm16 (w : Word) : Word := (fieldImm16 w).signExtend 32
/-- `op.subop` (R304): funct for SPECIAL, rt for REGIMM, otherwise 0. -/
def fieldSubop (w : Word) : BitVec 6 :=
  if fieldOpcode w = 0#6 then fieldFunct w
  else if fieldOpcode w = 1#6 then (fieldRt w).zeroExtend 6
  else 0#6

/-! ## Decoder -/

/-- Why a piece of memory is no instruction of the subset. -/
inductive DecodeReject
  /-- A word that R308–R310 do not map to an instruction (R320). The pipeline runs it as a do-nothing op. -/
  | unknown (w : Word)
  /-- Fewer than the four bytes of an instruction word (R300). The machine never decodes such a list. -/
  | truncated (n : Nat)
  deriving DecidableEq, Repr

/-- The SPECIAL function map (R309), for words with opcode 0. -/
def decodeSpecial (w : Word) : Except DecodeReject Instr :=
  let rs := fieldRs w
  let rt := fieldRt w
  let rd := fieldRd w
  let shamt := (fieldShamt w).toNat
  match (fieldFunct w).toNat with
  | 0x00 => .ok (.sll rd rt shamt)
  | 0x02 => .ok (.srl rd rt shamt)
  | 0x03 => .ok (.sra rd rt shamt)
  | 0x04 => .ok (.sllv rd rt rs)
  | 0x06 => .ok (.srlv rd rt rs)
  | 0x07 => .ok (.srav rd rt rs)
  | 0x08 => .ok (.jr rs)
  | 0x09 => .ok (.jalr rd rs)
  | 0x0C => .ok .syscall
  | 0x10 => .ok (.mfhi rd)
  | 0x11 => .ok (.mthi rs)
  | 0x12 => .ok (.mflo rd)
  | 0x13 => .ok (.mtlo rs)
  | 0x18 => .ok (.mult rs rt)
  | 0x19 => .ok (.multu rs rt)
  | 0x1A => .ok (.div rs rt)
  | 0x1B => .ok (.divu rs rt)
  | 0x20 => .ok (.add rd rs rt)
  | 0x21 => .ok (.addu rd rs rt)
  | 0x22 => .ok (.sub rd rs rt)
  | 0x23 => .ok (.subu rd rs rt)
  | 0x24 => .ok (.and rd rs rt)
  | 0x25 => .ok (.or rd rs rt)
  | 0x26 => .ok (.xor rd rs rt)
  | 0x27 => .ok (.nor rd rs rt)
  | 0x2A => .ok (.slt rd rs rt)
  | 0x2B => .ok (.sltu rd rs rt)
  | _ => .error (.unknown w)

/-- The REGIMM map (R310, R565), for words with opcode 1. -/
def decodeRegimm (w : Word) : Except DecodeReject Instr :=
  match (fieldRt w).toNat with
  | 0x00 => .ok (.bltz (fieldRs w) (fieldImm16 w))
  | 0x01 => .ok (.bgez (fieldRs w) (fieldImm16 w))
  | 0x10 => .ok (.bltzal (fieldRs w) (fieldImm16 w))
  | 0x11 => .ok (.bgezal (fieldRs w) (fieldImm16 w))
  | _ => .error (.unknown w)

/-- The primary opcode map (R308): which instruction a word is. Only opcode, funct and rt select (R307); the fields an
instruction does not use are dropped here. -/
def decode (w : Word) : Except DecodeReject Instr :=
  let rs := fieldRs w
  let rt := fieldRt w
  let imm := fieldImm16 w
  match (fieldOpcode w).toNat with
  | 0x00 => decodeSpecial w
  | 0x01 => decodeRegimm w
  | 0x02 => .ok (.j (fieldTarget w))
  | 0x03 => .ok (.jal (fieldTarget w))
  | 0x04 => .ok (.beq rs rt imm)
  | 0x05 => .ok (.bne rs rt imm)
  | 0x06 => .ok (.blez rs imm)
  | 0x07 => .ok (.bgtz rs imm)
  | 0x08 => .ok (.addi rt rs imm)
  | 0x09 => .ok (.addiu rt rs imm)
  | 0x0A => .ok (.slti rt rs imm)
  | 0x0B => .ok (.sltiu rt rs imm)
  | 0x0C => .ok (.andi rt rs imm)
  | 0x0D => .ok (.ori rt rs imm)
  | 0x0E => .ok (.xori rt rs imm)
  | 0x0F => .ok (.lui rt imm)
  | 0x20 => .ok (.lb rt rs imm)
  | 0x21 => .ok (.lh rt rs imm)
  | 0x23 => .ok (.lw rt rs imm)
  | 0x24 => .ok (.lbu rt rs imm)
  | 0x25 => .ok (.lhu rt rs imm)
  | 0x28 => .ok (.sb rt rs imm)
  | 0x29 => .ok (.sh rt rs imm)
  | 0x2B => .ok (.sw rt rs imm)
  | _ => .error (.unknown w)

/-- The word whose four bytes lie at rising addresses: `b0` is bits 7:0 (R202). -/
def wordOfBytes (b0 b1 b2 b3 : Byte) : Word := b3 ++ b2 ++ b1 ++ b0

/-- Byte k of a word, k = 0 at the lowest address (R202). -/
def byteOfWord (w : Word) (k : Nat) : Byte := w.extractLsb' (8 * k) 8

/-- Reads one instruction from the front of a list of bytes, little-endian (R202, R300), and gives the rest back. -/
def decodeBytes : List Byte → Except DecodeReject (Instr × List Byte)
  | b0 :: b1 :: b2 :: b3 :: rest =>
    match decode (wordOfBytes b0 b1 b2 b3) with
    | .ok i => .ok (i, rest)
    | .error e => .error e
  | bs => .error (.truncated bs.length)

/-! ## Encoder -/

/-- R format (R301), opcode 0. -/
def rWord (rs rt rd : Reg) (shamt : BitVec 5) (funct : BitVec 6) : Word :=
  0#6 ++ rs ++ rt ++ rd ++ shamt ++ funct

/-- I format (R302). -/
def iWord (opcode : BitVec 6) (rs rt : Reg) (imm : BitVec 16) : Word :=
  opcode ++ rs ++ rt ++ imm

/-- J format (R303). -/
def jWord (opcode : BitVec 6) (target : BitVec 26) : Word :=
  opcode ++ target

/-- The word of a well-formed instruction, with 0 in every field the instruction does not use (R301–R303, R308–R310). -/
def encode : Instr → Word
  | .add rd rs rt => rWord rs rt rd 0#5 0x20#6
  | .addu rd rs rt => rWord rs rt rd 0#5 0x21#6
  | .sub rd rs rt => rWord rs rt rd 0#5 0x22#6
  | .subu rd rs rt => rWord rs rt rd 0#5 0x23#6
  | .and rd rs rt => rWord rs rt rd 0#5 0x24#6
  | .or rd rs rt => rWord rs rt rd 0#5 0x25#6
  | .xor rd rs rt => rWord rs rt rd 0#5 0x26#6
  | .nor rd rs rt => rWord rs rt rd 0#5 0x27#6
  | .slt rd rs rt => rWord rs rt rd 0#5 0x2A#6
  | .sltu rd rs rt => rWord rs rt rd 0#5 0x2B#6
  | .addi rt rs imm => iWord 0x08#6 rs rt imm
  | .addiu rt rs imm => iWord 0x09#6 rs rt imm
  | .slti rt rs imm => iWord 0x0A#6 rs rt imm
  | .sltiu rt rs imm => iWord 0x0B#6 rs rt imm
  | .andi rt rs imm => iWord 0x0C#6 rs rt imm
  | .ori rt rs imm => iWord 0x0D#6 rs rt imm
  | .xori rt rs imm => iWord 0x0E#6 rs rt imm
  | .lui rt imm => iWord 0x0F#6 0#5 rt imm
  | .sll rd rt shamt => rWord 0#5 rt rd (BitVec.ofNat 5 shamt) 0x00#6
  | .srl rd rt shamt => rWord 0#5 rt rd (BitVec.ofNat 5 shamt) 0x02#6
  | .sra rd rt shamt => rWord 0#5 rt rd (BitVec.ofNat 5 shamt) 0x03#6
  | .sllv rd rt rs => rWord rs rt rd 0#5 0x04#6
  | .srlv rd rt rs => rWord rs rt rd 0#5 0x06#6
  | .srav rd rt rs => rWord rs rt rd 0#5 0x07#6
  | .mult rs rt => rWord rs rt 0#5 0#5 0x18#6
  | .multu rs rt => rWord rs rt 0#5 0#5 0x19#6
  | .div rs rt => rWord rs rt 0#5 0#5 0x1A#6
  | .divu rs rt => rWord rs rt 0#5 0#5 0x1B#6
  | .mfhi rd => rWord 0#5 0#5 rd 0#5 0x10#6
  | .mflo rd => rWord 0#5 0#5 rd 0#5 0x12#6
  | .mthi rs => rWord rs 0#5 0#5 0#5 0x11#6
  | .mtlo rs => rWord rs 0#5 0#5 0#5 0x13#6
  | .beq rs rt offset => iWord 0x04#6 rs rt offset
  | .bne rs rt offset => iWord 0x05#6 rs rt offset
  | .blez rs offset => iWord 0x06#6 rs 0#5 offset
  | .bgtz rs offset => iWord 0x07#6 rs 0#5 offset
  | .bltz rs offset => iWord 0x01#6 rs 0x00#5 offset
  | .bgez rs offset => iWord 0x01#6 rs 0x01#5 offset
  | .bltzal rs offset => iWord 0x01#6 rs 0x10#5 offset
  | .bgezal rs offset => iWord 0x01#6 rs 0x11#5 offset
  | .j target => jWord 0x02#6 target
  | .jal target => jWord 0x03#6 target
  | .jalr rd rs => rWord rs 0#5 rd 0#5 0x09#6
  | .jr rs => rWord rs 0#5 0#5 0#5 0x08#6
  | .lb rt rs offset => iWord 0x20#6 rs rt offset
  | .lbu rt rs offset => iWord 0x24#6 rs rt offset
  | .lh rt rs offset => iWord 0x21#6 rs rt offset
  | .lhu rt rs offset => iWord 0x25#6 rs rt offset
  | .lw rt rs offset => iWord 0x23#6 rs rt offset
  | .sb rt rs offset => iWord 0x28#6 rs rt offset
  | .sh rt rs offset => iWord 0x29#6 rs rt offset
  | .sw rt rs offset => iWord 0x2B#6 rs rt offset
  | .syscall => rWord 0#5 0#5 0#5 0#5 0x0C#6

/-- The four bytes of an instruction as they lie in memory, lowest address first (R202). -/
def encodeBytes (i : Instr) : List Byte :=
  [byteOfWord (encode i) 0, byteOfWord (encode i) 1, byteOfWord (encode i) 2, byteOfWord (encode i) 3]

/-! ## Used bits -/

/-- The bits of the word that matter to an instruction: the bits that select it and the fields it uses. It ignores the
others (R307). -/
def usedBits : Instr → Word
  | .add .. | .addu .. | .sub .. | .subu .. | .and .. | .or .. | .xor .. | .nor .. | .slt .. | .sltu .. => 0xFFFFF83F#32
  | .addi .. | .addiu .. | .slti .. | .sltiu .. | .andi .. | .ori .. | .xori .. => 0xFFFFFFFF#32
  | .lui .. => 0xFC1FFFFF#32
  | .sll .. | .srl .. | .sra .. => 0xFC1FFFFF#32
  | .sllv .. | .srlv .. | .srav .. => 0xFFFFF83F#32
  | .mult .. | .multu .. | .div .. | .divu .. => 0xFFFF003F#32
  | .mfhi .. | .mflo .. => 0xFC00F83F#32
  | .mthi .. | .mtlo .. => 0xFFE0003F#32
  | .beq .. | .bne .. => 0xFFFFFFFF#32
  | .blez .. | .bgtz .. => 0xFFE0FFFF#32
  | .bltz .. | .bgez .. | .bltzal .. | .bgezal .. => 0xFFFFFFFF#32
  | .j .. | .jal .. => 0xFFFFFFFF#32
  | .jalr .. => 0xFFE0F83F#32
  | .jr .. => 0xFFE0003F#32
  | .lb .. | .lbu .. | .lh .. | .lhu .. | .lw .. | .sb .. | .sh .. | .sw .. => 0xFFFFFFFF#32
  | .syscall => 0xFC00003F#32

/-! ## The opcode table -/

/-- A row of spec/opcode_table.json: an instruction word is of the row when `w &&& mask = bits` (R307). -/
structure OpcodeRow where
  mnemonic : String
  bits : Word
  mask : Word
  deriving DecidableEq, Repr

/-- The mask of a row selected by opcode alone (R307). -/
def maskOpcode : Word := 0xFC000000#32
/-- The mask of a SPECIAL row (R307). -/
def maskSpecial : Word := 0xFC00003F#32
/-- The mask of a REGIMM row (R307). -/
def maskRegimm : Word := 0xFC1F0000#32

/-- The table's row of each instruction. -/
def tableRow : Instr → OpcodeRow
  | .add .. => ⟨"ADD", 0x00000020#32, maskSpecial⟩
  | .addu .. => ⟨"ADDU", 0x00000021#32, maskSpecial⟩
  | .sub .. => ⟨"SUB", 0x00000022#32, maskSpecial⟩
  | .subu .. => ⟨"SUBU", 0x00000023#32, maskSpecial⟩
  | .and .. => ⟨"AND", 0x00000024#32, maskSpecial⟩
  | .or .. => ⟨"OR", 0x00000025#32, maskSpecial⟩
  | .xor .. => ⟨"XOR", 0x00000026#32, maskSpecial⟩
  | .nor .. => ⟨"NOR", 0x00000027#32, maskSpecial⟩
  | .slt .. => ⟨"SLT", 0x0000002A#32, maskSpecial⟩
  | .sltu .. => ⟨"SLTU", 0x0000002B#32, maskSpecial⟩
  | .addi .. => ⟨"ADDI", 0x20000000#32, maskOpcode⟩
  | .addiu .. => ⟨"ADDIU", 0x24000000#32, maskOpcode⟩
  | .slti .. => ⟨"SLTI", 0x28000000#32, maskOpcode⟩
  | .sltiu .. => ⟨"SLTIU", 0x2C000000#32, maskOpcode⟩
  | .andi .. => ⟨"ANDI", 0x30000000#32, maskOpcode⟩
  | .ori .. => ⟨"ORI", 0x34000000#32, maskOpcode⟩
  | .xori .. => ⟨"XORI", 0x38000000#32, maskOpcode⟩
  | .lui .. => ⟨"LUI", 0x3C000000#32, maskOpcode⟩
  | .sll .. => ⟨"SLL", 0x00000000#32, maskSpecial⟩
  | .srl .. => ⟨"SRL", 0x00000002#32, maskSpecial⟩
  | .sra .. => ⟨"SRA", 0x00000003#32, maskSpecial⟩
  | .sllv .. => ⟨"SLLV", 0x00000004#32, maskSpecial⟩
  | .srlv .. => ⟨"SRLV", 0x00000006#32, maskSpecial⟩
  | .srav .. => ⟨"SRAV", 0x00000007#32, maskSpecial⟩
  | .mult .. => ⟨"MULT", 0x00000018#32, maskSpecial⟩
  | .multu .. => ⟨"MULTU", 0x00000019#32, maskSpecial⟩
  | .div .. => ⟨"DIV", 0x0000001A#32, maskSpecial⟩
  | .divu .. => ⟨"DIVU", 0x0000001B#32, maskSpecial⟩
  | .mfhi .. => ⟨"MFHI", 0x00000010#32, maskSpecial⟩
  | .mflo .. => ⟨"MFLO", 0x00000012#32, maskSpecial⟩
  | .mthi .. => ⟨"MTHI", 0x00000011#32, maskSpecial⟩
  | .mtlo .. => ⟨"MTLO", 0x00000013#32, maskSpecial⟩
  | .beq .. => ⟨"BEQ", 0x10000000#32, maskOpcode⟩
  | .bne .. => ⟨"BNE", 0x14000000#32, maskOpcode⟩
  | .blez .. => ⟨"BLEZ", 0x18000000#32, maskOpcode⟩
  | .bgtz .. => ⟨"BGTZ", 0x1C000000#32, maskOpcode⟩
  | .bltz .. => ⟨"BLTZ", 0x04000000#32, maskRegimm⟩
  | .bgez .. => ⟨"BGEZ", 0x04010000#32, maskRegimm⟩
  | .bltzal .. => ⟨"BLTZAL", 0x04100000#32, maskRegimm⟩
  | .bgezal .. => ⟨"BGEZAL", 0x04110000#32, maskRegimm⟩
  | .j .. => ⟨"J", 0x08000000#32, maskOpcode⟩
  | .jal .. => ⟨"JAL", 0x0C000000#32, maskOpcode⟩
  | .jalr .. => ⟨"JALR", 0x00000009#32, maskSpecial⟩
  | .jr .. => ⟨"JR", 0x00000008#32, maskSpecial⟩
  | .lb .. => ⟨"LB", 0x80000000#32, maskOpcode⟩
  | .lbu .. => ⟨"LBU", 0x90000000#32, maskOpcode⟩
  | .lh .. => ⟨"LH", 0x84000000#32, maskOpcode⟩
  | .lhu .. => ⟨"LHU", 0x94000000#32, maskOpcode⟩
  | .lw .. => ⟨"LW", 0x8C000000#32, maskOpcode⟩
  | .sb .. => ⟨"SB", 0xA0000000#32, maskOpcode⟩
  | .sh .. => ⟨"SH", 0xA4000000#32, maskOpcode⟩
  | .sw .. => ⟨"SW", 0xAC000000#32, maskOpcode⟩
  | .syscall => ⟨"SYSCALL", 0x0000000C#32, maskSpecial⟩

/-- One instruction of each row, in the table's order (operands 0). -/
def tableInstrs : List Instr :=
  [.add 0 0 0, .addu 0 0 0, .sub 0 0 0, .subu 0 0 0, .and 0 0 0, .or 0 0 0, .xor 0 0 0, .nor 0 0 0] ++
  [.slt 0 0 0, .sltu 0 0 0, .addi 0 0 0, .addiu 0 0 0, .slti 0 0 0, .sltiu 0 0 0, .andi 0 0 0, .ori 0 0 0] ++
  [.xori 0 0 0, .lui 0 0, .sll 0 0 0, .srl 0 0 0, .sra 0 0 0, .sllv 0 0 0, .srlv 0 0 0, .srav 0 0 0] ++
  [.mult 0 0, .multu 0 0, .div 0 0, .divu 0 0, .mfhi 0, .mflo 0, .mthi 0, .mtlo 0] ++
  [.beq 0 0 0, .bne 0 0 0, .blez 0 0, .bgtz 0 0, .bltz 0 0, .bgez 0 0, .bltzal 0 0, .bgezal 0 0] ++
  [.j 0, .jal 0, .jalr 0 0, .jr 0, .lb 0 0 0, .lbu 0 0 0, .lh 0 0 0, .lhu 0 0 0] ++
  [.lw 0 0 0, .sb 0 0 0, .sh 0 0 0, .sw 0 0 0, .syscall]

/-- The 53 rows (R311). -/
def opcodeTable : List OpcodeRow := tableInstrs.map tableRow

/-! ## The decoder as spec/opcode_table.json numbers bits -/

/-- The first four bytes, in memory order, of a number whose bit 0 is the least significant bit of the first word. -/
def tableBytes (w : Nat) : List Byte :=
  [BitVec.ofNat 8 w, BitVec.ofNat 8 (w / 256), BitVec.ofNat 8 (w / 65536), BitVec.ofNat 8 (w / 16777216)]

/-- The instruction the decoder reads from a row of spec/opcode_table.json: every row is one 32-bit word (R300). -/
def decodeTableWord (nbits w : Nat) : Option Instr :=
  if nbits ≤ 32 then
    match decodeBytes (tableBytes w) with
    | .ok (i, _) => some i
    | .error _ => none
  else none

end Sys2Proof
end

