-- ==== Sys2Proof/Config.lean ====
section
/-! DEFINITION. The parameters of R10: the values the spec fixes as constants, the OPEN ones as the fields of `Config`. -/

namespace Sys2Proof

/-- BLOCK_SIZE, in bytes, of L1I, L1D and L2 (R10). -/
def blockSize : Nat := 32

/-- RESET_PC (R10, R108). -/
def resetPc : Word := 0x00400000#32

/-- MULT_LATENCY, the value `multiplier_stall` takes for MULT and MULTU (R10, R500). -/
def multLatency : Nat := 4

/-- DIV_LATENCY, the value `multiplier_stall` takes for DIV and DIVU (R10, R500). -/
def divLatency : Nat := 32

/-- BRANCH_FLUSH_DEPTH (R10, R415). -/
def branchFlushDepth : Nat := 3

/-- HALT_CODE (R10, R652). -/
def haltCode : Word := 0x0A#32

/-- PRINT_CODE (R10, R652). -/
def printCode : Word := 0x0B#32

/-- SPAWN_CODES (R10, R652). -/
def spawnCodes : List Word := [0x01#32, 0x02#32, 0x03#32]

/-- CACHE_REPL_POLICY: the values SRC lists; only LRU is admitted (R10, R11, D27). -/
inductive ReplPolicy
  | lru | random | fifo | mru
  deriving DecidableEq, Repr

/-- L2_INCL_POLICY: the values SRC lists; only NINE is admitted (R10, R11, R245, D27). -/
inductive InclPolicy
  | inclusive | exclusive | nine
  deriving DecidableEq, Repr

/-- DRAM_PAGE_POLICY: both values are specified (R10, R264). -/
inductive PagePolicy
  | openRow | closedRow
  deriving DecidableEq, Repr

/-- A place in the DRAM: what DRAM_MAP gives for an address (R261). -/
structure DramLoc where
  channel : Nat
  rank : Nat
  bank : Nat
  row : Nat
  deriving DecidableEq, Repr

/-- DRAM_MAP, the OPEN function from address to (channel, rank, bank, row) (R10, D32), as plain data.
An address listed in `overrides` maps to the place beside it; any other address gets, in each coordinate, its
quotient by that coordinate's divisor, modulo the number of channels, ranks, banks or rows. Every function from
32-bit addresses into the DRAM can be written so. DESIGN CHOICE (log 2). -/
structure DramMap where
  channelDiv : Nat
  rankDiv : Nat
  bankDiv : Nat
  rowDiv : Nat
  overrides : List (Word × DramLoc)
  deriving DecidableEq, Repr

/-- A range of aligned word addresses, both ends included; MAPPED is a list of them (R204, log 3). -/
structure AddrRange where
  first : Word
  last : Word
  deriving DecidableEq, Repr

/-- The OPEN parameters of R10, under its own names. -/
structure Config where
  /-- NUM_CORES ≥ 1 -/
  numCores : Nat
  l1iSets : Nat
  l1iAssoc : Nat
  l1dSets : Nat
  l1dAssoc : Nat
  l2Sets : Nat
  l2Assoc : Nat
  l2MshrSize : Nat
  l2ToDramDelay : Nat
  dramToL2Delay : Nat
  l2HitLatency : Nat
  /-- L1_CACHE_MISS_PENALTY: no rule reads it (R10). -/
  l1CacheMissPenalty : Nat
  replPolicy : ReplPolicy
  inclPolicy : InclPolicy
  dramPagePolicy : PagePolicy
  dramChannels : Nat
  dramRanks : Nat
  dramBanks : Nat
  dramRows : Nat
  dramRowSize : Nat
  dramReqQueueSize : Nat
  dramRdwrCmdBusBusy : Nat
  dramRdwrDataBusBusy : Nat
  dramRdwrBankBusy : Nat
  dramPreCmdBusBusy : Nat
  dramPreBankBusy : Nat
  dramActCmdBusBusy : Nat
  dramActBankBusy : Nat
  dramMap : DramMap
  /-- MAPPED, the word addresses the functional memory backs. -/
  mapped : List AddrRange
  deriving DecidableEq, Repr

/-- CFG-T, the configuration of 95_test_vectors.md section 0, for a given NUM_CORES. Its DRAM organisation
parameters are 1 and its DRAM_MAP is constantly (0, 0, 0, 0); MAPPED is every word address. -/
def Config.cfgT (numCores : Nat) : Config where
  numCores := numCores
  l1iSets := 1
  l1iAssoc := 2
  l1dSets := 1
  l1dAssoc := 2
  l2Sets := 1
  l2Assoc := 4
  l2MshrSize := 2
  l2ToDramDelay := 1
  dramToL2Delay := 1
  l2HitLatency := 1
  l1CacheMissPenalty := 0
  replPolicy := .lru
  inclPolicy := .nine
  dramPagePolicy := .openRow
  dramChannels := 1
  dramRanks := 1
  dramBanks := 1
  dramRows := 1
  dramRowSize := 1
  dramReqQueueSize := 4
  dramRdwrCmdBusBusy := 1
  dramRdwrDataBusBusy := 4
  dramRdwrBankBusy := 1
  dramPreCmdBusBusy := 1
  dramPreBankBusy := 1
  dramActCmdBusBusy := 1
  dramActBankBusy := 1
  dramMap := { channelDiv := 1, rankDiv := 1, bankDiv := 1, rowDiv := 1, overrides := [] }
  mapped := [{ first := 0x00000000#32, last := 0xFFFFFFFC#32 }]

/-- The configuration `State.reset` is built with: CFG-T with four cores, so that each spawn code 1, 2, 3 names a core.
DESIGN CHOICE (log 1): R10 leaves the parameters OPEN. -/
def Config.atReset : Config := Config.cfgT 4

end Sys2Proof
end

