-- ==== Sys2Proof/Machine/State.lean ====
section
/-! DEFINITION. Every piece of state of SCB-CORE (10_state.md, 20_memory.md) as plain data, and the state after reset (R136).
SCB-CORE has no flag (R109), no system register, no exception register, no mode and no interrupt bit (R112, R710). -/

namespace Sys2Proof.Machine

/-! ## How a step can stop -/

/-- SCB-CORE has no fault state (R703: "Every instruction word of every admitted configuration has a defined effect, so no
admitted run faults"), so there is no reason to fault: nobody raises one. Safe. -/
inductive Fault
  deriving DecidableEq, Repr

/-- Why the model gives no next state. None of them is an instruction's. -/
inductive Refusal
  /-- Raised only by an arm of `exec` whose instruction has no meaning yet (no arm at present). Safe: the run stops. -/
  | notModelled (mnemonic : String)
  /-- Raised by `step` and by `launch` when the parameters violate R10 (R11: "A model rejects such a configuration rather
  than giving it a meaning"). Safe: nothing is claimed of such a machine. -/
  | configurationNotAdmitted
  /-- Raised by `launch` when a word of the program image lies outside MAPPED (R802, R804 `image_mapped`, I16). Safe. -/
  | imageOutsideMapped
  /-- Raised by `launchText` when the image is not a text of records `AAAAAAAA DDDDDDDD` (R802). Safe. -/
  | imageMalformed
  deriving DecidableEq, Repr

/-! ## The register file -/

/-- `REGS`: 32 registers of 32 bits (R100). Slot 0 holds 0 and is never written: `RegFile.write` discards (R101). -/
abbrev RegFile := Vector Word 32

/-! ## In-flight operations -/

/-- An op, SRC's `PipeOp` (R130). `none` is the register index −1 (R16). -/
structure Op where
  /-- The address the op was fetched from. -/
  pc : Word
  /-- The raw word. -/
  instruction : Word
  opcode : BitVec 6
  subop : BitVec 6
  rs : Reg
  rt : Reg
  rd : Reg
  shamt : BitVec 5
  funct : BitVec 6
  imm16 : BitVec 16
  seImm16 : Word
  target : BitVec 26
  regSrc1 : Option Reg
  regSrc2 : Option Reg
  regSrc1Value : Word
  regSrc2Value : Word
  regDst : Option Reg
  regDstValue : Word
  /-- A downstream stage may bypass from this op. -/
  regDstValueReady : Bool
  isMem : Bool
  memWrite : Bool
  memAddr : Word
  memValue : Word
  isBranch : Bool
  branchCond : Bool
  branchTaken : Bool
  branchDest : Word
  link : Bool
  deriving DecidableEq, Repr

/-- A new op with every other field at its creation value (R130, R404). -/
def Op.fresh (pc instruction : Word) : Op where
  pc := pc
  instruction := instruction
  opcode := 0#6
  subop := 0#6
  rs := 0#5
  rt := 0#5
  rd := 0#5
  shamt := 0#5
  funct := 0#6
  imm16 := 0#16
  seImm16 := 0#32
  target := 0#26
  regSrc1 := none
  regSrc2 := none
  regSrc1Value := 0#32
  regSrc2Value := 0#32
  regDst := none
  regDstValue := 0#32
  regDstValueReady := false
  isMem := false
  memWrite := false
  memAddr := 0#32
  memValue := 0#32
  isBranch := false
  branchCond := false
  branchTaken := false
  branchDest := 0#32
  link := false

/-! ## Caches -/

/-- The state of a cache block (R210). No rule ever sets SHARED (R216). -/
inductive BlockState
  | invalid | shared | exclusive | modified
  deriving DecidableEq, Repr

/-- A `CacheBlock` (R210). The payload of BLOCK_SIZE bytes is read by no rule (R201) and written by none (log 11). -/
structure CacheBlock where
  tag : Nat
  state : BlockState
  dirty : Bool
  lru : Nat
  payload : BitVec 256
  deriving DecidableEq, Repr

/-- INVALID, clean, LRU counter 0, tag 0 (R136). -/
def CacheBlock.reset : CacheBlock :=
  { tag := 0, state := .invalid, dirty := false, lru := 0, payload := 0#256 }

/-- A set: its ways in the order 0 to ASSOC−1 (R210). -/
abbrev CacheSet := List CacheBlock

/-- The SETS sets of a cache. -/
abbrev CacheSets := List CacheSet

/-- The array of a cache after reset: SETS sets of ASSOC invalid ways (R132). -/
def cacheSetsReset (sets assoc : Nat) : CacheSets :=
  List.replicate sets (List.replicate assoc CacheBlock.reset)

/-- An L1: its blocks and its one pending-miss register (R220, R222). A ready cycle `none` is ∞ (D25). -/
structure L1 where
  sets : CacheSets
  pendingMiss : Bool
  pendingMissAddr : Word
  pendingMissReady : Option Nat
  deriving DecidableEq, Repr

/-- An empty L1 with a clear pending miss (R136; the dead fields of the clear register: log 8). -/
def L1.reset (sets assoc : Nat) : L1 :=
  { sets := cacheSetsReset sets assoc, pendingMiss := false, pendingMissAddr := 0#32, pendingMissReady := some 0 }

/-- A miss status holding register of the L2 (R240). `requesters` is a set of core ids: a strictly rising list.
`done` and `readyCycle` are read by no rule. -/
structure Mshr where
  valid : Bool
  addr : Word
  isWrite : Bool
  requesters : List Nat
  done : Bool
  readyCycle : Nat
  deriving DecidableEq, Repr

/-- An invalid MSHR (R136; its dead fields: log 8). -/
def Mshr.reset : Mshr :=
  { valid := false, addr := 0#32, isWrite := false, requesters := [], done := false, readyCycle := 0 }

/-- An item of `req_queue`, toward DRAM (R241). -/
structure ReqItem where
  addr : Word
  isWrite : Bool
  coreId : Nat
  readyCycle : Nat
  deriving DecidableEq, Repr

/-- An item of `ret_queue`, from DRAM (R241). -/
structure RetItem where
  addr : Word
  readyCycle : Nat
  deriving DecidableEq, Repr

/-- The shared L2 (R240, R241). Both queues are oldest first. -/
structure L2 where
  sets : CacheSets
  mshrs : List Mshr
  reqQueue : List ReqItem
  retQueue : List RetItem
  deriving DecidableEq, Repr

/-- An empty L2 (R136). -/
def L2.reset (cfg : Config) : L2 :=
  { sets := cacheSetsReset cfg.l2Sets cfg.l2Assoc, mshrs := List.replicate cfg.l2MshrSize Mshr.reset,
    reqQueue := [], retQueue := [] }

/-! ## DRAM -/

/-- The source tag of a DRAM request (R261). No rule creates WRITEBACK (R265). -/
inductive DramSource
  | memory | writeback
  deriving DecidableEq, Repr

/-- A `DRAMRequest` (R261). -/
structure DramRequest where
  isWrite : Bool
  addr : Word
  coreId : Nat
  source : DramSource
  arrivalCycle : Nat
  loc : DramLoc
  dispatched : Bool
  dataEnd : Nat
  deriving DecidableEq, Repr

/-- A DRAM bank (R260). `openRow = none` is −1, closed. -/
structure Bank where
  openRow : Option Nat
  busyUntil : Nat
  deriving DecidableEq, Repr

/-- A channel's command bus and data bus, each with its `free_at` cycle (R260). -/
structure Channel where
  cmdFreeAt : Nat
  dataFreeAt : Nat
  deriving DecidableEq, Repr

/-- The DRAM (R133). Bank (channel c, rank r, bank b) stands at place (c * DRAM_RANKS + r) * DRAM_BANKS + b of `banks`. -/
structure Dram where
  banks : List Bank
  channels : List Channel
  queue : List DramRequest
  deriving DecidableEq, Repr

/-- Every bank closed and free, every bus free, the queue empty (R136). -/
def Dram.reset (cfg : Config) : Dram :=
  { banks := List.replicate (cfg.dramChannels * cfg.dramRanks * cfg.dramBanks) { openRow := none, busyUntil := 0 },
    channels := List.replicate cfg.dramChannels { cmdFreeAt := 0, dataFreeAt := 0 },
    queue := [] }

/-! ## Cores -/

/-- `branch_recover` (R114). `flushDepth = 0` is the cleared encoding. -/
structure BranchRecover where
  pending : Bool
  dest : Word
  flushDepth : Nat
  deriving DecidableEq, Repr

/-- The cleared triple (R114, R424). -/
def BranchRecover.clear : BranchRecover :=
  { pending := false, dest := 0#32, flushDepth := 0 }

/-- Everything one core owns (R2, R725). -/
structure CoreState where
  /-- The core's constant identifier (R116). -/
  id : Nat
  running : Bool
  regs : RegFile
  hi : Word
  lo : Word
  /-- The fetch address (R105). -/
  pc : Word
  multiplierStall : Nat
  branchRecover : BranchRecover
  decodeOp : Option Op
  executeOp : Option Op
  memOp : Option Op
  wbOp : Option Op
  fetched : Nat
  retired : Nat
  squashed : Nat
  icache : L1
  dcache : L1
  deriving DecidableEq, Repr

/-- Core `id` after reset (R136): only core 0 runs. -/
def CoreState.reset (cfg : Config) (id : Nat) : CoreState where
  id := id
  running := id == 0
  regs := Vector.replicate 32 0#32
  hi := 0#32
  lo := 0#32
  pc := resetPc
  multiplierStall := 0
  branchRecover := BranchRecover.clear
  decodeOp := none
  executeOp := none
  memOp := none
  wbOp := none
  fetched := 0
  retired := 0
  squashed := 0
  icache := L1.reset cfg.l1iSets cfg.l1iAssoc
  dcache := L1.reset cfg.l1dSets cfg.l1dAssoc

/-! ## The processor -/

/-- The stages an instruction acts in (R450). Fetch and recovery act without one. -/
inductive Stage
  | decode | execute | mem | wb
  deriving DecidableEq, Repr

/-- Which stage call is being made: the model's own field, read by `exec` (log 4). -/
structure Focus where
  core : Nat
  stage : Stage
  deriving DecidableEq, Repr

/-- The focus between cycles (DESIGN CHOICE, log 4). -/
def Focus.idle : Focus := { core := 0, stage := .wb }

/-- Functional memory (R131): address and byte, addresses strictly rising, no entry equal to `Memory.unlisted`. -/
abbrev Memory := List Host.Cell

/-- What an unlisted byte reads as: "Every byte that no record writes holds 0" (R802, R136). -/
def Memory.unlisted : Byte := 0#8

/-- The whole machine (R2, R725): the parameters it was built with, the cores, and what they share. -/
structure State where
  /-- The parameters of R10 (log 1). No step changes them. -/
  cfg : Config
  /-- The cores, core k at place k (R116). -/
  cores : List CoreState
  mem : Memory
  l2 : L2
  dram : Dram
  /-- `stat_cycles`, which is `current_cycle` throughout a cycle (R15, R134). -/
  cycles : Nat
  /-- The diagnostic output stream, oldest line first, without the line feeds that end the lines (R135, log 13). -/
  output : List String
  /-- The stage call `exec` stands in (log 4). -/
  focus : Focus
  deriving DecidableEq, Repr

/-- The reset state of R136 for given parameters, no image loaded. -/
def State.resetWith (cfg : Config) : State where
  cfg := cfg
  cores := (List.range cfg.numCores).map (CoreState.reset cfg)
  mem := []
  l2 := L2.reset cfg
  dram := Dram.reset cfg
  cycles := 0
  output := []
  focus := Focus.idle

/-- The machine right after reset (R136, R800), under the parameters of log 1. -/
def State.reset : State := State.resetWith Config.atReset

end Sys2Proof.Machine
end

