-- ==== Sys2Proof/Machine/Ops.lean ====
section
/-! DEFINITION. The named operations every stage and service uses: sequencing, the parameters' derived values, the register
file, functional memory, and access to one core. There is no operation that takes an exception and none that returns from
one: SCB-CORE raises none (R700), saves nothing on any path and has no vector (R707), and has no trap return (R708). -/

namespace Sys2Proof.Machine

/-! ## Sequencing -/

/-- What a stage call or a step answers. -/
abbrev Result := Host.Outcome State Fault Refusal

/-- First `o`, then `f` from the state it leaves; a stop stays a stop. -/
def andThen (o : Result) (f : State → Result) : Result :=
  match o with
  | .next s => f s
  | .fault r => .fault r
  | .refused r => .refused r

/-! ## Parameters (R10, R11) -/

/-- A power of two ≥ 1. -/
def isPowerOfTwo (n : Nat) : Bool := n == 2 ^ n.log2

/-- A DRAM place inside the organisation of R260 (log 2). -/
def dramLocInRange (cfg : Config) (l : DramLoc) : Bool :=
  l.channel < cfg.dramChannels && l.rank < cfg.dramRanks && l.bank < cfg.dramBanks && l.row < cfg.dramRows

/-- The constraints of R10 on the parameters: only these configurations have a meaning (R11, D27). -/
def configAdmitted (cfg : Config) : Bool :=
  [ decide (1 ≤ cfg.numCores),
    isPowerOfTwo cfg.l1iSets, decide (1 ≤ cfg.l1iAssoc),
    isPowerOfTwo cfg.l1dSets, decide (1 ≤ cfg.l1dAssoc),
    isPowerOfTwo cfg.l2Sets, decide (1 ≤ cfg.l2Assoc),
    decide (1 ≤ cfg.l2MshrSize),
    decide (cfg.replPolicy = .lru), decide (cfg.inclPolicy = .nine),
    decide (1 ≤ cfg.dramChannels), decide (1 ≤ cfg.dramRanks), decide (1 ≤ cfg.dramBanks),
    decide (1 ≤ cfg.dramRows), decide (1 ≤ cfg.dramRowSize), decide (1 ≤ cfg.dramReqQueueSize),
    cfg.dramMap.overrides.all (fun p => dramLocInRange cfg p.2) ].all id

/-- `DRAM_MAP(addr)` (R261, D32), from its plain-data form (log 2). -/
def dramMapAt (cfg : Config) (addr : Word) : DramLoc :=
  match cfg.dramMap.overrides.lookup addr with
  | some l => l
  | none =>
    { channel := addr.toNat / cfg.dramMap.channelDiv % cfg.dramChannels
      rank := addr.toNat / cfg.dramMap.rankDiv % cfg.dramRanks
      bank := addr.toNat / cfg.dramMap.bankDiv % cfg.dramBanks
      row := addr.toNat / cfg.dramMap.rowDiv % cfg.dramRows }

/-- `addr & 0xFFFFFFFC`: "low two bits ignored" (R204). -/
def alignWord (addr : Word) : Word := addr &&& 0xFFFFFFFC#32

/-- `a in MAPPED` for the aligned word that holds `addr` (R204). -/
def isMapped (cfg : Config) (addr : Word) : Bool :=
  cfg.mapped.any fun r => decide (r.first ≤ alignWord addr) && decide (alignWord addr ≤ r.last)

/-! ## Registers (R100, R101) -/

/-- Reads a register; register 0 reads as 0. -/
def RegFile.read (rf : RegFile) (r : Reg) : Word :=
  if r = 0#5 then 0#32 else rf[r.toNat]'(r.isLt)

/-- Writes a register; a write to register 0 is discarded. -/
def RegFile.write (rf : RegFile) (r : Reg) (v : Word) : RegFile :=
  if r = 0#5 then rf else rf.set r.toNat v r.isLt

/-- Commits a destination: `x[reg_dst] <- v` if `reg_dst` is 1 to 31 (R420). -/
def RegFile.commit (rf : RegFile) (dst : Option Reg) (v : Word) : RegFile :=
  match dst with
  | none => rf
  | some r => rf.write r v

/-! ## Functional memory (R200–R209) -/

/-- The byte stored at an address. -/
def Memory.readByte : Memory → Nat → Byte
  | [], _ => Memory.unlisted
  | (k, v) :: rest, a => if k = a then v else Memory.readByte rest a

/-- Stores a byte, keeping the canonical form: writing what an unlisted address reads as takes the entry out. -/
def Memory.writeByte : Memory → Nat → Byte → Memory
  | [], a, v => if v = Memory.unlisted then [] else [(a, v)]
  | (k, w) :: rest, a, v =>
    if a < k then (if v = Memory.unlisted then (k, w) :: rest else (a, v) :: (k, w) :: rest)
    else if a = k then (if v = Memory.unlisted then rest else (a, v) :: rest)
    else (k, w) :: Memory.writeByte rest a v

/-- The canonical form from a lowest admissible address on: addresses strictly rising and inside the 32-bit space
(R131), no entry equal to what an unlisted address reads as. -/
def Memory.wfFrom (lo : Nat) : Memory → Bool
  | [] => true
  | (k, v) :: rest => decide (lo ≤ k) && decide (k < 2 ^ 32) && decide (v ≠ Memory.unlisted) && Memory.wfFrom (k + 1) rest

/-- The canonical form of functional memory. -/
def Memory.wf (m : Memory) : Bool := Memory.wfFrom 0 m

/-- The four bytes of the aligned word at address `a`, little-endian (R202). -/
def Memory.readWord (m : Memory) (a : Nat) : Word :=
  wordOfBytes (m.readByte a) (m.readByte (a + 1)) (m.readByte (a + 2)) (m.readByte (a + 3))

/-- Stores the four bytes of a word at the aligned address `a`, little-endian (R202). -/
def Memory.writeWord (m : Memory) (a : Nat) (v : Word) : Memory :=
  (((m.writeByte a (byteOfWord v 0)).writeByte (a + 1) (byteOfWord v 1)).writeByte (a + 2) (byteOfWord v 2)).writeByte
    (a + 3) (byteOfWord v 3)

/-- `mem_read_32(addr)`, `MemRead(addr, 4)` (R204): the aligned word, or 0 where the word is not mapped. -/
def memRead32 (cfg : Config) (m : Memory) (addr : Word) : Word :=
  if isMapped cfg addr then m.readWord (alignWord addr).toNat else 0#32

/-- `mem_write_32(addr, v)`, `MemWrite(addr, 4, v)` (R205): the aligned word, or nothing where the word is not mapped. -/
def memWrite32 (cfg : Config) (m : Memory) (addr v : Word) : Memory :=
  if isMapped cfg addr then m.writeWord (alignWord addr).toNat v else m

/-! ## One core of the processor -/

/-- Changes core `c` by `f`; a number that names no core changes nothing. -/
def State.modifyCore (s : State) (c : Nat) (f : CoreState → CoreState) : State :=
  { s with cores := s.cores.modify c f }

/-- Puts a core's new state at place `c`. -/
def State.setCore (s : State) (c : Nat) (core : CoreState) : State :=
  s.modifyCore c fun _ => core

/-- The state in which a stage of core `c` is being called. -/
def State.focusOn (s : State) (c : Nat) (stage : Stage) : State :=
  { s with focus := { core := c, stage := stage } }

end Sys2Proof.Machine
end

