-- ==== Sys2Proof/Machine/Flags.lean ====
section
/-! DEFINITION. SCB-CORE has no flags, condition codes or predicate registers (R109). What other machines keep in flags is
computed here where it is used: comparison results go to general registers (R459, R460, R463, R464), branch conditions are
computed from register values at execute (R551–R558). -/

namespace Sys2Proof.Machine

/-- A comparison's result in a general register: 1 or 0. -/
def boolWord (b : Bool) : Word := if b then 1#32 else 0#32

/-- `1 if s(a) < s(b) else 0` (R459, R463). -/
def setLessSigned (a b : Word) : Word := boolWord (decide (a.toInt < b.toInt))

/-- `1 if u(a) < u(b) else 0` (R460, R464). -/
def setLessUnsigned (a b : Word) : Word := boolWord (decide (a.toNat < b.toNat))

/-- BEQ: `a = b` (R551). -/
def condEq (a b : Word) : Bool := decide (a = b)
/-- BNE: `a ≠ b` (R552). -/
def condNe (a b : Word) : Bool := decide (a ≠ b)
/-- BLEZ: `s(a) <= 0` (R553). -/
def condLez (a _b : Word) : Bool := decide (a.toInt ≤ 0)
/-- BGTZ: `s(a) > 0` (R554). -/
def condGtz (a _b : Word) : Bool := decide (0 < a.toInt)
/-- BLTZ and BLTZAL: `s(a) < 0` (R555, R557). -/
def condLtz (a _b : Word) : Bool := decide (a.toInt < 0)
/-- BGEZ and BGEZAL: `s(a) >= 0` (R556, R558). -/
def condGez (a _b : Word) : Bool := decide (0 ≤ a.toInt)

end Sys2Proof.Machine
end

