-- ==== Sys2Proof/Machine/Cache.lean ====
section
/-! DEFINITION. The caches of 20_memory.md sections 2 to 4: the structure L1 and L2 share (R210–R217), the blocking L1s
(R220–R226) and the non-blocking L2 with its MSHRs (R240–R247). They decide when an access completes, never a value (R201). -/

namespace Sys2Proof.Machine

/-! ## Shared structure -/

/-- `block_addr(addr) = addr & 0xFFFFFFE0` (R211). -/
def blockAddr (addr : Word) : Word := addr &&& 0xFFFFFFE0#32

/-- `addr >>u 5` (R211). -/
def blockNumber (addr : Word) : Nat := addr.toNat / blockSize

/-- `block mod SETS` (R211); SETS is the number of sets the array was built with. -/
def setIndex (sets : CacheSets) (addr : Word) : Nat := blockNumber addr % sets.length

/-- `block div SETS` (R211). -/
def tagOf (sets : CacheSets) (addr : Word) : Nat := blockNumber addr / sets.length

/-- The set an address falls in. -/
def setOf (sets : CacheSets) (addr : Word) : CacheSet := (sets[setIndex sets addr]?).getD []

/-- `state ≠ INVALID`. -/
def blockValid (b : CacheBlock) : Bool := decide (b.state ≠ .invalid)

/-- The way, if any, that is valid and holds the tag (R212). -/
def probe (sets : CacheSets) (addr : Word) : Option Nat :=
  (setOf sets addr).findIdx? fun b => blockValid b && decide (b.tag = tagOf sets addr)

/-- The LRU counter of a way, 0 for a way that is not there. -/
def lruOf (ways : CacheSet) (w : Nat) : Nat :=
  match ways[w]? with
  | some b => b.lru
  | none => 0

/-- `touch` on one set (R213): valid ways younger than way `w` age by one, way `w` becomes the youngest. -/
def touchWays (w : Nat) (ways : CacheSet) : CacheSet :=
  ways.mapIdx fun v b =>
    if v = w then { b with lru := 0 }
    else if blockValid b && decide (b.lru < lruOf ways w) then { b with lru := b.lru + 1 }
    else b

/-- A write hit on way `w`: dirty and MODIFIED (R223, R242). -/
def dirtyWay (w : Nat) (ways : CacheSet) : CacheSet :=
  ways.modify w fun b => { b with dirty := true, state := .modified }

/-- A hit on way `w`: touch it, and mark it written if the access is a write (R223 step 3, R242 step 1). -/
def hitBlock (sets : CacheSets) (addr : Word) (w : Nat) (isWrite : Bool) : CacheSets :=
  sets.modify (setIndex sets addr) fun ways =>
    if isWrite then dirtyWay w (touchWays w ways) else touchWays w ways

/-- The highest LRU counter of a set. -/
def maxLru (ways : CacheSet) : Nat := ways.foldl (fun m b => max m b.lru) 0

/-- `find_victim` (R214): the lowest-numbered INVALID way, else the way with the highest LRU counter (the lowest-numbered of
equals, which no run meets: log 9). -/
def findVictim (ways : CacheSet) : Nat :=
  match ways.findIdx? (fun b => !blockValid b) with
  | some w => w
  | none => (ways.findIdx? fun b => decide (b.lru = maxLru ways)).getD 0

/-- `install` on one set (R215): a valid victim is only dropped (no writeback, D29); the other valid ways that are younger
than it, or all of them if the victim was invalid, age by one; the block enters EXCLUSIVE, clean and youngest. -/
def installWays (tag : Nat) (ways : CacheSet) : CacheSet :=
  let w := findVictim ways
  let victimWasValid := (ways[w]?).any blockValid
  ways.mapIdx fun v b =>
    if v = w then { b with tag := tag, state := .exclusive, dirty := false, lru := 0 }
    else if blockValid b && (!victimWasValid || decide (b.lru < lruOf ways w)) then { b with lru := b.lru + 1 }
    else b

/-- `install(addr)` (R215). -/
def install (sets : CacheSets) (addr : Word) : CacheSets :=
  sets.modify (setIndex sets addr) (installWays (tagOf sets addr))

/-! ## L2 (R240–R247) -/

/-- What `L2.access` answers (R242). -/
inductive L2Answer
  | hit | miss | busy
  deriving DecidableEq, Repr

/-- Adds a core id to a set of core ids, kept as a strictly rising list (R240, R243 "ascending"). -/
def addRequester (id : Nat) : List Nat → List Nat
  | [] => [id]
  | k :: rest => if id < k then id :: k :: rest else if id = k then k :: rest else k :: addRequester id rest

/-- The lowest-numbered valid MSHR for a block (R242 step 2; there is at most one, R247). -/
def findMshr (mshrs : List Mshr) (block : Word) : Option Nat :=
  mshrs.findIdx? fun m => m.valid && decide (m.addr = block)

/-- The lowest-numbered invalid MSHR (R242 step 3). -/
def freeMshr (mshrs : List Mshr) : Option Nat :=
  mshrs.findIdx? fun m => !m.valid

/-- `L2.access(addr, is_write, core_id)` at cycle `t` (R242). -/
def l2Access (cfg : Config) (t : Nat) (addr : Word) (isWrite : Bool) (coreId : Nat) (l2 : L2) : L2Answer × L2 :=
  match probe l2.sets addr with
  | some w => (.hit, { l2 with sets := hitBlock l2.sets addr w isWrite })
  | none =>
    match findMshr l2.mshrs (blockAddr addr) with
    | some k =>
      (.miss, { l2 with mshrs := l2.mshrs.modify k fun m => { m with requesters := addRequester coreId m.requesters } })
    | none =>
      match freeMshr l2.mshrs with
      | some k =>
        (.miss,
          { l2 with
            mshrs := l2.mshrs.set k
              { valid := true, addr := blockAddr addr, isWrite := isWrite, requesters := [coreId], done := false,
                readyCycle := 0 }
            reqQueue := l2.reqQueue ++
              [{ addr := blockAddr addr, isWrite := isWrite, coreId := coreId, readyCycle := t + cfg.l2ToDramDelay }] })
      | none => (.busy, l2)

/-- `handle_dram_completion(addr)` at cycle `t` (R244). -/
def l2HandleCompletion (cfg : Config) (t : Nat) (addr : Word) (l2 : L2) : L2 :=
  { l2 with retQueue := l2.retQueue ++ [{ addr := addr, readyCycle := t + cfg.dramToL2Delay }] }

/-! ## L1 (R220–R226) -/

/-- `fill(addr)` (R224): acts only on a set pending miss for the same block; installs the pending address and clears it. -/
def l1Fill (addr : Word) (l1 : L1) : L1 :=
  if l1.pendingMiss && decide (blockAddr addr = blockAddr l1.pendingMissAddr) then
    { l1 with sets := install l1.sets l1.pendingMissAddr, pendingMiss := false }
  else l1

/-- `t >= pending_miss_ready_cycle`, never true for ∞ (R222, R223). -/
def readyReached (ready : Option Nat) (t : Nat) : Bool :=
  match ready with
  | some r => decide (r ≤ t)
  | none => false

/-- Step 1 of R223: a pending miss whose ready cycle has come is filled. -/
def l1FillIfReady (t : Nat) (l1 : L1) : L1 :=
  if l1.pendingMiss && readyReached l1.pendingMissReady t then l1Fill l1.pendingMissAddr l1 else l1

/-- Latches the pending-miss register (R223 step 4). -/
def l1Latch (addr : Word) (ready : Option Nat) (l1 : L1) : L1 :=
  { l1 with pendingMiss := true, pendingMissAddr := addr, pendingMissReady := ready }

/-- `access(addr, is_write, is_data)` of core `coreId`'s L1 at cycle `t` (R223): whether it completes, and what it leaves in
the L1 and the L2. `is_data` changes no state (R221). -/
def l1Access (cfg : Config) (t : Nat) (coreId : Nat) (addr : Word) (isWrite _isData : Bool) (l1 : L1) (l2 : L2) :
    Bool × L1 × L2 :=
  let l1 := l1FillIfReady t l1
  if l1.pendingMiss then (false, l1, l2)
  else match probe l1.sets addr with
    | some w => (true, { l1 with sets := hitBlock l1.sets addr w isWrite }, l2)
    | none =>
      match l2Access cfg t addr isWrite coreId l2 with
      | (.hit, l2) => (false, l1Latch addr (some (t + cfg.l2HitLatency)) l1, l2)
      | (.miss, l2) => (false, l1Latch addr none l1, l2)
      | (.busy, l2) => (false, l1, l2)

end Sys2Proof.Machine
end

