-- ==== Sys2Proof/Machine/Operands.lean ====
section
/-! DEFINITION. Every operand form: the fields decode extracts (R304), the immediates (R305), the resolution of sources with
its three bypass tiers (R412), the branch and jump targets (R305), and the extraction and merge of narrow accesses
(R600, R601). -/

namespace Sys2Proof.Machine

/-! ## Fields and immediates -/

/-- Decode extracts every field of the word, whatever the format (R304). -/
def extractFields (op : Op) : Op :=
  { op with
    opcode := fieldOpcode op.instruction
    subop := fieldSubop op.instruction
    rs := fieldRs op.instruction
    rt := fieldRt op.instruction
    rd := fieldRd op.instruction
    shamt := fieldShamt op.instruction
    funct := fieldFunct op.instruction
    imm16 := fieldImm16 op.instruction
    seImm16 := fieldSeImm16 op.instruction
    target := fieldTarget op.instruction }

/-- `sext_32(imm16)`: ADDI, ADDIU, SLTI, SLTIU, and the load and store offsets (R305). -/
def signedImm (imm : BitVec 16) : Word := imm.signExtend 32

/-- `zext_32(imm16)`: ANDI, ORI, XORI (R305). -/
def unsignedImm (imm : BitVec 16) : Word := imm.zeroExtend 32

/-- `imm16 || 0x0000`: LUI (R305, R468). -/
def upperImm (imm : BitVec 16) : Word := imm ++ 0#16

/-- `op.pc + 4 + (sext_32(imm16) << 2)`: the conditional branches (R305, R551). -/
def branchTarget (pc : Word) (offset : BitVec 16) : Word := pc + 4#32 + (signedImm offset <<< 2)

/-- `(op.pc + 4)[31:28] || target || 0b00`: J and JAL (R305, R559). -/
def jumpTarget (pc : Word) (target : BitVec 26) : Word :=
  (pc + 4#32).extractLsb' 28 4 ++ target ++ 0#2

/-- `rs_value[4:0]`: the amount of SLLV, SRLV, SRAV (R305). -/
def variableAmount (a : Word) : Nat := (a.extractLsb' 0 5).toNat

/-! ## Operand resolution (R412) -/

/-- What resolving one source answers. -/
inductive Resolved
  /-- The source's value. -/
  | value (v : Word)
  /-- The source is −1: its value field is left unchanged. -/
  | unchanged
  /-- The value is not ready: the op stays in execute. -/
  | stall
  deriving DecidableEq, Repr

/-- The op in a slot, if there is one and its `reg_dst` is register `r`. -/
def writerOf (slot : Option Op) (r : Reg) : Option Op :=
  match slot with
  | none => none
  | some op => if op.regDst = some r then some op else none

/-- `resolve(i)` (R412): register 0 is 0; else the op in mem if it writes `i` (tier 1: its value if ready, else STALL), else
the op in wb if it writes `i` (tier 2), else the register file (tier 3). -/
def resolveSource (core : CoreState) (src : Option Reg) : Resolved :=
  match src with
  | none => .unchanged
  | some r =>
    if r = 0#5 then .value 0#32
    else match writerOf core.memOp r with
      | some op => if op.regDstValueReady then .value op.regDstValue else .stall
      | none => match writerOf core.wbOp r with
        | some op => .value op.regDstValue
        | none => .value (core.regs.read r)

/-- The value field after resolution. -/
def resolvedValue (old : Word) : Resolved → Word
  | .value v => v
  | .unchanged => old
  | .stall => old

/-- The op with both sources resolved, first `reg_src1`, then `reg_src2` (R412). -/
def resolveSources (core : CoreState) (op : Op) : Op :=
  { op with
    regSrc1Value := resolvedValue op.regSrc1Value (resolveSource core op.regSrc1)
    regSrc2Value := resolvedValue op.regSrc2Value (resolveSource core op.regSrc2) }

/-- "If either source gave STALL" (R412). -/
def sourcesStall (core : CoreState) (op : Op) : Bool :=
  decide (resolveSource core op.regSrc1 = .stall) || decide (resolveSource core op.regSrc2 = .stall)

/-! ## Narrow accesses (R600, R601) -/

/-- `8 * k`, with `k = mem_addr[1:0]`. -/
def bitOffset (addr : Word) : Nat := 8 * (addr.extractLsb' 0 2).toNat

/-- `t[7:0]` of R600: the byte a byte load uses. -/
def loadedByte (addr w : Word) : BitVec 8 := (w >>> bitOffset addr).extractLsb' 0 8

/-- `t[15:0]` of R600: the halfword a halfword load uses. At k = 3 its upper byte is 0 (D15). -/
def loadedHalf (addr w : Word) : BitVec 16 := (w >>> bitOffset addr).extractLsb' 0 16

/-- LB (R600). -/
def extractLb (addr w : Word) : Word := (loadedByte addr w).signExtend 32
/-- LBU (R600). -/
def extractLbu (addr w : Word) : Word := (loadedByte addr w).zeroExtend 32
/-- LH (R600): the sign-extension at k = 3 is of a halfword whose upper byte is 0. -/
def extractLh (addr w : Word) : Word := (loadedHalf addr w).signExtend 32
/-- LHU (R600). -/
def extractLhu (addr w : Word) : Word := (loadedHalf addr w).zeroExtend 32
/-- LW (R600): the aligned word, k ignored. -/
def extractLw (_addr w : Word) : Word := w

/-- The word in which the bits of `mask`, moved to the access's place, are taken from `v` and the others from `w`; bits
moved past the top are dropped (R601). -/
def mergeMasked (mask addr w v : Word) : Word :=
  (w &&& ~~~(mask <<< bitOffset addr)) ||| ((v &&& mask) <<< bitOffset addr)

/-- SB (R601). -/
def mergeSb (addr w v : Word) : Word := mergeMasked 0x000000FF#32 addr w v
/-- SH (R601): at k = 3 only `v[7:0]` is stored (D15). -/
def mergeSh (addr w v : Word) : Word := mergeMasked 0x0000FFFF#32 addr w v
/-- SW (R601): k ignored. -/
def mergeSw (_addr _w v : Word) : Word := v

end Sys2Proof.Machine
end

