-- ==== Sys2Proof/Machine/Stages.lean ====
section
/-! DEFINITION. The pipeline's stages (40_pipeline.md) as operations on one core: what decode, execute, mem and wb do around
an instruction's own blocks (R406–R420), fetch (R403–R405), and branch recovery (R423, R424). `stageCall` is the shared
operation every instruction's meaning is made of: it runs the instruction's block of the stage in focus. -/

namespace Sys2Proof.Machine

/-! ## Branch recovery -/

/-- `recover(flush_depth, dest)` (R423): a recovery already pending in this cycle is kept. -/
def recover (depth : Nat) (dest : Word) (core : CoreState) : CoreState :=
  if core.branchRecover.pending then core
  else { core with branchRecover := { pending := true, dest := dest, flushDepth := depth } }

/-- A slot after a flush of the given depth, for a slot flushed from `least` on (R424). -/
def flushSlot (least depth : Nat) (slot : Option Op) : Option Op :=
  if least ≤ depth then none else slot

/-- `apply_recovery()` on a core (R424). -/
def applyRecoveryCore (core : CoreState) : CoreState :=
  if core.branchRecover.pending then
    { core with
      pc := core.branchRecover.dest
      decodeOp := flushSlot 2 core.branchRecover.flushDepth core.decodeOp
      executeOp := flushSlot 3 core.branchRecover.flushDepth core.executeOp
      memOp := flushSlot 4 core.branchRecover.flushDepth core.memOp
      wbOp := flushSlot 5 core.branchRecover.flushDepth core.wbOp
      squashed := core.squashed + 1
      branchRecover := BranchRecover.clear }
  else core

/-! ## Fetch -/

/-- What a completed I-cache access makes of the core (R404): the new op enters the decode slot. -/
def fetchInto (instruction : Word) (core : CoreState) : CoreState :=
  { core with
    decodeOp := some (Op.fresh core.pc instruction)
    pc := core.pc + 4#32
    fetched := core.fetched + 1 }

/-- The fetch stage of core `c` (R403–R405). -/
def fetchStage (c : Nat) (s : State) : State :=
  match s.cores[c]? with
  | none => s
  | some core =>
    if core.decodeOp.isSome then s
    else match l1Access s.cfg s.cycles core.id core.pc false false core.icache s.l2 with
      | (done, icache, l2) =>
        let core := { core with icache := icache }
        { s with l2 := l2 }.setCore c
          (if done then fetchInto (memRead32 s.cfg s.mem core.pc) core else core)

/-! ## Decode -/

/-- The decode stage (R406, R407) with an instruction's Decode block. A field the block does not set keeps its creation
value. -/
def decodeStage (block : Op → Op) (c : Nat) (s : State) : State :=
  match s.cores[c]? with
  | none => s
  | some core =>
    match core.decodeOp, core.executeOp with
    | some op, none => s.setCore c { core with decodeOp := none, executeOp := some (block (extractFields op)) }
    | _, _ => s

/-! ## Execute -/

/-- The decrement at the start of every execute stage (R410). -/
def decrementMultiplier (core : CoreState) : CoreState :=
  { core with multiplierStall := core.multiplierStall - 1 }

/-- The end of execute (R415): a taken branch or jump schedules a recovery; the op moves on to mem. -/
def leaveExecute (core : CoreState) (op : Op) : CoreState :=
  let core := if op.isBranch && op.branchTaken then recover branchFlushDepth op.branchDest core else core
  { core with memOp := some op, executeOp := none }

/-- The execute stage after its decrement (R411–R415) with an instruction's Execute block. `none` of the block is STALL: the
op, its sources resolved, stays in the execute slot (R414). -/
def executeStage (block : CoreState → Op → Option (CoreState × Op)) (c : Nat) (s : State) : State :=
  match s.cores[c]? with
  | none => s
  | some core =>
    match core.executeOp, core.memOp with
    | some op, none =>
      let op' := resolveSources core op
      if sourcesStall core op then s.setCore c { core with executeOp := some op' }
      else match block core op' with
        | none => s.setCore c { core with executeOp := some op' }
        | some (core', op'') => s.setCore c (leaveExecute core' op'')
    | _, _ => s

/-! ## Mem -/

/-- The op after a completed load (R416, R600). -/
def loadInto (extract : Word → Word → Word) (w : Word) (op : Op) : Op :=
  { op with regDstValue := extract op.memAddr w, regDstValueReady := true }

/-- The op moves on to wb (R416). -/
def leaveMem (op : Op) (core : CoreState) : CoreState :=
  { core with wbOp := some op, memOp := none }

/-- The mem stage (R416) with an instruction's extraction (R600) and merge (R601). -/
def memStage (extract : Word → Word → Word) (merge : Word → Word → Word → Word) (c : Nat) (s : State) : State :=
  match s.cores[c]? with
  | none => s
  | some core =>
    match core.memOp with
    | none => s
    | some op =>
      if op.isMem then
        match l1Access s.cfg s.cycles core.id op.memAddr op.memWrite true core.dcache s.l2 with
        | (false, dcache, l2) => { s with l2 := l2 }.setCore c { core with dcache := dcache }
        | (true, dcache, l2) =>
          let w := memRead32 s.cfg s.mem op.memAddr
          if op.memWrite then
            { s with l2 := l2, mem := memWrite32 s.cfg s.mem op.memAddr (merge op.memAddr w op.memValue) }.setCore c
              (leaveMem op { core with dcache := dcache })
          else { s with l2 := l2 }.setCore c (leaveMem (loadInto extract w op) { core with dcache := dcache })
      else s.setCore c (leaveMem op core)

/-! ## Writeback -/

/-- The register commit of writeback (R420). -/
def commitDst (op : Op) (core : CoreState) : CoreState :=
  { core with regs := core.regs.commit op.regDst op.regDstValue }

/-- The end of writeback (R420): the slot empties and the op is counted. -/
def retire (core : CoreState) : CoreState :=
  { core with wbOp := none, retired := core.retired + 1 }

/-- The wb stage (R420) with an instruction's service: after the commit, before the op is counted (R651). -/
def wbStage (service : Nat → Op → State → State) (c : Nat) (s : State) : State :=
  match s.cores[c]? with
  | none => s
  | some core =>
    match core.wbOp with
    | none => s
    | some op => (service c op (s.modifyCore c (commitDst op))).modifyCore c retire

/-! ## An instruction's blocks -/

/-- No service at writeback: every instruction but SYSCALL (R420). -/
def noService (_c : Nat) (_op : Op) (s : State) : State := s

/-- No extraction: an instruction that is no load never uses it (R416). -/
def noExtract (_addr w : Word) : Word := w

/-- No merge: an instruction that is no store never uses it (R416). -/
def noMerge (_addr w _v : Word) : Word := w

/-- An instruction's part of the stage call in focus, from its four blocks (R450): the one operation all meanings share. -/
def stageCall (decodeBlock : Op → Op) (executeBlock : CoreState → Op → Option (CoreState × Op))
    (extract : Word → Word → Word) (merge : Word → Word → Word → Word) (service : Nat → Op → State → State)
    (s : State) : Result :=
  .next <| match s.focus.stage with
    | .decode => decodeStage decodeBlock s.focus.core s
    | .execute => executeStage executeBlock s.focus.core s
    | .mem => memStage extract merge s.focus.core s
    | .wb => wbStage service s.focus.core s

/-- The stage call of an instruction that acts in decode and execute only (R450). -/
def registerInstr (decodeBlock : Op → Op) (executeBlock : CoreState → Op → Option (CoreState × Op)) (s : State) : Result :=
  stageCall decodeBlock executeBlock noExtract noMerge noService s

end Sys2Proof.Machine
end

