-- ==== Sys2Proof/Machine/Alu.lean ====
section
/-! DEFINITION. Integer ALU, immediate and shift instructions (41_alu.md). `a` is `reg_src1_value`, `b` is `reg_src2_value`,
as resolved at execute (R450); the result is written at writeback. No flag, no exception, overflow wraps (R480, D5). -/

namespace Sys2Proof.Machine

/-- Decode block with the given sources and destination (R306). -/
def decodeRegs (src1 src2 dst : Option Reg) (op : Op) : Op :=
  { op with regSrc1 := src1, regSrc2 := src2, regDst := dst }

/-- An Execute block that computes `reg_dst_value` and marks it ready (R450). -/
def executeResult (f : Word → Word → Word) (core : CoreState) (op : Op) : Option (CoreState × Op) :=
  some (core, { op with regDstValue := f op.regSrc1Value op.regSrc2Value, regDstValueReady := true })

/-- An instruction that computes its destination from its sources, in execute. -/
def aluInstr (src1 src2 : Option Reg) (dst : Reg) (f : Word → Word → Word) (s : State) : Result :=
  registerInstr (decodeRegs src1 src2 (some dst)) (executeResult f) s

/-! ## Three-register arithmetic and logic -/

/-- ADD (R451): `a + b`, wrapping. -/
def execAdd (rd rs rt : Reg) (s : State) : Result := aluInstr (some rs) (some rt) rd (fun a b => a + b) s
/-- ADDU (R452): `a + b`. -/
def execAddu (rd rs rt : Reg) (s : State) : Result := aluInstr (some rs) (some rt) rd (fun a b => a + b) s
/-- SUB (R453): `a − b`, wrapping. -/
def execSub (rd rs rt : Reg) (s : State) : Result := aluInstr (some rs) (some rt) rd (fun a b => a - b) s
/-- SUBU (R454): `a − b`. -/
def execSubu (rd rs rt : Reg) (s : State) : Result := aluInstr (some rs) (some rt) rd (fun a b => a - b) s
/-- AND (R455): `a & b`. -/
def execAnd (rd rs rt : Reg) (s : State) : Result := aluInstr (some rs) (some rt) rd (fun a b => a &&& b) s
/-- OR (R456): `a | b`. -/
def execOr (rd rs rt : Reg) (s : State) : Result := aluInstr (some rs) (some rt) rd (fun a b => a ||| b) s
/-- XOR (R457): `a ^ b`. -/
def execXor (rd rs rt : Reg) (s : State) : Result := aluInstr (some rs) (some rt) rd (fun a b => a ^^^ b) s
/-- NOR (R458): `~(a | b)`. -/
def execNor (rd rs rt : Reg) (s : State) : Result := aluInstr (some rs) (some rt) rd (fun a b => ~~~(a ||| b)) s
/-- SLT (R459): `1 if s(a) < s(b) else 0`. -/
def execSlt (rd rs rt : Reg) (s : State) : Result := aluInstr (some rs) (some rt) rd setLessSigned s
/-- SLTU (R460): `1 if u(a) < u(b) else 0`. -/
def execSltu (rd rs rt : Reg) (s : State) : Result := aluInstr (some rs) (some rt) rd setLessUnsigned s

/-! ## Immediate arithmetic and logic -/

/-- ADDI (R461): `a + sext_32(imm)`, wrapping. -/
def execAddi (rt rs : Reg) (imm : BitVec 16) (s : State) : Result :=
  aluInstr (some rs) none rt (fun a _ => a + signedImm imm) s
/-- ADDIU (R462): `a + sext_32(imm)`. -/
def execAddiu (rt rs : Reg) (imm : BitVec 16) (s : State) : Result :=
  aluInstr (some rs) none rt (fun a _ => a + signedImm imm) s
/-- SLTI (R463): `1 if s(a) < s(sext_32(imm)) else 0`. -/
def execSlti (rt rs : Reg) (imm : BitVec 16) (s : State) : Result :=
  aluInstr (some rs) none rt (fun a _ => setLessSigned a (signedImm imm)) s
/-- SLTIU (R464): `1 if u(a) < u(sext_32(imm)) else 0`. -/
def execSltiu (rt rs : Reg) (imm : BitVec 16) (s : State) : Result :=
  aluInstr (some rs) none rt (fun a _ => setLessUnsigned a (signedImm imm)) s
/-- ANDI (R465): `a & zext_32(imm)`. -/
def execAndi (rt rs : Reg) (imm : BitVec 16) (s : State) : Result :=
  aluInstr (some rs) none rt (fun a _ => a &&& unsignedImm imm) s
/-- ORI (R466): `a | zext_32(imm)`. -/
def execOri (rt rs : Reg) (imm : BitVec 16) (s : State) : Result :=
  aluInstr (some rs) none rt (fun a _ => a ||| unsignedImm imm) s
/-- XORI (R467): `a ^ zext_32(imm)`. -/
def execXori (rt rs : Reg) (imm : BitVec 16) (s : State) : Result :=
  aluInstr (some rs) none rt (fun a _ => a ^^^ unsignedImm imm) s
/-- LUI (R468): `imm || 0x0000`; no source. -/
def execLui (rt : Reg) (imm : BitVec 16) (s : State) : Result :=
  aluInstr none none rt (fun _ _ => upperImm imm) s

/-! ## Shifts -/

/-- SLL (R470): `b << shamt`. -/
def execSll (rd rt : Reg) (shamt : Nat) (s : State) : Result := aluInstr none (some rt) rd (fun _ b => b <<< shamt) s
/-- SRL (R471): `b >>u shamt`. -/
def execSrl (rd rt : Reg) (shamt : Nat) (s : State) : Result := aluInstr none (some rt) rd (fun _ b => b >>> shamt) s
/-- SRA (R472): `b >>s shamt`. -/
def execSra (rd rt : Reg) (shamt : Nat) (s : State) : Result :=
  aluInstr none (some rt) rd (fun _ b => b.sshiftRight shamt) s
/-- SLLV (R473): `b << a[4:0]`. -/
def execSllv (rd rt rs : Reg) (s : State) : Result :=
  aluInstr (some rs) (some rt) rd (fun a b => b <<< variableAmount a) s
/-- SRLV (R474): `b >>u a[4:0]`. -/
def execSrlv (rd rt rs : Reg) (s : State) : Result :=
  aluInstr (some rs) (some rt) rd (fun a b => b >>> variableAmount a) s
/-- SRAV (R475): `b >>s a[4:0]`. -/
def execSrav (rd rt rs : Reg) (s : State) : Result :=
  aluInstr (some rs) (some rt) rd (fun a b => b.sshiftRight (variableAmount a)) s

end Sys2Proof.Machine
end

