-- ==== Sys2Proof/Machine/Branch.lean ====
section
/-! DEFINITION. Branches and jumps (43_branch.md). No delay slot: a taken one schedules `recover(3, branch_dest)` at the end of
execute (R415, R550); a link writes `op.pc + 4` at writeback, taken or not (R408, R557). -/

namespace Sys2Proof.Machine

/-- Decode block of a conditional branch (R551, R553): sources, condition, target. -/
def decodeBranch (src1 src2 : Option Reg) (offset : BitVec 16) (op : Op) : Op :=
  { op with
    regSrc1 := src1
    regSrc2 := src2
    isBranch := true
    branchCond := true
    branchDest := branchTarget op.pc offset }

/-- The link part of a Decode block (R408): the destination is set to `op.pc + 4` and ready. -/
def decodeLink (dst : Reg) (op : Op) : Op :=
  { op with link := true, regDst := some dst, regDstValue := op.pc + 4#32, regDstValueReady := true }

/-- Decode block of J (R559): taken at once, target known. -/
def decodeJump (target : BitVec 26) (op : Op) : Op :=
  { op with isBranch := true, branchCond := false, branchTaken := true, branchDest := jumpTarget op.pc target }

/-- Decode block of JR (R562): a jump whose target execute supplies. -/
def decodeJumpRegister (rs : Reg) (op : Op) : Op :=
  { op with regSrc1 := some rs, isBranch := true, branchCond := false }

/-- Execute block of a conditional branch: `branch_taken <- cond(a, b)`. -/
def executeCond (cond : Word → Word → Bool) (core : CoreState) (op : Op) : Option (CoreState × Op) :=
  some (core, { op with branchTaken := cond op.regSrc1Value op.regSrc2Value })

/-- Execute block of J and JAL: nothing more (R559). -/
def executeNothing (core : CoreState) (op : Op) : Option (CoreState × Op) := some (core, op)

/-- Execute block of JR and JALR: `branch_dest <- a; branch_taken <- true` (R561, R562). -/
def executeJumpRegister (core : CoreState) (op : Op) : Option (CoreState × Op) :=
  some (core, { op with branchDest := op.regSrc1Value, branchTaken := true })

/-- A conditional branch without link. -/
def condBranch (src1 src2 : Option Reg) (offset : BitVec 16) (cond : Word → Word → Bool) (s : State) : Result :=
  registerInstr (decodeBranch src1 src2 offset) (executeCond cond) s

/-- A conditional branch that links into register 31 (R557). -/
def condBranchLink (src1 : Option Reg) (offset : BitVec 16) (cond : Word → Word → Bool) (s : State) : Result :=
  registerInstr (fun op => decodeLink Reg.ra (decodeBranch src1 none offset op)) (executeCond cond) s

/-- BEQ (R551). -/
def execBeq (rs rt : Reg) (offset : BitVec 16) (s : State) : Result := condBranch (some rs) (some rt) offset condEq s
/-- BNE (R552). -/
def execBne (rs rt : Reg) (offset : BitVec 16) (s : State) : Result := condBranch (some rs) (some rt) offset condNe s
/-- BLEZ (R553). -/
def execBlez (rs : Reg) (offset : BitVec 16) (s : State) : Result := condBranch (some rs) none offset condLez s
/-- BGTZ (R554). -/
def execBgtz (rs : Reg) (offset : BitVec 16) (s : State) : Result := condBranch (some rs) none offset condGtz s
/-- BLTZ (R555). -/
def execBltz (rs : Reg) (offset : BitVec 16) (s : State) : Result := condBranch (some rs) none offset condLtz s
/-- BGEZ (R556). -/
def execBgez (rs : Reg) (offset : BitVec 16) (s : State) : Result := condBranch (some rs) none offset condGez s
/-- BLTZAL (R557): links whether or not taken; the condition reads the old register 31 if rs is 31. -/
def execBltzal (rs : Reg) (offset : BitVec 16) (s : State) : Result := condBranchLink (some rs) offset condLtz s
/-- BGEZAL (R558). -/
def execBgezal (rs : Reg) (offset : BitVec 16) (s : State) : Result := condBranchLink (some rs) offset condGez s
/-- J (R559). -/
def execJ (target : BitVec 26) (s : State) : Result := registerInstr (decodeJump target) executeNothing s
/-- JAL (R560). -/
def execJal (target : BitVec 26) (s : State) : Result :=
  registerInstr (fun op => decodeLink Reg.ra (decodeJump target op)) executeNothing s
/-- JALR (R561): links into the rd it encodes (D9, C17); with rd = rs it jumps to the old rs (U1). -/
def execJalr (rd rs : Reg) (s : State) : Result :=
  registerInstr (fun op => decodeLink rd (decodeJumpRegister rs op)) executeJumpRegister s
/-- JR (R562). -/
def execJr (rs : Reg) (s : State) : Result := registerInstr (decodeJumpRegister rs) executeJumpRegister s

end Sys2Proof.Machine
end

