-- ==== Sys2Proof/Machine/LoadStore.lean ====
section
/-! DEFINITION. Loads and stores (44_loadstore.md). Execute fixes the address and the store data (R602, D45); mem makes the
D-cache access and, in the cycle it completes, the read or the read-modify-write of the aligned word (R603). -/

namespace Sys2Proof.Machine

/-- Decode block of a load (R602). -/
def decodeLoad (rt rs : Reg) (op : Op) : Op :=
  { op with regSrc1 := some rs, regSrc2 := none, regDst := some rt, isMem := true, memWrite := false }

/-- Decode block of a store (R602). -/
def decodeStore (rt rs : Reg) (op : Op) : Op :=
  { op with regSrc1 := some rs, regSrc2 := some rt, regDst := none, isMem := true, memWrite := true }

/-- Execute block of a load (R602): `mem_addr <- a + se`; the destination is not ready yet. -/
def executeLoad (offset : BitVec 16) (core : CoreState) (op : Op) : Option (CoreState × Op) :=
  some (core, { op with memAddr := op.regSrc1Value + signedImm offset })

/-- Execute block of a store (R602): `mem_addr <- a + se; mem_value <- b`. -/
def executeStore (offset : BitVec 16) (core : CoreState) (op : Op) : Option (CoreState × Op) :=
  some (core, { op with memAddr := op.regSrc1Value + signedImm offset, memValue := op.regSrc2Value })

/-- A load with its extraction. -/
def loadInstr (rt rs : Reg) (offset : BitVec 16) (extract : Word → Word → Word) (s : State) : Result :=
  stageCall (decodeLoad rt rs) (executeLoad offset) extract noMerge noService s

/-- A store with its merge. -/
def storeInstr (rt rs : Reg) (offset : BitVec 16) (merge : Word → Word → Word → Word) (s : State) : Result :=
  stageCall (decodeStore rt rs) (executeStore offset) noExtract merge noService s

/-- LB (R610). -/
def execLb (rt rs : Reg) (offset : BitVec 16) (s : State) : Result := loadInstr rt rs offset extractLb s
/-- LBU (R611). -/
def execLbu (rt rs : Reg) (offset : BitVec 16) (s : State) : Result := loadInstr rt rs offset extractLbu s
/-- LH (R612). -/
def execLh (rt rs : Reg) (offset : BitVec 16) (s : State) : Result := loadInstr rt rs offset extractLh s
/-- LHU (R613). -/
def execLhu (rt rs : Reg) (offset : BitVec 16) (s : State) : Result := loadInstr rt rs offset extractLhu s
/-- LW (R614). -/
def execLw (rt rs : Reg) (offset : BitVec 16) (s : State) : Result := loadInstr rt rs offset extractLw s
/-- SB (R620). -/
def execSb (rt rs : Reg) (offset : BitVec 16) (s : State) : Result := storeInstr rt rs offset mergeSb s
/-- SH (R621). -/
def execSh (rt rs : Reg) (offset : BitVec 16) (s : State) : Result := storeInstr rt rs offset mergeSh s
/-- SW (R622). -/
def execSw (rt rs : Reg) (offset : BitVec 16) (s : State) : Result := storeInstr rt rs offset mergeSw s

end Sys2Proof.Machine
end

