-- ==== Sys2Proof/Machine/MulDiv.lean ====
section
/-! DEFINITION. Multiply, divide and HI/LO with the stall controller (42_muldiv.md). HI and LO take a result in the Execute
block that sets the counter (R500, D13); only the four moves wait for the counter (R501, R502). -/

namespace Sys2Proof.Machine

/-- The core with HI, LO and the counter written by a multiply or divide (R500). -/
def writeHiLo (hi lo : Word) (latency : Nat) (core : CoreState) : CoreState :=
  { core with hi := hi, lo := lo, multiplierStall := latency }

/-- The exact signed product, 64 bits (R505). -/
def signedProduct (a b : Word) : BitVec 64 := a.signExtend 64 * b.signExtend 64

/-- The exact unsigned product, 64 bits (R506). -/
def unsignedProduct (a b : Word) : BitVec 64 := a.zeroExtend 64 * b.zeroExtend 64

/-- `p[63:32]`. -/
def highWord (p : BitVec 64) : Word := p.extractLsb' 32 32

/-- `p[31:0]`. -/
def lowWord (p : BitVec 64) : Word := p.extractLsb' 0 32

/-- DIV's HI and LO (R507): zero for a zero divisor (SRC §7), 0x80000000 and 0 for 0x80000000 by −1 (D6), else remainder and
quotient truncated toward zero (R13). -/
def signedDivide (a b : Word) : Word × Word :=
  if b = 0#32 then (0#32, 0#32)
  else if a = 0x80000000#32 ∧ b = 0xFFFFFFFF#32 then (0#32, 0x80000000#32)
  else (BitVec.ofInt 32 (a.toInt.tmod b.toInt), BitVec.ofInt 32 (a.toInt.tdiv b.toInt))

/-- DIVU's HI and LO (R508): zero for a zero divisor (SRC §7), else remainder and quotient. -/
def unsignedDivide (a b : Word) : Word × Word :=
  if b = 0#32 then (0#32, 0#32)
  else (BitVec.ofNat 32 (a.toNat % b.toNat), BitVec.ofNat 32 (a.toNat / b.toNat))

/-- An Execute block that writes HI and LO (`f a b` gives HI, then LO) and sets the counter. It never stalls (R502). -/
def executeHiLo (f : Word → Word → Word × Word) (latency : Nat) (core : CoreState) (op : Op) :
    Option (CoreState × Op) :=
  match f op.regSrc1Value op.regSrc2Value with
  | (hi, lo) => some (writeHiLo hi lo latency core, op)

/-- MULT, MULTU, DIV and DIVU: two sources, no destination (D4). -/
def mulDivInstr (rs rt : Reg) (f : Word → Word → Word × Word) (latency : Nat) (s : State) : Result :=
  registerInstr (decodeRegs (some rs) (some rt) none) (executeHiLo f latency) s

/-- MULT (R505). -/
def execMult (rs rt : Reg) (s : State) : Result :=
  mulDivInstr rs rt (fun a b => (highWord (signedProduct a b), lowWord (signedProduct a b))) multLatency s
/-- MULTU (R506). -/
def execMultu (rs rt : Reg) (s : State) : Result :=
  mulDivInstr rs rt (fun a b => (highWord (unsignedProduct a b), lowWord (unsignedProduct a b))) multLatency s
/-- DIV (R507). -/
def execDiv (rs rt : Reg) (s : State) : Result := mulDivInstr rs rt signedDivide divLatency s
/-- DIVU (R508). -/
def execDivu (rs rt : Reg) (s : State) : Result := mulDivInstr rs rt unsignedDivide divLatency s

/-- The HI/LO guard (R501): STALL while the counter is positive, else the block. -/
def hiLoGuard (block : CoreState → Op → CoreState × Op) (core : CoreState) (op : Op) : Option (CoreState × Op) :=
  if 0 < core.multiplierStall then none else some (block core op)

/-- MFHI (R509): `reg_dst_value <- HI` behind the guard; no source. -/
def execMfhi (rd : Reg) (s : State) : Result :=
  registerInstr (decodeRegs none none (some rd))
    (hiLoGuard fun core op => (core, { op with regDstValue := core.hi, regDstValueReady := true })) s
/-- MFLO (R510): `reg_dst_value <- LO` behind the guard; no source. -/
def execMflo (rd : Reg) (s : State) : Result :=
  registerInstr (decodeRegs none none (some rd))
    (hiLoGuard fun core op => (core, { op with regDstValue := core.lo, regDstValueReady := true })) s
/-- MTHI (R511): `HI <- a` behind the guard; the counter is not changed. -/
def execMthi (rs : Reg) (s : State) : Result :=
  registerInstr (decodeRegs (some rs) none none)
    (hiLoGuard fun core op => ({ core with hi := op.regSrc1Value }, op)) s
/-- MTLO (R512): `LO <- a` behind the guard; the counter is not changed. -/
def execMtlo (rs : Reg) (s : State) : Result :=
  registerInstr (decodeRegs (some rs) none none)
    (hiLoGuard fun core op => ({ core with lo := op.regSrc1Value }, op)) s

end Sys2Proof.Machine
end

