-- ==== Sys2Proof/Machine/Syscall.lean ====
section
/-! DEFINITION. SYSCALL and its services halt, print and spawn (45_syscall.md). The service runs at writeback (R651), on the
values of $2 and $3 resolved at execute (R653). It traps nowhere and flushes nothing (R650, R658). -/

namespace Sys2Proof.Machine

/-- One of the 16 lowercase hexadecimal digits. -/
def hexDigit (n : Nat) : Char := Nat.digitChar (n % 16)

/-- `hex8` (R655): exactly 8 lowercase hexadecimal digits, zero-padded. -/
def hex8 (v : Word) : String :=
  String.ofList ([7, 6, 5, 4, 3, 2, 1, 0].map fun k => hexDigit (v.toNat / 16 ^ k))

/-- A non-negative number in decimal without padding (R655, D38). -/
def decimal (n : Nat) : String := String.ofList (Nat.toDigits 10 n)

/-- The line the print service appends, without its line feed (R655). -/
def printLine (id : Nat) (v1 : Word) : String := "OUT (CPU " ++ decimal id ++ "): " ++ hex8 v1

/-- Halt (R654): `PC <- op.pc; running <- false`. The rest of the cycle still runs (D37). -/
def serviceHalt (c : Nat) (op : Op) (s : State) : State :=
  s.modifyCore c fun core => { core with pc := op.pc, running := false }

/-- Print (R655): one line on the output stream. -/
def servicePrint (id : Nat) (op : Op) (s : State) : State :=
  { s with output := s.output ++ [printLine id op.regSrc2Value] }

/-- Whether core `t` exists and is idle (R656, D21). -/
def idleTarget (s : State) (t : Nat) : Bool :=
  decide (t < s.cfg.numCores) && (s.cores[t]?).any fun core => !core.running

/-- What a spawn writes in the target core (R656): PC, register 3, `running`, and nothing else. -/
def spawnInto (op : Op) (core : CoreState) : CoreState :=
  { core with pc := op.pc + 4#32, regs := core.regs.write Reg.v1 1#32, running := true }

/-- Spawn of core `t` by core `c`, whose id is `id` (R656): the target starts at `op.pc + 4` with `$v1 = 1`, the own `$v1`
becomes 0; nothing if the target is the core itself, does not exist or is running. -/
def serviceSpawn (t c id : Nat) (op : Op) (s : State) : State :=
  if t ≠ id ∧ idleTarget s t = true then
    (s.modifyCore t (spawnInto op)).modifyCore c fun core => { core with regs := core.regs.write Reg.v1 0#32 }
  else s

/-- `handle_syscall(op)` (R652, R657): by the full 32-bit value of `v0`. -/
def handleSyscall (c : Nat) (op : Op) (s : State) : State :=
  match s.cores[c]? with
  | none => s
  | some core =>
    let v0 := op.regSrc1Value
    if v0 = haltCode then serviceHalt c op s
    else if v0 = printCode then servicePrint core.id op s
    else if v0 ∈ spawnCodes then serviceSpawn v0.toNat c core.id op s
    else s

/-- SYSCALL (R650): sources $2 and $3, no destination, nothing in execute and mem, the service at writeback. -/
def execSyscall (s : State) : Result :=
  stageCall (decodeRegs (some Reg.v0) (some Reg.v1) none) executeNothing noExtract noMerge handleSyscall s

end Sys2Proof.Machine
end

