-- ==== Sys2Proof/Machine/Dram.lean ====
section
/-! DEFINITION. The DRAM timing model of 20_memory.md section 5 (R260–R265). -/

namespace Sys2Proof.Machine

/-- `enqueue(is_write, addr, core_id, source)` at cycle `t` (R262); `none` is the rejection. -/
def dramEnqueue (cfg : Config) (t : Nat) (isWrite : Bool) (addr : Word) (coreId : Nat) (source : DramSource) (d : Dram) :
    Option Dram :=
  if d.queue.length < cfg.dramReqQueueSize then
    some { d with
      queue := d.queue ++
        [{ isWrite := isWrite, addr := addr, coreId := coreId, source := source, arrivalCycle := t,
           loc := dramMapAt cfg addr, dispatched := false, dataEnd := 0 }] }
  else none

/-- A DRAM command (R264). -/
inductive DramCommand
  | pre | act | rdwr
  deriving DecidableEq, Repr

/-- `CMD(c)`: the cycles a command keeps the command bus (R264). -/
def cmdBusCycles (cfg : Config) : DramCommand → Nat
  | .pre => cfg.dramPreCmdBusBusy
  | .act => cfg.dramActCmdBusBusy
  | .rdwr => cfg.dramRdwrCmdBusBusy

/-- `BANK(c)`: the cycles a command keeps the bank (R264). -/
def bankCycles (cfg : Config) : DramCommand → Nat
  | .pre => cfg.dramPreBankBusy
  | .act => cfg.dramActBankBusy
  | .rdwr => cfg.dramRdwrBankBusy

/-- `command_sequence(d)` (R264): by page policy and the bank's open row. -/
def commandSequence (cfg : Config) (openRow : Option Nat) (row : Nat) : List DramCommand :=
  match cfg.dramPagePolicy with
  | .openRow => if openRow = some row then [.rdwr] else [.pre, .act, .rdwr]
  | .closedRow => [.act, .rdwr, .pre]

/-- The commands up to and including RDWR (R263, `rw_issue_end`). -/
def throughRdwr : List DramCommand → List DramCommand
  | [] => []
  | c :: rest => if c = .rdwr then [c] else c :: throughRdwr rest

/-- Where a bank stands in `Dram.banks`. -/
def bankIndex (cfg : Config) (l : DramLoc) : Nat := (l.channel * cfg.dramRanks + l.rank) * cfg.dramBanks + l.bank

/-- The bank of a request. -/
def bankOf (cfg : Config) (d : Dram) (l : DramLoc) : Bank :=
  (d.banks[bankIndex cfg l]?).getD { openRow := none, busyUntil := 0 }

/-- The buses of a request's channel. -/
def channelOf (d : Dram) (l : DramLoc) : Channel :=
  (d.channels[l.channel]?).getD { cmdFreeAt := 0, dataFreeAt := 0 }

/-- The completion half of `execute(t)` (R263): the first request in queue order that is dispatched and whose data phase has
ended leaves the queue. -/
def dramComplete (t : Nat) (d : Dram) : Option DramRequest × Dram :=
  match d.queue.findIdx? (fun e => e.dispatched && decide (e.dataEnd ≤ t)) with
  | some k => (d.queue[k]?, { d with queue := d.queue.eraseIdx k })
  | none => (none, d)

/-- Whether a request can be dispatched at `t` (R263): undispatched, its bank and its channel's command bus free. -/
def dispatchable (cfg : Config) (t : Nat) (d : Dram) (e : DramRequest) : Bool :=
  !e.dispatched && decide ((bankOf cfg d e.loc).busyUntil ≤ t) && decide ((channelOf d e.loc).cmdFreeAt ≤ t)

/-- `d.data_end` of a request dispatched at `t` (R263). -/
def dispatchDataEnd (cfg : Config) (t : Nat) (d : Dram) (l : DramLoc) : Nat :=
  let cmds := commandSequence cfg (bankOf cfg d l).openRow l.row
  let rwIssueEnd := t + ((throughRdwr cmds).map (cmdBusCycles cfg)).sum
  max rwIssueEnd (channelOf d l).dataFreeAt + cfg.dramRdwrDataBusBusy

/-- The dispatch of the request at place `k` of the queue, at `t` (R263). -/
def dispatchAt (cfg : Config) (t : Nat) (d : Dram) (k : Nat) (l : DramLoc) : Dram :=
  let cmds := commandSequence cfg (bankOf cfg d l).openRow l.row
  let dataEnd := dispatchDataEnd cfg t d l
  { banks := d.banks.modify (bankIndex cfg l) fun _ =>
      { openRow := match cfg.dramPagePolicy with
          | .openRow => some l.row
          | .closedRow => none
        busyUntil := t + (cmds.map (bankCycles cfg)).sum }
    channels := d.channels.modify l.channel fun _ =>
      { cmdFreeAt := t + (cmds.map (cmdBusCycles cfg)).sum, dataFreeAt := dataEnd }
    queue := d.queue.modify k fun e => { e with dispatched := true, dataEnd := dataEnd } }

/-- The dispatch half of `execute(t)` (R263): the first dispatchable request in queue order, if any. -/
def dramDispatch (cfg : Config) (t : Nat) (d : Dram) : Dram :=
  match d.queue.findIdx? (dispatchable cfg t d) with
  | some k =>
    match d.queue[k]? with
    | some e => dispatchAt cfg t d k e.loc
    | none => d
  | none => d

/-- `execute(t)` (R263): at most one completion, then at most one dispatch. -/
def dramExecute (cfg : Config) (t : Nat) (d : Dram) : Option DramRequest × Dram :=
  match dramComplete t d with
  | (done, d) => (done, dramDispatch cfg t d)

end Sys2Proof.Machine
end

