-- ==== Sys2Proof/Machine/Unknown.lean ====
section
/-! DEFINITION. The do-nothing op of an unknown encoding (R320, D3). -/

namespace Sys2Proof.Machine

/-- An unknown word (R320): no source, no destination, no memory access, no branch; it passes through every stage, and is
counted like any other op. The fields of R304 are extracted all the same (R407). -/
def execUnknown (s : State) : Result :=
  registerInstr (decodeRegs none none none) executeNothing s

end Sys2Proof.Machine
end

