-- ==== Sys2Proof/Machine/Processor.lean ====
section
/-! DEFINITION. The processor cycle (60_exceptions.md section 11): one stage call runs the instruction its op decodes to, one
pipeline cycle makes the stage calls in reverse order (R401), one processor cycle runs the DRAM, the L2 and then every
running core in ascending id (R740–R742). -/

namespace Sys2Proof.Machine

/-! ## One stage call -/

/-- The op a stage works on: the one in its input slot (R119). -/
def slotOf (stage : Stage) (core : CoreState) : Option Op :=
  match stage with
  | .decode => core.decodeOp
  | .execute => core.executeOp
  | .mem => core.memOp
  | .wb => core.wbOp

/-- Runs the instruction a word encodes, in the stage call in focus; an unknown word does nothing (R320). -/
def runWord (w : Word) (s : State) : Result :=
  match decode w with
  | .ok i => exec i s
  | .error _ => execUnknown s

/-- One stage call on core `c`: with an empty slot the stage does nothing (R406, R411, R416, R420), else the op's instruction
runs. -/
def callStage (c : Nat) (stage : Stage) (s : State) : Result :=
  match (s.cores[c]?).bind (slotOf stage) with
  | none => .next s
  | some op => runWord op.instruction (s.focusOn c stage)

/-- `stage_execute()` (R410–R415): the counter is decremented in every pipeline cycle, whatever execute then does. -/
def callExecute (c : Nat) (s : State) : Result :=
  callStage c .execute (s.modifyCore c decrementMultiplier)

/-! ## One pipeline cycle, one core tick -/

/-- `pipeline.cycle()` of core `c` (R401): the stages in reverse order, then the pending recovery. -/
def pipelineCycle (c : Nat) (s : State) : Result :=
  andThen (callStage c .wb s) fun s =>
  andThen (callStage c .mem s) fun s =>
  andThen (callExecute c s) fun s =>
  andThen (callStage c .decode s) fun s =>
  .next ((fetchStage c s).modifyCore c applyRecoveryCore)

/-- `Core.cycle()` (R741): an idle core does not tick; `running` is read once, on entry. -/
def tickCore (c : Nat) (s : State) : Result :=
  match s.cores[c]? with
  | none => .next s
  | some core => if core.running then pipelineCycle c s else .next s

/-- Ticks the listed cores one after the other (R740 step 3). -/
def tickCores : List Nat → State → Result
  | [], s => .next s
  | c :: rest, s => andThen (tickCore c s) (tickCores rest)

/-! ## DRAM and L2 in the processor cycle -/

/-- Step 1 of the processor cycle (R740): `DRAM.execute(t)` and, if it completed a request, `handle_dram_completion`. -/
def dramPhase (s : State) : State :=
  match dramExecute s.cfg s.cycles s.dram with
  | (some r, dram) => { s with dram := dram, l2 := l2HandleCompletion s.cfg s.cycles r.addr s.l2 }
  | (none, dram) => { s with dram := dram }

/-- The request path of `L2.cycle` (R243): in insertion order, up to the first item that is not ready or that DRAM rejects.
Answers the items that stay and the DRAM. -/
def drainRequests (cfg : Config) (t : Nat) : List ReqItem → Dram → List ReqItem × Dram
  | [], d => ([], d)
  | q :: rest, d =>
    if t < q.readyCycle then (q :: rest, d)
    else match dramEnqueue cfg t q.isWrite q.addr q.coreId .memory d with
      | none => (q :: rest, d)
      | some d => drainRequests cfg t rest d

/-- Fills both L1s of a core with a returned block (R243, R224). -/
def fillCore (addr : Word) (core : CoreState) : CoreState :=
  { core with icache := l1Fill addr core.icache, dcache := l1Fill addr core.dcache }

/-- Fills every requester, in the given order (R243). -/
def fillRequesters (addr : Word) (requesters : List Nat) (cores : List CoreState) : List CoreState :=
  requesters.foldl (fun cs c => cs.modify c (fillCore addr)) cores

/-- One returned item (R243): the block is installed in the L2, every requester is filled, the MSHR is freed; an item with no
matching MSHR changes nothing (D33). -/
def deliver (s : State) (r : RetItem) : State :=
  match findMshr s.l2.mshrs (blockAddr r.addr) with
  | none => s
  | some k =>
    let requesters := match s.l2.mshrs[k]? with
      | some m => m.requesters
      | none => []
    { s with
      l2 := { s.l2 with
        sets := install s.l2.sets r.addr
        mshrs := s.l2.mshrs.modify k fun m => { m with valid := false } }
      cores := fillRequesters r.addr requesters s.cores }

/-- Step 2 of the processor cycle, `L2.cycle(t, cores)` (R243): the request path, then every ready item of the return path in
insertion order. -/
def l2Phase (s : State) : State :=
  match drainRequests s.cfg s.cycles s.l2.reqQueue s.dram with
  | (reqQueue, dram) =>
    let ready := s.l2.retQueue.filter fun r => decide (r.readyCycle ≤ s.cycles)
    let waiting := s.l2.retQueue.filter fun r => !decide (r.readyCycle ≤ s.cycles)
    ready.foldl deliver { s with dram := dram, l2 := { s.l2 with reqQueue := reqQueue, retQueue := waiting } }

/-! ## The processor cycle -/

/-- The end of the cycle (R740, R134): it is counted; the focus goes back to its idle value. -/
def countCycle (s : State) : State := { s with cycles := s.cycles + 1, focus := Focus.idle }

/-- `Processor.cycle()` (R740): "the one step of the whole machine". `stat_cycles` does not change before its end, so every
part of the cycle sees the same `t`. -/
def processorCycle (s : State) : Result :=
  andThen (tickCores (List.range s.cfg.numCores) (l2Phase (dramPhase s))) fun s => .next (countCycle s)

/-- `active_cores_count()` (R743). -/
def activeCoresCount (s : State) : Nat := s.cores.countP fun core => core.running

/-! ## Placing one instruction for the next cycle -/

/-- The lowest-numbered running core, core 0 if none runs (log 5). -/
def nextCore (s : State) : Nat := (s.cores.findIdx? fun core => core.running).getD 0

/-- A core just after the fetch of `w` at its PC, with nothing else in its slots (R404; log 5). -/
def freshlyFetched (w : Word) (core : CoreState) : CoreState :=
  fetchInto w { core with running := true, decodeOp := none, executeOp := none, memOp := none, wbOp := none }

/-- Puts the instruction word `w` where the next cycle executes it: in memory at the PC of the lowest running core, and in
that core's pipeline as the op its fetch and decode make of it, so that the next cycle's execute stage runs it (log 5). -/
def placeWord (w : Word) (s : State) : State :=
  let c := nextCore s
  let mem := match s.cores[c]? with
    | some core => memWrite32 s.cfg s.mem core.pc w
    | none => s.mem
  let s := { s with mem := mem }.modifyCore c (freshlyFetched w)
  match callStage c .decode s with
  | .next s' => { s' with focus := s.focus }
  | _ => s

end Sys2Proof.Machine
end

