-- ==== Sys2Proof/Machine/Step.lean ====
section
/-! DEFINITION. The step: one processor cycle (R740), for the configurations the spec defines (R11). -/

namespace Sys2Proof.Machine

/-- One step of the machine. A configuration R10 does not admit is refused, not given a meaning (R11, R703). -/
def step (s : State) : Host.Outcome State Fault Refusal :=
  if configAdmitted s.cfg then processorCycle s else .refused .configurationNotAdmitted

/-- `s` with the instruction whose `nbits` low bits are those of `w`, and whose other bits are 0, placed so that the next step
executes it (log 5). -/
def State.withFetchWord (s : State) (nbits w : Nat) : State :=
  placeWord (BitVec.ofNat 32 (w % 2 ^ nbits)) s

end Sys2Proof.Machine
end

