-- ==== Sys2Proof/Machine/HostInterface.lean ====
section
/-! DEFINITION. What the host does before and between cycles (R746): the launch with its image (R800, R802, R804), `go` and
`run N` (R745), and the inspections `rdump` and `mdump` (R731). It has no other move, and none inside a cycle. -/

namespace Sys2Proof.Machine

/-! ## The launch -/

/-- A program image: records of an address and a data word, in file order (R802). -/
abbrev Image := List (Word × Word)

/-- The loader (R802): `mem_write_32(A, D)` for each record in file order. -/
def loadImage (cfg : Config) (img : Image) (m : Memory) : Memory :=
  img.foldl (fun m r => memWrite32 cfg m r.1 r.2) m

/-- `image_mapped(img)` (R804): every word of the image lies in MAPPED. -/
def imageMapped (cfg : Config) (img : Image) : Bool := img.all fun r => isMapped cfg r.1

/-- A launch (R800): the parameters are checked, every piece of state takes its reset value, the image is loaded. What the
spec does not define is refused here (R703, R804). -/
def launch (cfg : Config) (img : Image) : Result :=
  if !configAdmitted cfg then .refused .configurationNotAdmitted
  else if !imageMapped cfg img then .refused .imageOutsideMapped
  else .next { State.resetWith cfg with mem := loadImage cfg img [] }

/-- The digit a character of an image stands for: the one that `hexDigit` writes so, or writes so in lower case (log 14). -/
def hexDigitValue (c : Char) : Option Nat := (List.range 16).find? fun d => hexDigit d == c.toLower

/-- A word of exactly 8 hexadecimal digits, the most significant first (R802). -/
def hexWord (cs : List Char) : Option Word :=
  if cs.length = 8 then
    (cs.mapM hexDigitValue).map fun digits => BitVec.ofNat 32 (digits.foldl (fun n d => n * 16 + d) 0)
  else none

/-- One record `AAAAAAAA DDDDDDDD`, without its line feed (R802). -/
def parseRecord (cs : List Char) : Option (Word × Word) :=
  match hexWord (cs.take 8), cs[8]?, hexWord (cs.drop 9) with
  | some a, some ' ', some d => some (a, d)
  | _, _, _ => none

/-- The lines of a text, each ended by a line feed; `line` is the line read so far, last character first. -/
def linesFrom : List Char → List Char → Option (List (List Char))
  | line, [] => if line.isEmpty then some [] else none
  | line, c :: rest =>
    if c = '\n' then (linesFrom [] rest).map (line.reverse :: ·) else linesFrom (c :: line) rest

/-- The records of an image text (R802). -/
def parseImage (text : String) : Option Image :=
  match linesFrom [] text.toList with
  | some lines => lines.mapM parseRecord
  | none => none

/-- A launch from the image's text (R802); a text of another form is refused. -/
def launchText (cfg : Config) (text : String) : Result :=
  match parseImage text with
  | some img => launch cfg img
  | none => .refused .imageMalformed

/-! ## Running -/

/-- `run N` (R746): N cycles, whether or not a core runs. -/
def runCycles : Nat → State → Result
  | 0, s => .next s
  | n + 1, s => andThen (step s) (runCycles n)

/-- `go` (R745), for at most `fuel` cycles: it stops at the first cycle boundary at which no core runs. -/
def goWithin : Nat → State → Result
  | 0, s => .next s
  | fuel + 1, s => if activeCoresCount s = 0 then .next s else andThen (step s) (goWithin fuel)

/-- `go` ends in `t` (R745): after some number of cycles, at the first boundary at which no core runs. A run that never gets
there hangs, and `go` does not return (R747, log 15). -/
def GoEnds (s t : State) : Prop :=
  ∃ n, runCycles n s = .next t ∧ activeCoresCount t = 0 ∧
    ∀ k, k < n → ∃ u, runCycles k s = .next u ∧ activeCoresCount u ≠ 0

/-! ## Inspections -/

/-- What `rdump` shows of one core: the register file and the counters (R731). That HI, LO and PC stand beside them is the
model's choice (DESIGN CHOICE, log 21): R731 does not say whether they are shown. -/
structure CoreDump where
  id : Nat
  regs : List Word
  hi : Word
  lo : Word
  pc : Word
  fetched : Nat
  retired : Nat
  squashed : Nat
  deriving DecidableEq, Repr

/-- `rdump` (R731): registers, counters and cycles. It changes nothing. That it shows every core, in ascending order, and HI, LO
and PC with its registers, is the model's choice (DESIGN CHOICE, log 21). -/
def rdump (s : State) : List CoreDump × Nat :=
  (s.cores.map fun core =>
    { id := core.id, regs := (List.range 32).map fun r => core.regs.read (BitVec.ofNat 5 r), hi := core.hi, lo := core.lo,
      pc := core.pc, fetched := core.fetched, retired := core.retired, squashed := core.squashed },
   s.cycles)

/-- `mdump LOW HIGH` (R731): it reads functional memory and changes nothing. The range is the model's choice (DESIGN CHOICE,
log 22): the aligned words from the one that holds LOW to the one that holds HIGH, that one included, and nothing where HIGH's
word lies below LOW's. -/
def mdump (s : State) (low high : Word) : List (Word × Word) :=
  let first := (alignWord low).toNat / 4
  let last := (alignWord high).toNat / 4
  (List.range (last + 1 - first)).map fun k =>
    let a := BitVec.ofNat 32 (4 * (first + k))
    (a, memRead32 s.cfg s.mem a)

/-- The diagnostic output as one text: each line ends in one line feed (R655, D38). -/
def outputText (s : State) : String := String.join (s.output.map fun line => line ++ "\n")

end Sys2Proof.Machine
end

