-- ==== Sys2Proof/Safety.lean ====
section
/-! DEFINITION. The terms claims use: where a stage call stands, the value a source has in program order, an instruction
passing alone through the stages, and the invariants a run keeps (R101, R113, R114, R119, R217, R247, R262, R402, R413). -/

namespace Sys2Proof.Machine

/-! ## Stage calls and values -/

/-- `s` is in a call of `stage` on core `c`, whose state is `core`. -/
abbrev InStage (s : State) (c : Nat) (stage : Stage) (core : CoreState) : Prop :=
  s.focus = { core := c, stage := stage } ∧ s.cores[c]? = some core

/-- The register file once the op in the wb slot has been committed: what program order has written before the op in
execute (R413). -/
def committedRegs (core : CoreState) : RegFile :=
  match core.wbOp with
  | some op => core.regs.commit op.regDst op.regDstValue
  | none => core.regs

/-- The program-order value of a source of the op in execute (R413): register 0 is 0. -/
def sourceValue (core : CoreState) (r : Reg) : Word := (committedRegs core).read r

/-- An instruction passing alone through a core: its four stage calls one after the other (R450). -/
def lonePassage (i : Instr) (c : Nat) (s : State) : Result :=
  andThen (exec i (s.focusOn c .decode)) fun s =>
  andThen (exec i (s.focusOn c .execute)) fun s =>
  andThen (exec i (s.focusOn c .mem)) fun s =>
  exec i (s.focusOn c .wb)

/-- The op just fetched from `pc` is the only one in the core's slots, no recovery is pending and the counter is 0. -/
abbrev FreshlyFetchedAlone (core : CoreState) (pc w : Word) : Prop :=
  core.decodeOp = some (Op.fresh pc w) ∧ core.executeOp = none ∧ core.memOp = none ∧ core.wbOp = none ∧
    core.branchRecover = BranchRecover.clear ∧ core.multiplierStall = 0

/-! ## An instruction's blocks, stage by stage (R450) -/

/-- In a decode call with an op and an empty execute slot, `exec i` answers the state in which that op, its fields extracted
and then changed by `settings`, has moved to the execute slot, and nothing else has changed (R407). -/
def DecodesTo (i : Instr) (settings : Op → Op) : Prop :=
  ∀ (s : State) (c : Nat) (core : CoreState) (op : Op),
    InStage s c .decode core → core.decodeOp = some op → core.executeOp = none →
      exec i s = .next (s.setCore c { core with decodeOp := none, executeOp := some (settings (extractFields op)) })

/-- In an execute call with an op that meets `given` and an empty mem slot, `exec i` answers the state in which the core is
`effect` of it, and nothing else has changed (R412, R414, R415). -/
def ExecutesTo (i : Instr) (given : CoreState → Op → Prop) (effect : CoreState → Op → CoreState) : Prop :=
  ∀ (s : State) (c : Nat) (core : CoreState) (op : Op),
    InStage s c .execute core → core.executeOp = some op → core.memOp = none → given core op →
      exec i s = .next (s.setCore c (effect core op))

/-- In a mem call with an op that accesses no memory, `exec i` answers the state in which the op has moved to the wb slot, and
nothing else has changed (R416). -/
def PassesMem (i : Instr) : Prop :=
  ∀ (s : State) (c : Nat) (core : CoreState) (op : Op),
    InStage s c .mem core → core.memOp = some op → op.isMem = false →
      exec i s = .next (s.setCore c { core with memOp := none, wbOp := some op })

/-- In a wb call with an op, `exec i` answers the state in which the op's destination has its value, the slot is empty and the
op is counted, and nothing else has changed (R420). -/
def Retires (i : Instr) : Prop :=
  ∀ (s : State) (c : Nat) (core : CoreState) (op : Op),
    InStage s c .wb core → core.wbOp = some op →
      exec i s = .next (s.setCore c
        { core with
          regs := core.regs.commit op.regDst op.regDstValue
          wbOp := none
          retired := core.retired + 1 })

/-- The execute stage of core `c`, called once in each of `k` cycles. -/
def executeCalls (c : Nat) : Nat → State → Result
  | 0, s => .next s
  | k + 1, s => andThen (callExecute c s) (executeCalls c k)

/-! ## What an instruction is, read from its syntax (R103, R602, D4) -/

/-- The register an instruction names as its destination; register 0 discards the write. -/
def destOf : Instr → Option Reg
  | .add rd _ _ | .addu rd _ _ | .sub rd _ _ | .subu rd _ _ | .and rd _ _ | .or rd _ _ | .xor rd _ _ | .nor rd _ _
  | .slt rd _ _ | .sltu rd _ _ => some rd
  | .addi rt _ _ | .addiu rt _ _ | .slti rt _ _ | .sltiu rt _ _ | .andi rt _ _ | .ori rt _ _ | .xori rt _ _
  | .lui rt _ => some rt
  | .sll rd _ _ | .srl rd _ _ | .sra rd _ _ | .sllv rd _ _ | .srlv rd _ _ | .srav rd _ _ => some rd
  | .mfhi rd | .mflo rd => some rd
  | .bltzal .. | .bgezal .. | .jal .. => some Reg.ra
  | .jalr rd _ => some rd
  | .lb rt _ _ | .lbu rt _ _ | .lh rt _ _ | .lhu rt _ _ | .lw rt _ _ => some rt
  | .mult .. | .multu .. | .div .. | .divu .. | .mthi .. | .mtlo .. => none
  | .beq .. | .bne .. | .blez .. | .bgtz .. | .bltz .. | .bgez .. | .j .. | .jr .. => none
  | .sb .. | .sh .. | .sw .. | .syscall => none

/-- A load or a store. -/
def isMemInstr : Instr → Bool
  | .lb .. | .lbu .. | .lh .. | .lhu .. | .lw .. | .sb .. | .sh .. | .sw .. => true
  | .add .. | .addu .. | .sub .. | .subu .. | .and .. | .or .. | .xor .. | .nor .. | .slt .. | .sltu .. => false
  | .addi .. | .addiu .. | .slti .. | .sltiu .. | .andi .. | .ori .. | .xori .. | .lui .. => false
  | .sll .. | .srl .. | .sra .. | .sllv .. | .srlv .. | .srav .. => false
  | .mult .. | .multu .. | .div .. | .divu .. | .mfhi .. | .mflo .. | .mthi .. | .mtlo .. => false
  | .beq .. | .bne .. | .blez .. | .bgtz .. | .bltz .. | .bgez .. | .bltzal .. | .bgezal .. => false
  | .j .. | .jal .. | .jalr .. | .jr .. | .syscall => false

/-- A store. -/
def isStoreInstr : Instr → Bool
  | .sb .. | .sh .. | .sw .. => true
  | .lb .. | .lbu .. | .lh .. | .lhu .. | .lw .. => false
  | .add .. | .addu .. | .sub .. | .subu .. | .and .. | .or .. | .xor .. | .nor .. | .slt .. | .sltu .. => false
  | .addi .. | .addiu .. | .slti .. | .sltiu .. | .andi .. | .ori .. | .xori .. | .lui .. => false
  | .sll .. | .srl .. | .sra .. | .sllv .. | .srlv .. | .srav .. => false
  | .mult .. | .multu .. | .div .. | .divu .. | .mfhi .. | .mflo .. | .mthi .. | .mtlo .. => false
  | .beq .. | .bne .. | .blez .. | .bgtz .. | .bltz .. | .bgez .. | .bltzal .. | .bgezal .. => false
  | .j .. | .jal .. | .jalr .. | .jr .. | .syscall => false

/-- The destination of the instruction a word encodes; an unknown word has none (R320). -/
def destOfWord (w : Word) : Option Reg :=
  match decode w with
  | .ok i => destOf i
  | .error _ => none

/-- A branch or jump that links: its destination's value is ready from decode on (R409, R557–R560). -/
def isLinkInstr : Instr → Bool
  | .bltzal .. | .bgezal .. | .jal .. | .jalr .. => true
  | .add .. | .addu .. | .sub .. | .subu .. | .and .. | .or .. | .xor .. | .nor .. | .slt .. | .sltu .. => false
  | .addi .. | .addiu .. | .slti .. | .sltiu .. | .andi .. | .ori .. | .xori .. | .lui .. => false
  | .sll .. | .srl .. | .sra .. | .sllv .. | .srlv .. | .srav .. => false
  | .mult .. | .multu .. | .div .. | .divu .. | .mfhi .. | .mflo .. | .mthi .. | .mtlo .. => false
  | .beq .. | .bne .. | .blez .. | .bgtz .. | .bltz .. | .bgez .. | .j .. | .jr .. => false
  | .lb .. | .lbu .. | .lh .. | .lhu .. | .lw .. | .sb .. | .sh .. | .sw .. | .syscall => false

/-- Whether a word encodes a load or a store. -/
def isMemWord (w : Word) : Bool :=
  match decode w with
  | .ok i => isMemInstr i
  | .error _ => false

/-- Whether a word encodes a store. -/
def isStoreWord (w : Word) : Bool :=
  match decode w with
  | .ok i => isStoreInstr i
  | .error _ => false

/-- Whether a word encodes a branch or jump that links. -/
def isLinkWord (w : Word) : Bool :=
  match decode w with
  | .ok i => isLinkInstr i
  | .error _ => false

/-! ## What a cache hit leaves -/

/-- `sets'` is `sets` after a hit of `addr` on way `w` (R213; R223 step 3, R242 step 1): way `w` of the address's set holds the
tag and is valid; its counter becomes 0 and, by a write, it becomes dirty and MODIFIED; each other valid way whose counter was
below its old one ages by one; every other way and every other set is as before. -/
def HitLeaves (addr : Word) (w : Nat) (isWrite : Bool) (sets sets' : CacheSets) : Prop :=
  ∃ (ways ways' : CacheSet) (hit : CacheBlock),
    sets[setIndex sets addr]? = some ways ∧ ways[w]? = some hit ∧ hit.state ≠ .invalid ∧ hit.tag = tagOf sets addr ∧
    sets' = sets.set (setIndex sets addr) ways' ∧ ways'.length = ways.length ∧
    ways'[w]? = some (if isWrite then { hit with lru := 0, dirty := true, state := .modified } else { hit with lru := 0 }) ∧
    ∀ (v : Nat) (b : CacheBlock), v ≠ w → ways[v]? = some b →
      ways'[v]? = some (if b.state ≠ .invalid ∧ b.lru < hit.lru then { b with lru := b.lru + 1 } else b)

/-! ## Invariants of one core -/

/-- How many of the listed slots hold an op. -/
def occupied (slots : List (Option Op)) : Nat := slots.countP Option.isSome

/-- Register 0 holds 0 (R101), the counter is in its range (R113), no recovery is pending between cycles (R114), and the core
stands at the place of its id (R116). -/
structure CoreBasics (k : Nat) (core : CoreState) : Prop where
  regZero : core.regs[0] = 0#32
  stallRange : core.multiplierStall ≤ 32
  noRecovery : core.branchRecover = BranchRecover.clear
  idIsPlace : core.id = k

/-- `retired ≤ fetched` and `squashed ≤ fetched` (R117, R402), with what makes them inductive: every op in a slot has been
fetched and not retired, and every recovery's branch has gone past execute. -/
structure CounterBounds (core : CoreState) : Prop where
  noRecovery : core.branchRecover = BranchRecover.clear
  retiredBound :
    core.retired + occupied [core.decodeOp, core.executeOp, core.memOp, core.wbOp] ≤ core.fetched
  squashedBound : core.squashed ≤ core.retired + occupied [core.memOp, core.wbOp]

/-- The op in a slot, if any, has the property. -/
def SlotAll (P : Op → Prop) (slot : Option Op) : Prop := ∀ op, slot = some op → P op

/-- An op past decode has its word's destination and memory flags, and its link value is ready if it links (R407, R409). -/
structure OpDecoded (op : Op) : Prop where
  dst : op.regDst = destOfWord op.instruction
  mem : op.isMem = isMemWord op.instruction
  store : op.memWrite = isStoreWord op.instruction
  link : isLinkWord op.instruction = true → op.regDstValueReady = true

/-- An op past execute has its destination value ready, unless it is a load (R413). -/
def OpExecuted (op : Op) : Prop :=
  OpDecoded op ∧ (op.regDst ≠ none → op.regDstValueReady = true ∨ (op.isMem = true ∧ op.memWrite = false))

/-- An op past mem has its destination value ready (R413). -/
def OpReady (op : Op) : Prop := OpDecoded op ∧ (op.regDst ≠ none → op.regDstValueReady = true)

/-- What each slot holds: decode an op as fetched, execute a decoded op, mem an executed one, wb one whose value is ready. -/
structure SlotsInOrder (core : CoreState) : Prop where
  decodeFresh : SlotAll (fun op => op = Op.fresh op.pc op.instruction) core.decodeOp
  executeDecoded : SlotAll OpDecoded core.executeOp
  memExecuted : SlotAll OpExecuted core.memOp
  wbReady : SlotAll OpReady core.wbOp

/-! ## Invariants of the memory system -/

/-- The valid blocks of a set. -/
def validBlocks (ways : CacheSet) : List CacheBlock := ways.filter blockValid

/-- R217 for one set: the LRU counters of the valid blocks are a permutation of 0..v−1, dirty blocks are valid, no block is
SHARED (R216), and no two valid blocks have one tag (R212). -/
structure SetInv (ways : CacheSet) : Prop where
  lruPerm : ((validBlocks ways).map (·.lru)).Perm (List.range (validBlocks ways).length)
  dirtyValid : ∀ b ∈ ways, b.dirty = true → b.state ≠ .invalid
  neverShared : ∀ b ∈ ways, b.state ≠ .shared
  tagsDistinct : ((validBlocks ways).map (·.tag)).Nodup

/-- R217 for a cache. -/
def CacheInv (sets : CacheSets) : Prop := ∀ ways ∈ sets, SetInv ways

/-- An L1's array keeps R217, and the block of a pending miss is not in it (R212, R223). -/
structure L1Inv (l1 : L1) : Prop where
  cache : CacheInv l1.sets
  pendingAbsent : l1.pendingMiss = true → probe l1.sets l1.pendingMissAddr = none

/-- The block addresses of the valid MSHRs. -/
def validMshrAddrs (mshrs : List Mshr) : List Word := (mshrs.filter (·.valid)).map (·.addr)

/-- The L2's array keeps R217, at most one valid MSHR has a block (R247), and a block with a valid MSHR is not in the L2. -/
structure L2Inv (l2 : L2) : Prop where
  cache : CacheInv l2.sets
  mshrsDistinct : (validMshrAddrs l2.mshrs).Nodup
  missAbsent : ∀ m ∈ l2.mshrs, m.valid = true → probe l2.sets m.addr = none
  mshrsAligned : ∀ m ∈ l2.mshrs, m.valid = true → blockAddr m.addr = m.addr

/-- R217, R212 and R247 for every cache of the machine. -/
structure CachesInv (s : State) : Prop where
  l1s : ∀ core ∈ s.cores, L1Inv core.icache ∧ L1Inv core.dcache
  l2 : L2Inv s.l2

/-- The blocks asked of DRAM and not yet delivered, wherever the request is. -/
def inFlightAddrs (s : State) : List Word :=
  s.l2.reqQueue.map (·.addr) ++ s.dram.queue.map (·.addr) ++ s.l2.retQueue.map (·.addr)

/-- Every valid MSHR has exactly one request in flight, and nothing else is in flight (R242, R246); so `req_queue` and the
DRAM queue are bounded by the MSHR pool (R241), the DRAM queue by its own size (R262), and no request is a writeback
(R265). -/
structure RequestsMatchMshrs (s : State) : Prop where
  inFlight : (inFlightAddrs s).Perm (validMshrAddrs s.l2.mshrs)
  distinct : (validMshrAddrs s.l2.mshrs).Nodup
  aligned : ∀ m ∈ s.l2.mshrs, m.valid = true → blockAddr m.addr = m.addr
  queueBound : s.dram.queue.length ≤ s.cfg.dramReqQueueSize
  neverWriteback : ∀ r ∈ s.dram.queue, r.source = .memory

/-- An L1 that waits for the L2 is a requester of a valid MSHR of its block (R222, R246). -/
def L1Awaited (mshrs : List Mshr) (id : Nat) (l1 : L1) : Prop :=
  l1.pendingMiss = true → l1.pendingMissReady = none →
    ∃ m ∈ mshrs, m.valid = true ∧ m.addr = blockAddr l1.pendingMissAddr ∧ id ∈ m.requesters

/-- No L1 waits for a block nobody will deliver (R747 "No L1 waits forever", C8). -/
structure WaitersAreServed (s : State) : Prop where
  places : ∀ (k : Nat) (core : CoreState), s.cores[k]? = some core → core.id = k
  distinct : (validMshrAddrs s.l2.mshrs).Nodup
  aligned : ∀ m ∈ s.l2.mshrs, m.valid = true → blockAddr m.addr = m.addr
  icaches : ∀ core ∈ s.cores, L1Awaited s.l2.mshrs core.id core.icache
  dcaches : ∀ core ∈ s.cores, L1Awaited s.l2.mshrs core.id core.dcache

/-- Every array has the size the parameters give it (R10, R210, R240, R260). -/
structure ShapeInv (s : State) : Prop where
  cores : s.cores.length = s.cfg.numCores
  icaches : ∀ core ∈ s.cores, core.icache.sets.length = s.cfg.l1iSets ∧
    ∀ ways ∈ core.icache.sets, ways.length = s.cfg.l1iAssoc
  dcaches : ∀ core ∈ s.cores, core.dcache.sets.length = s.cfg.l1dSets ∧
    ∀ ways ∈ core.dcache.sets, ways.length = s.cfg.l1dAssoc
  l2 : s.l2.sets.length = s.cfg.l2Sets ∧ ∀ ways ∈ s.l2.sets, ways.length = s.cfg.l2Assoc
  mshrs : s.l2.mshrs.length = s.cfg.l2MshrSize
  banks : s.dram.banks.length = s.cfg.dramChannels * s.cfg.dramRanks * s.cfg.dramBanks
  channels : s.dram.channels.length = s.cfg.dramChannels

/-- The invariants of every core. -/
def EveryCore (P : Nat → CoreState → Prop) (s : State) : Prop :=
  ∀ (k : Nat) (core : CoreState), s.cores[k]? = some core → P k core

end Sys2Proof.Machine
end

