-- ==== Sys2Proof/Certificates/Slice0/Obligations.lean ====
section
/-! DEFINITION. The statements for the provers. Each docstring names the rules it formalises. -/

section Obligations

open Sys2Proof Sys2Proof.Machine

/-! ## Encoding -/

/-- O1 (30_encoding.md, R301–R310). Decoding the encoding of any well-formed instruction, with every operand at every value,
gives the instruction back, as a word and as bytes. -/
def Obligations.DecodeInvertsEncode : Prop :=
  ∀ i : Instr, i.WellFormed →
    decode (encode i) = .ok i ∧ ∀ rest : List Byte, decodeBytes (encodeBytes i ++ rest) = .ok (i, rest)

/-- O2 (R307). A word is read as `i` exactly when it agrees with `i`'s encoding on the bits `i` uses; the other bits have no
effect. -/
def Obligations.DecodeReadsExactlyTheUsedBits : Prop :=
  ∀ (w : Word) (i : Instr), decode w = .ok i ↔ i.WellFormed ∧ w &&& usedBits i = encode i

/-- O3 (R308, R309, R310, R311). The decoder follows the opcode table of 53 rows, no two of which share a word: a word of a
row is an instruction of that row, and a word of no row is rejected. -/
def Obligations.DecodeFollowsTheOpcodeTable : Prop :=
  (∀ w : Word, match decode w with
    | .ok i => w &&& (tableRow i).mask = (tableRow i).bits ∧ tableRow i ∈ opcodeTable
    | .error e => e = .unknown w ∧ ∀ r ∈ opcodeTable, w &&& r.mask ≠ r.bits) ∧
  (opcodeTable.Pairwise fun r r' => ∀ w : Word, ¬(w &&& r.mask = r.bits ∧ w &&& r'.mask = r'.bits)) ∧
  opcodeTable.length = 53 ∧ (opcodeTable.filter fun r => r.mask = maskOpcode).length = 22 ∧
  (opcodeTable.filter fun r => r.mask = maskSpecial).length = 27 ∧
  (opcodeTable.filter fun r => r.mask = maskRegimm).length = 4

/-- O4 (95_test_vectors.md section 2). The spec's own encodings decode to the instructions it gives, and its unknown words to
none. -/
def Obligations.SampleWordsDecode : Prop :=
  decode 0x24010005#32 = .ok (.addiu 1#5 0#5 0x0005#16) ∧
  decode 0x00221820#32 = .ok (.add 3#5 1#5 2#5) ∧
  decode 0x0000000C#32 = .ok .syscall ∧
  decode 0x8C010000#32 = .ok (.lw 1#5 0#5 0x0000#16) ∧
  decode 0x10000002#32 = .ok (.beq 0#5 0#5 0x0002#16) ∧
  decode 0x00000000#32 = .ok (.sll 0#5 0#5 0) ∧
  decode 0x00850018#32 = .ok (.mult 4#5 5#5) ∧
  decode 0x00003010#32 = .ok (.mfhi 6#5) ∧
  decode 0x0480FFFF#32 = .ok (.bltz 4#5 0xFFFF#16) ∧
  decode 0x04110003#32 = .ok (.bgezal 0#5 0x0003#16) ∧
  decode 0x08100004#32 = .ok (.j 0x0100004#26) ∧
  decode 0x0C100008#32 = .ok (.jal 0x0100008#26) ∧
  decode 0x03E00008#32 = .ok (.jr 31#5) ∧
  decode 0x0120F809#32 = .ok (.jalr 31#5 9#5) ∧
  decode 0x00041080#32 = .ok (.sll 2#5 4#5 2) ∧
  decode 0xA0890001#32 = .ok (.sb 9#5 4#5 0x0001#16) ∧
  decode 0x0000000D#32 = .error (.unknown 0x0000000D#32) ∧
  decode 0x04020000#32 = .error (.unknown 0x04020000#32) ∧
  decode 0x88000000#32 = .error (.unknown 0x88000000#32) ∧
  decode 0xFC000000#32 = .error (.unknown 0xFC000000#32)

/-! ## The processor cycle and its stage calls -/

/-- O5 (R740, R741, R742, R401, R410). A step is one processor cycle: the DRAM and the hand-over of its completion to the L2,
the L2 (its own cycle: L2CycleDrainsThenDelivers), the cores in ascending id, the count. A core that is not running does not tick; a running one makes its five stage
calls in reverse order, execute after the decrement of its counter, and then applies its recovery. The focus, the model's
own field (log 4), ends at its idle value. -/
def Obligations.StepIsOneProcessorCycle : Prop :=
  ∀ s : State, configAdmitted s.cfg = true →
    step s = andThen (tickCores (List.range s.cfg.numCores) (l2Phase (dramPhase s)))
      (fun t => .next { t with cycles := t.cycles + 1, focus := Focus.idle }) ∧
    dramPhase s =
      (let s' := { s with dram := (dramExecute s.cfg s.cycles s.dram).2 }
       match (dramExecute s.cfg s.cycles s.dram).1 with
       | some r => { s' with l2 := l2HandleCompletion s.cfg s.cycles r.addr s.l2 }
       | none => s') ∧
    (∀ (c : Nat) (rest : List Nat), tickCores (c :: rest) s = andThen (tickCore c s) (tickCores rest)) ∧
    (∀ (c : Nat) (core : CoreState), s.cores[c]? = some core →
      (core.running = false → tickCore c s = .next s) ∧
      (core.running = true → tickCore c s =
        andThen (callStage c .wb s) fun s₁ =>
        andThen (callStage c .mem s₁) fun s₂ =>
        andThen (callStage c .execute
          (s₂.modifyCore c fun core => { core with multiplierStall := core.multiplierStall - 1 })) fun s₃ =>
        andThen (callStage c .decode s₃) fun s₄ =>
        .next ((fetchStage c s₄).modifyCore c applyRecoveryCore)))

/-- O6 (R304, R407, R414, R416, R420, R320). A stage call runs the instruction its op's word encodes: when the word decodes to `i`
the call is `exec i` with the focus on that core and stage; an unknown word does nothing; without an op the call does nothing.
The fields that decode extracts, whatever the format, are the bits R304 names, and extraction changes no other field. -/
def Obligations.StageCallRunsTheDecodedInstruction : Prop :=
  ∀ (s : State) (c : Nat) (stage : Stage) (core : CoreState), s.cores[c]? = some core →
    (∀ (op : Op) (i : Instr), slotOf stage core = some op → decode op.instruction = .ok i →
      callStage c stage s = exec i { s with focus := { core := c, stage := stage } }) ∧
    (∀ (op : Op) (e : DecodeReject), slotOf stage core = some op → decode op.instruction = .error e →
      callStage c stage s = execUnknown { s with focus := { core := c, stage := stage } }) ∧
    (slotOf stage core = none → callStage c stage s = .next s) ∧
    ∀ op : Op,
      let w := op.instruction
      extractFields op =
        { op with
          opcode := w.extractLsb' 26 6
          rs := w.extractLsb' 21 5
          rt := w.extractLsb' 16 5
          rd := w.extractLsb' 11 5
          shamt := w.extractLsb' 6 5
          funct := w.extractLsb' 0 6
          imm16 := w.extractLsb' 0 16
          target := w.extractLsb' 0 26
          seImm16 := (w.extractLsb' 0 16).signExtend 32
          subop :=
            if w.extractLsb' 26 6 = 0#6 then w.extractLsb' 0 6
            else if w.extractLsb' 26 6 = 1#6 then (w.extractLsb' 16 5).zeroExtend 6
            else 0#6 }

/-- O7 (R403, R404, R405). Fetch does nothing while the decode slot is full; else, when its I-cache access completes, it puts a
new op with the word at PC into the decode slot, advances PC by 4 and counts the op; when the access does not complete, only
the caches change. The value is functional memory's, whatever the caches hold (R201). -/
def Obligations.FetchReadsTheWordAtPc : Prop :=
  ∀ (s : State) (c : Nat) (core : CoreState), s.cores[c]? = some core →
    (core.decodeOp ≠ none → fetchStage c s = s) ∧
    (core.decodeOp = none → ∀ (icache : L1) (l2 : L2),
      (l1Access s.cfg s.cycles core.id core.pc false false core.icache s.l2 = (true, icache, l2) →
        fetchStage c s = State.setCore { s with l2 := l2 } c
          { core with
            icache := icache
            decodeOp := some (Op.fresh core.pc (memRead32 s.cfg s.mem core.pc))
            pc := core.pc + 4#32
            fetched := core.fetched + 1 }) ∧
      (l1Access s.cfg s.cycles core.id core.pc false false core.icache s.l2 = (false, icache, l2) →
        fetchStage c s = State.setCore { s with l2 := l2 } c { core with icache := icache }))

/-- O8 (log 5, the model's way to place a program's word). A word placed for the next cycle stands, as the op its fetch and
decode make of it, in the execute slot of the lowest running core: the core is otherwise as a fetch leaves it, running, with
nothing else in its slots, and the op is the one that every decode call of the word's instruction makes of the freshly fetched
word. The next execute call of that core is `exec` of the instruction the word encodes; the word is in memory at the PC it was
fetched from; and the other cores, the caches' shared part, the DRAM, the cycles and the output are as they were. -/
def Obligations.PlacedWordIsExecutedNext : Prop :=
  ∀ (s : State) (w : Word) (i : Instr) (core : CoreState),
    s.cores[nextCore s]? = some core → decode w = .ok i →
      let c := nextCore s
      let t := s.withFetchWord 32 w.toNat
      ∃ op : Op,
        t = State.setCore { s with mem := memWrite32 s.cfg s.mem core.pc w } c
          { core with
            running := true
            pc := core.pc + 4#32
            fetched := core.fetched + 1
            decodeOp := none
            executeOp := some op
            memOp := none
            wbOp := none } ∧
        op.instruction = w ∧ op.pc = core.pc ∧
        (∀ (u : State) (k : Nat) (fresh : CoreState), InStage u k .decode fresh →
          fresh.decodeOp = some (Op.fresh core.pc w) → fresh.executeOp = none →
            exec i u = .next (u.setCore k { fresh with decodeOp := none, executeOp := some op })) ∧
        callExecute c t = exec i ((t.modifyCore c decrementMultiplier).focusOn c .execute) ∧
        (s.mem.wf = true → isMapped s.cfg core.pc = true → memRead32 s.cfg t.mem core.pc = w)

/-! ## Pipeline mechanics -/

/-- O9 (40_pipeline.md section 4, R412, R413). The three tiers of operand resolution; and with an empty mem slot, as execute
always finds it, no source stalls and each has its program-order value. -/
def Obligations.SourcesHaveProgramOrderValues : Prop :=
  ∀ core : CoreState,
    resolveSource core none = .unchanged ∧ resolveSource core (some 0#5) = .value 0#32 ∧
    (∀ r : Reg, r ≠ 0#5 →
      (∀ op : Op, core.memOp = some op → op.regDst = some r →
        resolveSource core (some r) = if op.regDstValueReady then .value op.regDstValue else .stall) ∧
      ((∀ op : Op, core.memOp = some op → op.regDst ≠ some r) →
        (∀ op : Op, core.wbOp = some op → op.regDst = some r → resolveSource core (some r) = .value op.regDstValue) ∧
        ((∀ op : Op, core.wbOp = some op → op.regDst ≠ some r) →
          resolveSource core (some r) = .value (core.regs.read r)))) ∧
    (core.memOp = none →
      (∀ op : Op, sourcesStall core op = false) ∧
      ∀ r : Reg, resolveSource core (some r) =
        .value ((match core.wbOp with
          | some op => core.regs.commit op.regDst op.regDstValue
          | none => core.regs).read r))

/-- O10 (R406, R411, R416, R420). A stage call of any instruction leaves the state alone when its slot is empty, and, for decode
and execute, when the slot after it is full. -/
def Obligations.EmptyOrBlockedStagesDoNothing : Prop :=
  ∀ (i : Instr) (s : State) (c : Nat) (core : CoreState),
    (InStage s c .decode core → core.decodeOp = none ∨ core.executeOp ≠ none → exec i s = .next s) ∧
    (InStage s c .execute core → core.executeOp = none ∨ core.memOp ≠ none → exec i s = .next s) ∧
    (InStage s c .mem core → core.memOp = none → exec i s = .next s) ∧
    (InStage s c .wb core → core.wbOp = none → exec i s = .next s)

/-- O11 (R101, R416, R420). Every instruction that accesses no memory passes mem; every instruction but SYSCALL commits its
destination at writeback and is counted; a committed register reads its new value, register 0 always reads 0 and discards the
write, and no other register changes. -/
def Obligations.MemPassesAndWritebackCommits : Prop :=
  (∀ i : Instr, isMemInstr i = false → PassesMem i) ∧ (∀ i : Instr, i ≠ .syscall → Retires i) ∧
  ∀ (rf : RegFile) (r q : Reg) (v : Word),
    rf.read 0#5 = 0#32 ∧ rf.commit none v = rf ∧ rf.commit (some 0#5) v = rf ∧
    (r ≠ 0#5 → (rf.commit (some r) v).read r = v) ∧ (q ≠ r → (rf.commit (some r) v).read q = rf.read q)

/-- O12 (each instruction file's "writes only"; R103, R106, R110, R205). The frame of every instruction, stage by stage. A decode
call changes two slots; an execute call two slots, the recovery triple, and for the instructions of 42_muldiv.md that write
them HI, LO and the counter; a mem call two slots, the D-cache and the L2, and memory only through a store's op; a writeback
call, except SYSCALL's, the registers, the wb slot and the retired count. Nothing else changes, on this core or anywhere. -/
def Obligations.EveryStageHasItsFrame : Prop :=
  ∀ (i : Instr) (s t : State) (c : Nat) (core : CoreState), exec i s = .next t →
    (InStage s c .decode core →
      ∃ d e : Option Op, t = s.setCore c { core with decodeOp := d, executeOp := e }) ∧
    (InStage s c .execute core →
      ∃ (e m : Option Op) (br : BranchRecover) (hi lo : Word) (n : Nat),
        t = s.setCore c
          { core with executeOp := e, memOp := m, branchRecover := br, hi := hi, lo := lo, multiplierStall := n } ∧
        ((∀ rs rt, i ≠ .mult rs rt ∧ i ≠ .multu rs rt ∧ i ≠ .div rs rt ∧ i ≠ .divu rs rt) →
          n = core.multiplierStall ∧
          ((∀ rs, i ≠ .mthi rs) → hi = core.hi) ∧ ((∀ rs, i ≠ .mtlo rs) → lo = core.lo)) ∧
        ((∀ op, core.executeOp = some op → op.isBranch = false) → br = core.branchRecover)) ∧
    (InStage s c .mem core →
      ∃ (m w : Option Op) (dcache : L1) (l2 : L2) (mem : Memory),
        t = State.setCore { s with l2 := l2, mem := mem } c { core with memOp := m, wbOp := w, dcache := dcache } ∧
        ((∀ op, core.memOp = some op → (op.isMem && op.memWrite) = false) → mem = s.mem) ∧
        ∀ b : Nat, (∀ op, core.memOp = some op → b / 4 ≠ op.memAddr.toNat / 4) → mem.readByte b = s.mem.readByte b) ∧
    (InStage s c .wb core → i ≠ .syscall →
      ∃ (w : Option Op) (regs : RegFile) (n : Nat),
        t = s.setCore c { core with wbOp := w, regs := regs, retired := n } ∧
        ∀ r : Reg, (∀ op, core.wbOp = some op → op.regDst ≠ some r) → regs.read r = core.regs.read r)

/-- O13 (R423, R424, R427). `recover` keeps a recovery that is already pending; a pending recovery sets PC, clears the slots its
depth says, adds one to `squashed` and clears the triple, whatever the slots held; with none pending nothing happens. -/
def Obligations.RecoveryKeepsTheFirstAndAppliesOnce : Prop :=
  ∀ (core : CoreState) (d d' : Nat) (a a' : Word),
    (core.branchRecover.pending = true → recover d a core = core) ∧
    (core.branchRecover.pending = false →
      recover d a core = { core with branchRecover := { pending := true, dest := a, flushDepth := d } }) ∧
    recover d' a' (recover d a core) = recover d a core ∧
    (core.branchRecover.pending = false → applyRecoveryCore core = core) ∧
    (core.branchRecover = { pending := true, dest := a, flushDepth := d } →
      applyRecoveryCore core =
        { core with
          pc := a
          decodeOp := if 2 ≤ d then none else core.decodeOp
          executeOp := if 3 ≤ d then none else core.executeOp
          memOp := if 4 ≤ d then none else core.memOp
          wbOp := if 5 ≤ d then none else core.wbOp
          squashed := core.squashed + 1
          branchRecover := { pending := false, dest := 0#32, flushDepth := 0 } })

/-- O14 (R422, R425, R426). The rest of a cycle in which a taken branch left execute: after decode, fetch and the recovery, PC is
the target, the two younger slots are empty, `squashed` has grown by one, and the branch and everything older, the registers,
HI, LO, memory and the output stand untouched. The flushed op's fetch is still counted, and its I-cache access stands: the
count, the I-cache and the L2 are what the access of this cycle's fetch, at the old PC, leaves. -/
def Obligations.TakenBranchSquashesOnlyTheYounger : Prop :=
  ∀ (s t : State) (c : Nat) (core : CoreState) (dest : Word), s.cores[c]? = some core →
    core.branchRecover = { pending := true, dest := dest, flushDepth := 3 } → core.executeOp = none →
    andThen (callStage c .decode s) (fun u => .next ((fetchStage c u).modifyCore c applyRecoveryCore)) = .next t →
      t.mem = s.mem ∧ t.output = s.output ∧ t.dram = s.dram ∧
      ∃ core' : CoreState, t.cores[c]? = some core' ∧
        core'.pc = dest ∧ core'.decodeOp = none ∧ core'.executeOp = none ∧
        core'.memOp = core.memOp ∧ core'.wbOp = core.wbOp ∧ core'.squashed = core.squashed + 1 ∧
        core'.branchRecover = BranchRecover.clear ∧ core'.regs = core.regs ∧ core'.hi = core.hi ∧ core'.lo = core.lo ∧
        core'.multiplierStall = core.multiplierStall ∧ core'.retired = core.retired ∧ core'.dcache = core.dcache ∧
        core'.running = core.running ∧ core'.id = core.id ∧
        (let access := l1Access s.cfg s.cycles core.id core.pc false false core.icache s.l2
         core'.fetched = core.fetched + (if access.1 then 1 else 0) ∧ core'.icache = access.2.1 ∧ t.l2 = access.2.2)

/-! ## Invariants -/

/-- O15 (R136). The reset state of every admitted configuration meets every invariant; the model's own reset state is that of the
configuration log 1 names (the model's choice), which is admitted. -/
def Obligations.ResetMeetsEveryInvariant : Prop :=
  State.reset = State.resetWith Config.atReset ∧ configAdmitted Config.atReset = true ∧
  ∀ cfg : Config, configAdmitted cfg = true →
    (State.resetWith cfg).mem.wf = true ∧ EveryCore CoreBasics (State.resetWith cfg) ∧
    EveryCore (fun _ => CounterBounds) (State.resetWith cfg) ∧ EveryCore (fun _ => SlotsInOrder) (State.resetWith cfg) ∧
    CachesInv (State.resetWith cfg) ∧ RequestsMatchMshrs (State.resetWith cfg) ∧ WaitersAreServed (State.resetWith cfg) ∧
    ShapeInv (State.resetWith cfg)

/-- O16 (R131, R202). Every step keeps functional memory in its one canonical form, inside the 32-bit address space. -/
def Obligations.StepKeepsMemoryCanonical : Prop :=
  ∀ s t : State, s.mem.wf = true → step s = .next t → t.mem.wf = true

/-- O17 (R101, R113, R114, R116). Every step keeps, on every core: slot 0 of the register file is 0, the counter is at most 32, no
recovery is pending, and the core stands at the place of its id. -/
def Obligations.StepKeepsCoreBasics : Prop :=
  ∀ s t : State, EveryCore CoreBasics s → step s = .next t → EveryCore CoreBasics t

/-- O18 (R117, R402). Every step keeps `retired ≤ fetched` and `squashed ≤ fetched` on every core, in the form that carries them:
ops in slots are fetched and not retired, and a recovery's branch is past execute. -/
def Obligations.StepKeepsCounterBounds : Prop :=
  (∀ s t : State, EveryCore (fun _ => CounterBounds) s → step s = .next t → EveryCore (fun _ => CounterBounds) t) ∧
  ∀ core : CoreState, CounterBounds core → core.retired ≤ core.fetched ∧ core.squashed ≤ core.fetched

/-- O19 (R407, R409, R413). Every step keeps the slots in order: decode holds an op as fetched, execute an op with its word's
destination and memory flags and, if it links, its value ready, mem one whose value is ready unless it is a load, wb one
whose value is ready. -/
def Obligations.StepKeepsSlotsInOrder : Prop :=
  ∀ s t : State, EveryCore (fun _ => SlotsInOrder) s → step s = .next t → EveryCore (fun _ => SlotsInOrder) t

/-- O20 (R212, R216, R217, R247). Every step keeps, in every cache: the LRU counters of a set's valid blocks are a permutation of
0..v−1, dirty blocks are valid, none is SHARED, tags of valid blocks differ; a block being awaited is not there; at most one
valid MSHR has a block. -/
def Obligations.StepKeepsCacheInvariants : Prop :=
  ∀ s t : State, CachesInv s → step s = .next t → CachesInv t

/-- O21 (R241, R246, R262, R265). Every step keeps: the blocks in `req_queue`, the DRAM queue and `ret_queue` together are those of
the valid MSHRs, one each; the DRAM queue is within its bound; and no request is a writeback. So `req_queue` never holds more
than L2_MSHR_SIZE items. -/
def Obligations.StepKeepsRequestsMatched : Prop :=
  (∀ s t : State, RequestsMatchMshrs s → step s = .next t → RequestsMatchMshrs t) ∧
  ∀ s : State, RequestsMatchMshrs s → s.l2.reqQueue.length ≤ s.l2.mshrs.length

/-- O22 (R246, R747, C8). Every step keeps: an L1 that waits for the L2 is a requester of a valid MSHR of its block, so no L1 waits
for a block nobody delivers. -/
def Obligations.StepKeepsWaitersServed : Prop :=
  ∀ s t : State, WaitersAreServed s → step s = .next t → WaitersAreServed t

/-- O23 (R10, R210, R240, R260). Every step keeps the size of every array. -/
def Obligations.StepKeepsShape : Prop :=
  ∀ s t : State, ShapeInv s → step s = .next t → ShapeInv t

/-! ## The whole machine -/

/-- O24 (R700, R703; log 10). Every instruction, and every unknown word, answers a next state in every state; so a step answers a
next state for every admitted configuration. That a step, and not only the launch, refuses every other configuration is the
model's choice (log 10, DEDUCED): R703 makes a refusal a property of the launch. -/
def Obligations.OnlyAConfigurationIsRefused : Prop :=
  (∀ (i : Instr) (s : State), ∃ t, exec i s = .next t) ∧ (∀ s : State, ∃ t, execUnknown s = .next t) ∧
  ∀ s : State, (configAdmitted s.cfg = true → ∃ t, step s = .next t) ∧
    (configAdmitted s.cfg = false → step s = .refused .configurationNotAdmitted)

/-- O25 (R15, R134, R135, R721, R802). A step adds one to `stat_cycles`, only appends to the output, and changes no parameter; and
it never lowers a core's `fetched`, `retired` or `squashed`, none of which grows by more than one. The focus, the model's own
field (log 4), ends at its idle value. -/
def Obligations.StepCountsOneCycle : Prop :=
  ∀ s t : State, step s = .next t →
    t.cycles = s.cycles + 1 ∧ s.output <+: t.output ∧ t.cfg = s.cfg ∧ t.focus = Focus.idle ∧
    ∀ (k : Nat) (core : CoreState), s.cores[k]? = some core → ∃ core' : CoreState, t.cores[k]? = some core' ∧
      (core'.fetched = core.fetched ∨ core'.fetched = core.fetched + 1) ∧
      (core'.retired = core.retired ∨ core'.retired = core.retired + 1) ∧
      (core'.squashed = core.squashed ∨ core'.squashed = core.squashed + 1) ∧ core'.id = core.id

/-- O26 (R747; the focus is the model's own field, log 4). What a step does depends on no value of the focus: the next state is a
function of the machine the spec gives. -/
def Obligations.StepIgnoresTheFocus : Prop :=
  ∀ (s : State) (f : Focus), step { s with focus := f } = step s

/-- O27 (R659, R656). A pipeline cycle of one core leaves every other core as it is, but for one way: the SYSCALL in its wb slot
spawns an idle core, and then that core's PC, register 3 and running flag are written and nothing else of it. -/
def Obligations.OneCoreReachesAnotherOnlyBySpawn : Prop :=
  ∀ (s t : State) (c k : Nat) (own other : CoreState), s.cores[c]? = some own → s.cores[k]? = some other → k ≠ c →
    pipelineCycle c s = .next t →
      t.cores[k]? = some other ∨
      ∃ op : Op, own.wbOp = some op ∧ decode op.instruction = .ok .syscall ∧
        op.regSrc1Value ∈ [0x01#32, 0x02#32, 0x03#32] ∧ op.regSrc1Value.toNat = k ∧ k ≠ own.id ∧ k < s.cfg.numCores ∧
        other.running = false ∧
        t.cores[k]? = some
          { other with pc := op.pc + 4#32, regs := other.regs.write 3#5 1#32, running := true }

/-- O28 (R201, R733, 20_memory.md). The DRAM's and the L2's own cycle touch no value: memory, the output and everything of a core
but its two L1s stay as they are. -/
def Obligations.MemoryHierarchyTouchesOnlyTiming : Prop :=
  ∀ s : State,
    (l2Phase (dramPhase s)).mem = s.mem ∧ (l2Phase (dramPhase s)).output = s.output ∧
    (l2Phase (dramPhase s)).cycles = s.cycles ∧ (l2Phase (dramPhase s)).cfg = s.cfg ∧
    ∀ (k : Nat) (core : CoreState), s.cores[k]? = some core → ∃ icache dcache : L1,
      (l2Phase (dramPhase s)).cores[k]? = some { core with icache := icache, dcache := dcache }

/-! ## Functional memory -/

/-- O29 (R202, R204, R205). `mem_read_32` and `mem_write_32`: the aligned word, little-endian; a write to a mapped word changes
exactly its four bytes; an unmapped word reads 0 and a write to it does nothing. Whether a word is mapped is a property of its
aligned address: all four bytes of a word are mapped, or none is. -/
def Obligations.WordAccessorsAreLittleEndian : Prop :=
  ∀ (cfg : Config) (m : Memory) (addr v : Word),
    let a := addr.toNat / 4 * 4
    (isMapped cfg addr = true →
      memRead32 cfg m addr = m.readByte (a + 3) ++ m.readByte (a + 2) ++ m.readByte (a + 1) ++ m.readByte a ∧
      (m.wf = true →
        (memWrite32 cfg m addr v).readByte a = v.extractLsb' 0 8 ∧
        (memWrite32 cfg m addr v).readByte (a + 1) = v.extractLsb' 8 8 ∧
        (memWrite32 cfg m addr v).readByte (a + 2) = v.extractLsb' 16 8 ∧
        (memWrite32 cfg m addr v).readByte (a + 3) = v.extractLsb' 24 8) ∧
      ∀ b : Nat, b < a ∨ a + 3 < b → (memWrite32 cfg m addr v).readByte b = m.readByte b) ∧
    (isMapped cfg addr = false → memRead32 cfg m addr = 0#32 ∧ memWrite32 cfg m addr v = m) ∧
    isMapped cfg addr = isMapped cfg (alignWord addr) ∧ (alignWord addr).toNat = a ∧
    ∀ addr' : Word, addr'.toNat / 4 = addr.toNat / 4 → isMapped cfg addr' = isMapped cfg addr

/-- O30 (R600, R601, R203). Narrow accesses by bytes. With k the low two address bits: a byte load takes byte k of the word; a
halfword load bytes k and k+1, or at k = 3 byte 3 alone, zero-extended by both LH and LHU; LW the word. A byte store replaces
byte k; a halfword store bytes k and, where it is in the word, k+1; SW all; every other byte of the word is kept. -/
def Obligations.NarrowAccessesTakeTheirBytes : Prop :=
  ∀ (addr w v : Word) (j : Nat), j < 4 →
    let k := addr.toNat % 4
    extractLb addr w = (byteOfWord w k).signExtend 32 ∧ extractLbu addr w = (byteOfWord w k).zeroExtend 32 ∧
    (k ≤ 2 → extractLh addr w = (byteOfWord w (k + 1) ++ byteOfWord w k : BitVec 16).signExtend 32 ∧
      extractLhu addr w = (byteOfWord w (k + 1) ++ byteOfWord w k : BitVec 16).zeroExtend 32) ∧
    (k = 3 → extractLh addr w = (byteOfWord w 3).zeroExtend 32 ∧ extractLhu addr w = (byteOfWord w 3).zeroExtend 32) ∧
    extractLw addr w = w ∧
    byteOfWord (mergeSb addr w v) j = (if j = k then byteOfWord v 0 else byteOfWord w j) ∧
    byteOfWord (mergeSh addr w v) j =
      (if j = k then byteOfWord v 0 else if j = k + 1 then byteOfWord v 1 else byteOfWord w j) ∧
    mergeSw addr w v = v

/-- O31 (R630). The store-then-load laws on a mapped word, and that SB and SH keep the word's bytes outside their mask; on an
unmapped word a load reads 0 and a store has no effect. -/
def Obligations.LoadsReturnWhatStoresWrote : Prop :=
  ∀ (cfg : Config) (m : Memory) (a v : Word), m.wf = true →
    let store (merge : Word → Word → Word → Word) (addr : Word) := memWrite32 cfg m addr (merge addr (memRead32 cfg m addr) v)
    (isMapped cfg a = true → alignWord a = a →
      extractLw a (memRead32 cfg (store mergeSw a) a) = v ∧
      (∀ k : Word, k ≤ 3#32 →
        extractLbu (a + k) (memRead32 cfg (store mergeSb (a + k)) (a + k)) = (v.extractLsb' 0 8).zeroExtend 32) ∧
      (∀ k : Word, k ≤ 2#32 →
        extractLhu (a + k) (memRead32 cfg (store mergeSh (a + k)) (a + k)) = (v.extractLsb' 0 16).zeroExtend 32 ∧
        extractLh (a + k) (memRead32 cfg (store mergeSh (a + k)) (a + k)) = (v.extractLsb' 0 16).signExtend 32) ∧
      (∀ (k : Word) (j : Nat), k ≤ 3#32 → j < 4 →
        (j ≠ k.toNat → (store mergeSb (a + k)).readByte (a.toNat + j) = m.readByte (a.toNat + j)) ∧
        (j ≠ k.toNat → j ≠ k.toNat + 1 →
          (store mergeSh (a + k)).readByte (a.toNat + j) = m.readByte (a.toNat + j)))) ∧
    (isMapped cfg a = false → ∀ merge : Word → Word → Word → Word, memRead32 cfg m a = 0#32 ∧ store merge a = m)

/-! ## Caches, L2 and DRAM -/

/-- O32 (R213, R223, R224). An L1 access: a ready pending miss is filled first; a miss that is still pending blocks; a hit
completes, makes the block the youngest of its set, ages by one the valid ways that were younger than it, and by a write makes
it dirty and MODIFIED; a miss asks the L2 and latches the pending miss as its answer says. -/
def Obligations.L1AccessFollowsItsFourSteps : Prop :=
  ∀ (cfg : Config) (t id : Nat) (addr : Word) (isWrite isData : Bool) (l1 : L1) (l2 : L2),
    (∀ r : Nat, l1.pendingMiss = true → l1.pendingMissReady = some r → r ≤ t →
      l1Access cfg t id addr isWrite isData l1 l2 =
        l1Access cfg t id addr isWrite isData
          { l1 with sets := install l1.sets l1.pendingMissAddr, pendingMiss := false } l2) ∧
    (l1.pendingMiss = true → (l1.pendingMissReady = none ∨ ∃ r, l1.pendingMissReady = some r ∧ t < r) →
      l1Access cfg t id addr isWrite isData l1 l2 = (false, l1, l2)) ∧
    (l1.pendingMiss = false →
      (∀ w : Nat, probe l1.sets addr = some w → ∃ sets' : CacheSets,
        l1Access cfg t id addr isWrite isData l1 l2 = (true, { l1 with sets := sets' }, l2) ∧
        HitLeaves addr w isWrite l1.sets sets') ∧
      (probe l1.sets addr = none → ∀ l2' : L2,
        (l2Access cfg t addr isWrite id l2 = (.hit, l2') →
          l1Access cfg t id addr isWrite isData l1 l2 =
            (false, { l1 with
                pendingMiss := true, pendingMissAddr := addr, pendingMissReady := some (t + cfg.l2HitLatency) }, l2')) ∧
        (l2Access cfg t addr isWrite id l2 = (.miss, l2') →
          l1Access cfg t id addr isWrite isData l1 l2 =
            (false, { l1 with pendingMiss := true, pendingMissAddr := addr, pendingMissReady := none }, l2')) ∧
        (l2Access cfg t addr isWrite id l2 = (.busy, l2') →
          l1Access cfg t id addr isWrite isData l1 l2 = (false, l1, l2')))) ∧
    (l1Fill addr l1 =
      if l1.pendingMiss = true ∧ blockAddr addr = blockAddr l1.pendingMissAddr then
        { l1 with sets := install l1.sets l1.pendingMissAddr, pendingMiss := false }
      else l1)

/-- O33 (R213, R242, R246). An L2 access. A hit answers hit, makes the block the youngest of its set and, by a write, dirty and
MODIFIED; the MSHRs and queues are unchanged. A miss on the block of a valid MSHR is merged into it: the core joins its
requesters, nothing else changes and nothing is queued. Misses to one block share one MSHR and one DRAM request: with no MSHR of
its block, the first miss takes the lowest invalid MSHR and queues one request, and a second miss to the same block, of
whatever cache, core and cycle, is merged into that MSHR and queues none; with no MSHR free and no match, the answer is busy
and nothing changes. -/
def Obligations.MissesToOneBlockShareOneRequest : Prop :=
  ∀ (cfg : Config) (t t' c c' : Nat) (addr addr' : Word) (w w' : Bool) (l2 : L2),
    (∀ way : Nat, probe l2.sets addr = some way → ∃ sets' : CacheSets,
      l2Access cfg t addr w c l2 = (.hit, { l2 with sets := sets' }) ∧ HitLeaves addr way w l2.sets sets') ∧
    (∀ (k : Nat) (m : Mshr), probe l2.sets addr = none → l2.mshrs[k]? = some m → m.valid = true →
      m.addr = blockAddr addr → (∀ j m', j < k → l2.mshrs[j]? = some m' → ¬(m'.valid = true ∧ m'.addr = blockAddr addr)) →
        ∃ requesters : List Nat,
          l2Access cfg t addr w c l2 = (.miss, { l2 with mshrs := l2.mshrs.set k { m with requesters := requesters } }) ∧
          ∀ x : Nat, x ∈ requesters ↔ x = c ∨ x ∈ m.requesters) ∧
    (probe l2.sets addr = none → (∀ m ∈ l2.mshrs, ¬(m.valid = true ∧ m.addr = blockAddr addr)) →
      (∀ k : Nat, (∃ free, l2.mshrs[k]? = some free ∧ free.valid = false) →
        (∀ j m', j < k → l2.mshrs[j]? = some m' → m'.valid = true) →
          l2Access cfg t addr w c l2 = (.miss,
            { l2 with
              mshrs := l2.mshrs.set k
                { valid := true
                  addr := blockAddr addr
                  isWrite := w
                  requesters := [c]
                  done := false
                  readyCycle := 0 }
              reqQueue := l2.reqQueue ++
                [{ addr := blockAddr addr, isWrite := w, coreId := c, readyCycle := t + cfg.l2ToDramDelay }] }) ∧
          (blockAddr addr' = blockAddr addr → ∃ requesters : List Nat,
            l2Access cfg t' addr' w' c' (l2Access cfg t addr w c l2).2 = (.miss,
              { (l2Access cfg t addr w c l2).2 with
                mshrs := l2.mshrs.set k
                  { valid := true
                    addr := blockAddr addr
                    isWrite := w
                    requesters := requesters
                    done := false
                    readyCycle := 0 } }) ∧
            ∀ x : Nat, x ∈ requesters ↔ x = c ∨ x = c')) ∧
      ((∀ m ∈ l2.mshrs, m.valid = true) → l2Access cfg t addr w c l2 = (.busy, l2)))

/-- O34 (R243, R224, R246). A returned item with a matching MSHR installs its block in the L2, fills both L1s of every requester and
frees the MSHR; no other core, MSHR or set changes; an item with no matching MSHR changes nothing. -/
def Obligations.DeliveryFillsEveryRequester : Prop :=
  ∀ (s : State) (r : RetItem),
    (findMshr s.l2.mshrs (blockAddr r.addr) = none → deliver s r = s) ∧
    (∀ (k : Nat) (m : Mshr), findMshr s.l2.mshrs (blockAddr r.addr) = some k → s.l2.mshrs[k]? = some m →
      m.requesters.Nodup →
      (deliver s r).l2 = { s.l2 with
        sets := install s.l2.sets r.addr, mshrs := s.l2.mshrs.modify k fun m => { m with valid := false } } ∧
      (∀ (c : Nat) (core : CoreState), s.cores[c]? = some core →
        (c ∈ m.requesters → (deliver s r).cores[c]? =
          some { core with icache := l1Fill r.addr core.icache, dcache := l1Fill r.addr core.dcache }) ∧
        (c ∉ m.requesters → (deliver s r).cores[c]? = some core)) ∧
      (deliver s r).mem = s.mem ∧ (deliver s r).dram = s.dram ∧ (deliver s r).output = s.output)

/-- O35 (R212, R214, R215). Installing a block in a set that keeps R217: the victim is the first invalid way, or, in a full set, the
only way with the highest counter; afterwards the block is found at that way, EXCLUSIVE, clean and the youngest; every other
valid way ages by one if the victim was invalid, and only those younger than it if it was valid; otherwise the other ways keep
their blocks, and the other sets do not change. -/
def Obligations.InstallReplacesTheVictimOnly : Prop :=
  ∀ (sets : CacheSets) (addr : Word) (ways : CacheSet),
    sets[setIndex sets addr]? = some ways → SetInv ways → ways ≠ [] → probe sets addr = none →
      ∃ (v : Nat) (old new : CacheBlock), ways[v]? = some old ∧
        (old.state = .invalid → ∀ u b, u < v → ways[u]? = some b → b.state ≠ .invalid) ∧
        (old.state ≠ .invalid → ∀ u b, u ≠ v → ways[u]? = some b → b.state ≠ .invalid ∧ b.lru < old.lru) ∧
        probe (install sets addr) addr = some v ∧
        ((install sets addr)[setIndex sets addr]?).bind (·[v]?) = some new ∧
        new = { old with tag := tagOf sets addr, state := .exclusive, dirty := false, lru := 0 } ∧
        (∀ u b, u ≠ v → ways[u]? = some b → ((install sets addr)[setIndex sets addr]?).bind (·[u]?) =
          some { b with
            lru := if b.state ≠ .invalid ∧ (old.state = .invalid ∨ b.lru < old.lru) then b.lru + 1 else b.lru }) ∧
        ∀ k, k ≠ setIndex sets addr → (install sets addr)[k]? = sets[k]?

/-- O36 (R262, R264, R263). The DRAM: a request is queued while fewer than DRAM_REQ_QUEUE_SIZE are held, else rejected; the command
sequence by page policy and open row; a completion is the first dispatched request whose data phase has ended, and leaves the
queue; a dispatch takes the first undispatched request whose bank and command bus are free, and sets its data end, its bank
and its channel's buses as the commands say. The data end 0 of a new request is the model's choice (log 8). -/
def Obligations.DramQueuesDispatchesAndCompletes : Prop :=
  ∀ (cfg : Config) (t : Nat) (d : Dram),
    (∀ (w : Bool) (a : Word) (c : Nat) (src : DramSource),
      (d.queue.length < cfg.dramReqQueueSize → dramEnqueue cfg t w a c src d = some { d with
        queue := d.queue ++
          [{ isWrite := w
             addr := a
             coreId := c
             source := src
             arrivalCycle := t
             loc := dramMapAt cfg a
             dispatched := false
             dataEnd := 0 }] }) ∧
      (cfg.dramReqQueueSize ≤ d.queue.length → dramEnqueue cfg t w a c src d = none)) ∧
    (∀ (openRow : Option Nat) (row : Nat), commandSequence cfg openRow row =
      match cfg.dramPagePolicy with
      | .openRow => if openRow = some row then [.rdwr] else [.pre, .act, .rdwr]
      | .closedRow => [.act, .rdwr, .pre]) ∧
    (∀ (k : Nat) (e : DramRequest), d.queue[k]? = some e → e.dispatched = true → e.dataEnd ≤ t →
      (∀ j e', j < k → d.queue[j]? = some e' → ¬(e'.dispatched = true ∧ e'.dataEnd ≤ t)) →
      dramExecute cfg t d = (some e, dramDispatch cfg t { d with queue := d.queue.eraseIdx k })) ∧
    ((∀ e ∈ d.queue, ¬(e.dispatched = true ∧ e.dataEnd ≤ t)) → dramExecute cfg t d = (none, dramDispatch cfg t d)) ∧
    (∀ (k : Nat) (e : DramRequest) (bank : Bank) (chan : Channel), d.queue[k]? = some e → e.dispatched = false →
      d.banks[bankIndex cfg e.loc]? = some bank → d.channels[e.loc.channel]? = some chan →
      bank.busyUntil ≤ t → chan.cmdFreeAt ≤ t → (∀ j e', j < k → d.queue[j]? = some e' → dispatchable cfg t d e' = false) →
      let cmds := commandSequence cfg bank.openRow e.loc.row
      let upToRdwr := match cfg.dramPagePolicy with
        | .openRow => (cmds.map (cmdBusCycles cfg)).sum
        | .closedRow => cfg.dramActCmdBusBusy + cfg.dramRdwrCmdBusBusy
      let dataEnd := max (t + upToRdwr) chan.dataFreeAt + cfg.dramRdwrDataBusBusy
      dramDispatch cfg t d =
        { banks := d.banks.set (bankIndex cfg e.loc)
            { openRow := match cfg.dramPagePolicy with
                | .openRow => some e.loc.row
                | .closedRow => none
              busyUntil := t + (cmds.map (bankCycles cfg)).sum }
          channels := d.channels.set e.loc.channel
            { cmdFreeAt := t + (cmds.map (cmdBusCycles cfg)).sum, dataFreeAt := dataEnd }
          queue := d.queue.set k { e with dispatched := true, dataEnd := dataEnd } }) ∧
    ((∀ e ∈ d.queue, dispatchable cfg t d e = false) → dramDispatch cfg t d = d)

/-! ## The instructions: encoding, decode, execute, mem and writeback blocks (R450) -/

/-- O37 (R451–R460). The three-register instructions. -/
def Obligations.ThreeRegisterInstructions : Prop :=
  ∀ (rd rs rt : Reg), ∀ p ∈ ([
      (.add rd rs rt, 0x20#6, fun a b => a + b),
      (.addu rd rs rt, 0x21#6, fun a b => a + b),
      (.sub rd rs rt, 0x22#6, fun a b => a - b),
      (.subu rd rs rt, 0x23#6, fun a b => a - b),
      (.and rd rs rt, 0x24#6, fun a b => a &&& b),
      (.or rd rs rt, 0x25#6, fun a b => a ||| b),
      (.xor rd rs rt, 0x26#6, fun a b => a ^^^ b),
      (.nor rd rs rt, 0x27#6, fun a b => ~~~(a ||| b)),
      (.slt rd rs rt, 0x2A#6, fun a b => if a.toInt < b.toInt then 1#32 else 0#32),
      (.sltu rd rs rt, 0x2B#6, fun a b => if a.toNat < b.toNat then 1#32 else 0#32)] :
      List (Instr × BitVec 6 × (Word → Word → Word))),
    (∀ shamt, decode (rWord rs rt rd shamt p.2.1) = .ok p.1) ∧
    DecodesTo p.1 (fun op => { op with regSrc1 := some rs, regSrc2 := some rt, regDst := some rd }) ∧
    ExecutesTo p.1 (fun _ op => op.regSrc1 = some rs ∧ op.regSrc2 = some rt ∧ op.isBranch = false)
      (fun core op =>
        { core with
          executeOp := none
          memOp := some
            { op with
              regSrc1Value := sourceValue core rs
              regSrc2Value := sourceValue core rt
              regDstValue := p.2.2 (sourceValue core rs) (sourceValue core rt)
              regDstValueReady := true } }) ∧
    PassesMem p.1 ∧ Retires p.1

/-- O38 (R461–R468). The immediate instructions; LUI has no source. -/
def Obligations.ImmediateInstructions : Prop :=
  ∀ (rt rs : Reg) (imm : BitVec 16), ∀ p ∈ ([
      (.addi rt rs imm, 0x08#6, some rs, fun a => a + imm.signExtend 32),
      (.addiu rt rs imm, 0x09#6, some rs, fun a => a + imm.signExtend 32),
      (.slti rt rs imm, 0x0A#6, some rs, fun a => if a.toInt < (imm.signExtend 32).toInt then 1#32 else 0#32),
      (.sltiu rt rs imm, 0x0B#6, some rs, fun a => if a.toNat < (imm.signExtend 32).toNat then 1#32 else 0#32),
      (.andi rt rs imm, 0x0C#6, some rs, fun a => a &&& imm.zeroExtend 32),
      (.ori rt rs imm, 0x0D#6, some rs, fun a => a ||| imm.zeroExtend 32),
      (.xori rt rs imm, 0x0E#6, some rs, fun a => a ^^^ imm.zeroExtend 32),
      (.lui rt imm, 0x0F#6, none, fun _ => imm.zeroExtend 32 <<< 16)] :
      List (Instr × BitVec 6 × Option Reg × (Word → Word))),
    decode (iWord p.2.1 rs rt imm) = .ok p.1 ∧
    DecodesTo p.1 (fun op => { op with regSrc1 := p.2.2.1, regSrc2 := none, regDst := some rt }) ∧
    ExecutesTo p.1 (fun _ op => op.regSrc1 = p.2.2.1 ∧ op.regSrc2 = none ∧ op.isBranch = false)
      (fun core op =>
        { core with
          executeOp := none
          memOp := some
            { op with
              regSrc1Value := match p.2.2.1 with
                | some r => sourceValue core r
                | none => op.regSrc1Value
              regDstValue := p.2.2.2 (sourceValue core rs)
              regDstValueReady := true } }) ∧
    PassesMem p.1 ∧ Retires p.1

/-- O39 (R470–R475). The shifts: by a constant of 0 to 31, with no first source, and by the five low bits of a register. -/
def Obligations.ShiftInstructions : Prop :=
  (∀ (rd rt : Reg) (shamt : BitVec 5), ∀ p ∈ ([
      (.sll rd rt shamt.toNat, 0x00#6, fun b => b <<< shamt.toNat),
      (.srl rd rt shamt.toNat, 0x02#6, fun b => b >>> shamt.toNat),
      (.sra rd rt shamt.toNat, 0x03#6, fun b => b.sshiftRight shamt.toNat)] : List (Instr × BitVec 6 × (Word → Word))),
    (∀ rs, decode (rWord rs rt rd shamt p.2.1) = .ok p.1) ∧
    DecodesTo p.1 (fun op => { op with regSrc1 := none, regSrc2 := some rt, regDst := some rd }) ∧
    ExecutesTo p.1 (fun _ op => op.regSrc1 = none ∧ op.regSrc2 = some rt ∧ op.isBranch = false)
      (fun core op =>
        { core with
          executeOp := none
          memOp := some
            { op with
              regSrc2Value := sourceValue core rt
              regDstValue := p.2.2 (sourceValue core rt)
              regDstValueReady := true } }) ∧
    PassesMem p.1 ∧ Retires p.1) ∧
  (∀ (rd rt rs : Reg), ∀ p ∈ ([
      (.sllv rd rt rs, 0x04#6, fun a b => b <<< (a.toNat % 32)),
      (.srlv rd rt rs, 0x06#6, fun a b => b >>> (a.toNat % 32)),
      (.srav rd rt rs, 0x07#6, fun a b => b.sshiftRight (a.toNat % 32))] : List (Instr × BitVec 6 × (Word → Word → Word))),
    (∀ shamt, decode (rWord rs rt rd shamt p.2.1) = .ok p.1) ∧
    DecodesTo p.1 (fun op => { op with regSrc1 := some rs, regSrc2 := some rt, regDst := some rd }) ∧
    ExecutesTo p.1 (fun _ op => op.regSrc1 = some rs ∧ op.regSrc2 = some rt ∧ op.isBranch = false)
      (fun core op =>
        { core with
          executeOp := none
          memOp := some
            { op with
              regSrc1Value := sourceValue core rs
              regSrc2Value := sourceValue core rt
              regDstValue := p.2.2 (sourceValue core rs) (sourceValue core rt)
              regDstValueReady := true } }) ∧
    PassesMem p.1 ∧ Retires p.1)

/-- O40 (R502, R505–R508). Multiply and divide write HI, LO and the counter in execute, whatever the counter holds, and no
register. -/
def Obligations.MultiplyDivideInstructions : Prop :=
  ∀ (rs rt : Reg), ∀ p ∈ ([
      (.mult rs rt, 0x18#6, 4, fun a b =>
        ((a.signExtend 64 * b.signExtend 64).extractLsb' 32 32, (a.signExtend 64 * b.signExtend 64).extractLsb' 0 32)),
      (.multu rs rt, 0x19#6, 4, fun a b =>
        ((a.zeroExtend 64 * b.zeroExtend 64).extractLsb' 32 32, (a.zeroExtend 64 * b.zeroExtend 64).extractLsb' 0 32)),
      (.div rs rt, 0x1A#6, 32, fun a b =>
        if b = 0#32 then (0#32, 0#32)
        else if a = 0x80000000#32 ∧ b = 0xFFFFFFFF#32 then (0#32, 0x80000000#32)
        else (BitVec.ofInt 32 (a.toInt.tmod b.toInt), BitVec.ofInt 32 (a.toInt.tdiv b.toInt))),
      (.divu rs rt, 0x1B#6, 32, fun a b =>
        if b = 0#32 then (0#32, 0#32) else (BitVec.ofNat 32 (a.toNat % b.toNat), BitVec.ofNat 32 (a.toNat / b.toNat)))] :
      List (Instr × BitVec 6 × Nat × (Word → Word → Word × Word))),
    (∀ rd shamt, decode (rWord rs rt rd shamt p.2.1) = .ok p.1) ∧
    DecodesTo p.1 (fun op => { op with regSrc1 := some rs, regSrc2 := some rt, regDst := none }) ∧
    ExecutesTo p.1 (fun _ op => op.regSrc1 = some rs ∧ op.regSrc2 = some rt ∧ op.isBranch = false)
      (fun core op =>
        { core with
          hi := (p.2.2.2 (sourceValue core rs) (sourceValue core rt)).1
          lo := (p.2.2.2 (sourceValue core rs) (sourceValue core rt)).2
          multiplierStall := p.2.2.1
          executeOp := none
          memOp := some
            { op with regSrc1Value := sourceValue core rs, regSrc2Value := sourceValue core rt } }) ∧
    PassesMem p.1 ∧ Retires p.1

/-- O41 (R412, R414, R501, R509–R512). The HI/LO moves: while the counter is positive the op stays in execute; at 0 MFHI and MFLO
take HI and LO as their destination's value, MTHI and MTLO write them; the counter is not changed. That a stalled MTHI or MTLO
keeps its resolved source in its field is the model's reading of R412 and R414 (log 18, DEDUCED). -/
def Obligations.HiLoMoveInstructions : Prop :=
  (∀ rd : Reg, ∀ p ∈ ([(.mfhi rd, 0x10#6, fun core => core.hi), (.mflo rd, 0x12#6, fun core => core.lo)] :
      List (Instr × BitVec 6 × (CoreState → Word))),
    (∀ rs rt shamt, decode (rWord rs rt rd shamt p.2.1) = .ok p.1) ∧
    DecodesTo p.1 (fun op => { op with regSrc1 := none, regSrc2 := none, regDst := some rd }) ∧
    ExecutesTo p.1
      (fun core op => op.regSrc1 = none ∧ op.regSrc2 = none ∧ op.isBranch = false ∧ core.multiplierStall = 0)
      (fun core op =>
        { core with executeOp := none, memOp := some { op with regDstValue := p.2.2 core, regDstValueReady := true } }) ∧
    ExecutesTo p.1 (fun core op => op.regSrc1 = none ∧ op.regSrc2 = none ∧ 0 < core.multiplierStall) (fun core _ => core) ∧
    PassesMem p.1 ∧ Retires p.1) ∧
  (∀ rs : Reg, ∀ p ∈ ([(.mthi rs, 0x11#6, fun a core => { core with hi := a }),
      (.mtlo rs, 0x13#6, fun a core => { core with lo := a })] : List (Instr × BitVec 6 × (Word → CoreState → CoreState))),
    (∀ rt rd shamt, decode (rWord rs rt rd shamt p.2.1) = .ok p.1) ∧
    DecodesTo p.1 (fun op => { op with regSrc1 := some rs, regSrc2 := none, regDst := none }) ∧
    ExecutesTo p.1
      (fun core op => op.regSrc1 = some rs ∧ op.regSrc2 = none ∧ op.isBranch = false ∧ core.multiplierStall = 0)
      (fun core op =>
        { p.2.2 (sourceValue core rs) core with
          executeOp := none
          memOp := some { op with regSrc1Value := sourceValue core rs } }) ∧
    ExecutesTo p.1 (fun core op => op.regSrc1 = some rs ∧ op.regSrc2 = none ∧ 0 < core.multiplierStall)
      (fun core op => { core with executeOp := some { op with regSrc1Value := sourceValue core rs } }) ∧
    PassesMem p.1 ∧ Retires p.1)

/-- O42 (R551–R556). The conditional branches: target from `op.pc + 4`, condition at execute, a recovery of depth 3 if taken, no
register write. -/
def Obligations.ConditionalBranchInstructions : Prop :=
  ∀ (rs rt : Reg) (offset : BitVec 16), ∀ p ∈ ([
      (.beq rs rt offset, 0x04#6, rt, some rt, fun a b => decide (a = b)),
      (.bne rs rt offset, 0x05#6, rt, some rt, fun a b => decide (a ≠ b)),
      (.blez rs offset, 0x06#6, rt, none, fun a _ => decide (a.toInt ≤ 0)),
      (.bgtz rs offset, 0x07#6, rt, none, fun a _ => decide (0 < a.toInt)),
      (.bltz rs offset, 0x01#6, 0x00#5, none, fun a _ => decide (a.toInt < 0)),
      (.bgez rs offset, 0x01#6, 0x01#5, none, fun a _ => decide (0 ≤ a.toInt))] :
      List (Instr × BitVec 6 × Reg × Option Reg × (Word → Word → Bool))),
    decode (iWord p.2.1 rs p.2.2.1 offset) = .ok p.1 ∧
    DecodesTo p.1 (fun op =>
      { op with
        regSrc1 := some rs
        regSrc2 := p.2.2.2.1
        isBranch := true
        branchCond := true
        branchDest := op.pc + 4#32 + (offset.signExtend 32 <<< 2) }) ∧
    ExecutesTo p.1
      (fun core op => op.regSrc1 = some rs ∧ op.regSrc2 = p.2.2.2.1 ∧ op.isBranch = true ∧
        core.branchRecover.pending = false)
      (fun core op =>
        { core with
          branchRecover :=
            if p.2.2.2.2 (sourceValue core rs) (sourceValue core rt) then
              { pending := true, dest := op.branchDest, flushDepth := 3 }
            else core.branchRecover
          executeOp := none
          memOp := some
            { op with
              regSrc1Value := sourceValue core rs
              regSrc2Value := match p.2.2.2.1 with
                | some r => sourceValue core r
                | none => op.regSrc2Value
              branchTaken := p.2.2.2.2 (sourceValue core rs) (sourceValue core rt) } }) ∧
    PassesMem p.1 ∧ Retires p.1

/-- O43 (R557, R558). The linking branches: as BLTZ and BGEZ, and register 31 is the destination, with `op.pc + 4`, taken or not. -/
def Obligations.LinkBranchInstructions : Prop :=
  ∀ (rs : Reg) (offset : BitVec 16), ∀ p ∈ ([
      (.bltzal rs offset, 0x10#5, fun a => decide (a.toInt < 0)),
      (.bgezal rs offset, 0x11#5, fun a => decide (0 ≤ a.toInt))] : List (Instr × Reg × (Word → Bool))),
    decode (iWord 0x01#6 rs p.2.1 offset) = .ok p.1 ∧
    DecodesTo p.1 (fun op =>
      { op with
        regSrc1 := some rs
        regSrc2 := none
        isBranch := true
        branchCond := true
        branchDest := op.pc + 4#32 + (offset.signExtend 32 <<< 2)
        link := true
        regDst := some 31#5
        regDstValue := op.pc + 4#32
        regDstValueReady := true }) ∧
    ExecutesTo p.1
      (fun core op => op.regSrc1 = some rs ∧ op.regSrc2 = none ∧ op.isBranch = true ∧ core.branchRecover.pending = false)
      (fun core op =>
        { core with
          branchRecover :=
            if p.2.2 (sourceValue core rs) then { pending := true, dest := op.branchDest, flushDepth := 3 }
            else core.branchRecover
          executeOp := none
          memOp := some
            { op with regSrc1Value := sourceValue core rs, branchTaken := p.2.2 (sourceValue core rs) } }) ∧
    PassesMem p.1 ∧ Retires p.1

/-- O44 (R559–R562). The jumps: J and JAL are taken at decode, to `(op.pc + 4)[31:28] || target || 0b00`; JR and JALR at execute, to
the register's value; JAL links into 31, JALR into its rd. -/
def Obligations.JumpInstructions : Prop :=
  (∀ (target : BitVec 26), ∀ p ∈ ([
      (.j target, 0x02#6, fun op => op),
      (.jal target, 0x03#6, fun op =>
        { op with link := true, regDst := some 31#5, regDstValue := op.pc + 4#32, regDstValueReady := true })] :
      List (Instr × BitVec 6 × (Op → Op))),
    decode (jWord p.2.1 target) = .ok p.1 ∧
    DecodesTo p.1 (fun op => p.2.2
      { op with
        isBranch := true
        branchCond := false
        branchTaken := true
        branchDest := ((op.pc + 4#32) &&& 0xF0000000#32) ||| (target.zeroExtend 32 <<< 2) }) ∧
    ExecutesTo p.1
      (fun core op => op.regSrc1 = none ∧ op.regSrc2 = none ∧ op.isBranch = true ∧ op.branchTaken = true ∧
        core.branchRecover.pending = false)
      (fun core op =>
        { core with
          branchRecover := { pending := true, dest := op.branchDest, flushDepth := 3 }
          executeOp := none
          memOp := some op }) ∧
    PassesMem p.1 ∧ Retires p.1) ∧
  (∀ (rd rs : Reg), ∀ p ∈ ([
      (.jr rs, 0x08#6, fun op => op),
      (.jalr rd rs, 0x09#6, fun op =>
        { op with link := true, regDst := some rd, regDstValue := op.pc + 4#32, regDstValueReady := true })] :
      List (Instr × BitVec 6 × (Op → Op))),
    (∀ rt shamt, decode (rWord rs rt rd shamt p.2.1) = .ok p.1) ∧
    DecodesTo p.1 (fun op => p.2.2 { op with regSrc1 := some rs, isBranch := true, branchCond := false }) ∧
    ExecutesTo p.1
      (fun core op => op.regSrc1 = some rs ∧ op.regSrc2 = none ∧ op.isBranch = true ∧ core.branchRecover.pending = false)
      (fun core op =>
        { core with
          branchRecover := { pending := true, dest := sourceValue core rs, flushDepth := 3 }
          executeOp := none
          memOp := some
            { op with
              regSrc1Value := sourceValue core rs
              branchDest := sourceValue core rs
              branchTaken := true } }) ∧
    PassesMem p.1 ∧ Retires p.1)

/-- O45 (R602, R603, R610–R614). The loads: address at execute; in mem, while the D-cache access does not complete, the op stays; when
it completes, the extracted value of the aligned word is the destination's, ready. -/
def Obligations.LoadInstructions : Prop :=
  ∀ (rt rs : Reg) (offset : BitVec 16), ∀ p ∈ ([
      (.lb rt rs offset, 0x20#6, extractLb), (.lh rt rs offset, 0x21#6, extractLh), (.lw rt rs offset, 0x23#6, extractLw),
      (.lbu rt rs offset, 0x24#6, extractLbu), (.lhu rt rs offset, 0x25#6, extractLhu)] :
      List (Instr × BitVec 6 × (Word → Word → Word))),
    decode (iWord p.2.1 rs rt offset) = .ok p.1 ∧
    DecodesTo p.1 (fun op =>
      { op with regSrc1 := some rs, regSrc2 := none, regDst := some rt, isMem := true, memWrite := false }) ∧
    ExecutesTo p.1 (fun _ op => op.regSrc1 = some rs ∧ op.regSrc2 = none ∧ op.isBranch = false)
      (fun core op =>
        { core with
          executeOp := none
          memOp := some
            { op with
              regSrc1Value := sourceValue core rs
              memAddr := sourceValue core rs + offset.signExtend 32 } }) ∧
    (∀ (s : State) (c : Nat) (core : CoreState) (op : Op) (dcache : L1) (l2 : L2), InStage s c .mem core →
      core.memOp = some op → op.isMem = true → op.memWrite = false →
      (l1Access s.cfg s.cycles core.id op.memAddr false true core.dcache s.l2 = (false, dcache, l2) →
        exec p.1 s = .next (State.setCore { s with l2 := l2 } c { core with dcache := dcache })) ∧
      (l1Access s.cfg s.cycles core.id op.memAddr false true core.dcache s.l2 = (true, dcache, l2) →
        exec p.1 s = .next (State.setCore { s with l2 := l2 } c
          { core with
            dcache := dcache
            memOp := none
            wbOp := some
              { op with
                regDstValue := p.2.2 op.memAddr (memRead32 s.cfg s.mem op.memAddr)
                regDstValueReady := true } }))) ∧
    Retires p.1

/-- O46 (R602, R603, R620–R622). The stores: address and data at execute; in mem, while the D-cache access does not complete, the op
stays and memory is untouched; when it completes, the merged word is written, and no byte outside those the store names
changes. -/
def Obligations.StoreInstructions : Prop :=
  ∀ (rt rs : Reg) (offset : BitVec 16), ∀ p ∈ ([
      (.sb rt rs offset, 0x28#6, mergeSb, fun a b => b = a),
      (.sh rt rs offset, 0x29#6, mergeSh, fun a b => b = a ∨ (b = a + 1 ∧ a % 4 ≠ 3)),
      (.sw rt rs offset, 0x2B#6, mergeSw, fun a b => b / 4 = a / 4)] :
      List (Instr × BitVec 6 × (Word → Word → Word → Word) × (Nat → Nat → Prop))),
    decode (iWord p.2.1 rs rt offset) = .ok p.1 ∧
    DecodesTo p.1 (fun op =>
      { op with regSrc1 := some rs, regSrc2 := some rt, regDst := none, isMem := true, memWrite := true }) ∧
    ExecutesTo p.1 (fun _ op => op.regSrc1 = some rs ∧ op.regSrc2 = some rt ∧ op.isBranch = false)
      (fun core op =>
        { core with
          executeOp := none
          memOp := some
            { op with
              regSrc1Value := sourceValue core rs
              regSrc2Value := sourceValue core rt
              memAddr := sourceValue core rs + offset.signExtend 32
              memValue := sourceValue core rt } }) ∧
    (∀ (s : State) (c : Nat) (core : CoreState) (op : Op) (dcache : L1) (l2 : L2), InStage s c .mem core →
      core.memOp = some op → op.isMem = true → op.memWrite = true →
      (l1Access s.cfg s.cycles core.id op.memAddr true true core.dcache s.l2 = (false, dcache, l2) →
        exec p.1 s = .next (State.setCore { s with l2 := l2 } c { core with dcache := dcache })) ∧
      (l1Access s.cfg s.cycles core.id op.memAddr true true core.dcache s.l2 = (true, dcache, l2) →
        ∃ mem : Memory,
          exec p.1 s = .next (State.setCore { s with l2 := l2, mem := mem } c
            { core with dcache := dcache, memOp := none, wbOp := some op }) ∧
          mem = memWrite32 s.cfg s.mem op.memAddr
            (p.2.2.1 op.memAddr (memRead32 s.cfg s.mem op.memAddr) op.memValue) ∧
          (s.mem.wf = true → ∀ b : Nat, ¬p.2.2.2 op.memAddr.toNat b → mem.readByte b = s.mem.readByte b))) ∧
    Retires p.1

/-- O47 (R650, R306). SYSCALL up to writeback: sources 2 and 3, no destination, nothing in execute beyond their resolution, nothing in
mem; bits 25:6 of its word are ignored. -/
def Obligations.SyscallInstruction : Prop :=
  (∀ rs rt rd shamt, decode (rWord rs rt rd shamt 0x0C#6) = .ok .syscall) ∧
  DecodesTo .syscall (fun op => { op with regSrc1 := some 2#5, regSrc2 := some 3#5, regDst := none }) ∧
  ExecutesTo .syscall (fun _ op => op.regSrc1 = some 2#5 ∧ op.regSrc2 = some 3#5 ∧ op.isBranch = false)
    (fun core op =>
      { core with
        executeOp := none
        memOp := some { op with regSrc1Value := sourceValue core 2#5, regSrc2Value := sourceValue core 3#5 } }) ∧
  PassesMem .syscall

/-- O48 (R652, R654, R655, R656, R657). SYSCALL's services at writeback, by the full value of v0: halt, print and spawn do what their
rules say, every other value and every spawn of itself, of no core or of a running core does nothing; the op retires. The print
line's hex field is 8 lowercase digits that read back as v1. -/
def Obligations.SyscallServices : Prop :=
  (∀ (s : State) (c : Nat) (core : CoreState) (op : Op), InStage s c .wb core → core.wbOp = some op → op.regDst = none →
    core.id = c →
    let done : CoreState := { core with wbOp := none, retired := core.retired + 1 }
    (op.regSrc1Value = 0x0A#32 →
      exec .syscall s = .next (s.setCore c { done with pc := op.pc, running := false })) ∧
    (op.regSrc1Value = 0x0B#32 →
      exec .syscall s = .next (State.setCore
        { s with output := s.output ++ ["OUT (CPU " ++ decimal core.id ++ "): " ++ hex8 op.regSrc2Value] } c done)) ∧
    (op.regSrc1Value ∈ [0x01#32, 0x02#32, 0x03#32] →
      (∀ target : CoreState, op.regSrc1Value.toNat ≠ c → op.regSrc1Value.toNat < s.cfg.numCores →
        s.cores[op.regSrc1Value.toNat]? = some target → target.running = false →
        exec .syscall s = .next ((s.setCore op.regSrc1Value.toNat
            { target with pc := op.pc + 4#32, regs := target.regs.write 3#5 1#32, running := true }).setCore c
          { done with regs := core.regs.write 3#5 0#32 })) ∧
      (op.regSrc1Value.toNat = c ∨ s.cfg.numCores ≤ op.regSrc1Value.toNat ∨
          (∃ target, s.cores[op.regSrc1Value.toNat]? = some target ∧ target.running = true) →
        exec .syscall s = .next (s.setCore c done))) ∧
    (op.regSrc1Value ∉ [0x0A#32, 0x0B#32, 0x01#32, 0x02#32, 0x03#32] → exec .syscall s = .next (s.setCore c done))) ∧
  ∀ v : Word, hexWord (hex8 v).toList = some v ∧ ∀ ch ∈ (hex8 v).toList, ch ∈ "0123456789abcdef".toList

/-- O49 (R320). A word of no instruction passes through every stage, counted like any op, and does nothing else: no source, no
destination, no memory access, no branch. -/
def Obligations.UnknownWordsDoNothing : Prop :=
  ∀ (s : State) (c : Nat) (core : CoreState) (op : Op) (e : DecodeReject), s.cores[c]? = some core →
    decode op.instruction = .error e →
    (core.decodeOp = some op → core.executeOp = none →
      callStage c .decode s = .next ((s.focusOn c .decode).setCore c
        { core with
          decodeOp := none
          executeOp := some { extractFields op with regSrc1 := none, regSrc2 := none, regDst := none } })) ∧
    (core.executeOp = some op → core.memOp = none → op.regSrc1 = none → op.regSrc2 = none → op.isBranch = false →
      callStage c .execute s = .next ((s.focusOn c .execute).setCore c { core with executeOp := none, memOp := some op })) ∧
    (core.memOp = some op → op.isMem = false →
      callStage c .mem s = .next ((s.focusOn c .mem).setCore c { core with memOp := none, wbOp := some op })) ∧
    (core.wbOp = some op → op.regDst = none →
      callStage c .wb s = .next ((s.focusOn c .wb).setCore c { core with wbOp := none, retired := core.retired + 1 }))

/-! ## The instructions: what one of them alone in the pipeline leaves -/

/-- O50 (41_alu.md). Every ALU, immediate and shift instruction, fetched into a core with empty slots and taken through its four stage
calls, leaves the machine with its destination written, the op counted, and nothing else changed. -/
def Obligations.AluInstructionsComplete : Prop :=
  ∀ (rd rs rt : Reg) (imm : BitVec 16) (n : Nat), ∀ p ∈ ([
      (.add rd rs rt, rd, fun x => x rs + x rt), (.addu rd rs rt, rd, fun x => x rs + x rt),
      (.sub rd rs rt, rd, fun x => x rs - x rt), (.subu rd rs rt, rd, fun x => x rs - x rt),
      (.and rd rs rt, rd, fun x => x rs &&& x rt), (.or rd rs rt, rd, fun x => x rs ||| x rt),
      (.xor rd rs rt, rd, fun x => x rs ^^^ x rt), (.nor rd rs rt, rd, fun x => ~~~(x rs ||| x rt)),
      (.slt rd rs rt, rd, fun x => if (x rs).toInt < (x rt).toInt then 1#32 else 0#32),
      (.sltu rd rs rt, rd, fun x => if (x rs).toNat < (x rt).toNat then 1#32 else 0#32),
      (.addi rt rs imm, rt, fun x => x rs + imm.signExtend 32), (.addiu rt rs imm, rt, fun x => x rs + imm.signExtend 32),
      (.slti rt rs imm, rt, fun x => if (x rs).toInt < (imm.signExtend 32).toInt then 1#32 else 0#32),
      (.sltiu rt rs imm, rt, fun x => if (x rs).toNat < (imm.signExtend 32).toNat then 1#32 else 0#32),
      (.andi rt rs imm, rt, fun x => x rs &&& imm.zeroExtend 32), (.ori rt rs imm, rt, fun x => x rs ||| imm.zeroExtend 32),
      (.xori rt rs imm, rt, fun x => x rs ^^^ imm.zeroExtend 32), (.lui rt imm, rt, fun _ => imm.zeroExtend 32 <<< 16),
      (.sll rd rt n, rd, fun x => x rt <<< n), (.srl rd rt n, rd, fun x => x rt >>> n),
      (.sra rd rt n, rd, fun x => (x rt).sshiftRight n), (.sllv rd rt rs, rd, fun x => x rt <<< ((x rs).toNat % 32)),
      (.srlv rd rt rs, rd, fun x => x rt >>> ((x rs).toNat % 32)),
      (.srav rd rt rs, rd, fun x => (x rt).sshiftRight ((x rs).toNat % 32))] : List (Instr × Reg × ((Reg → Word) → Word))),
    ∀ (s : State) (c : Nat) (core : CoreState) (pc w : Word), s.cores[c]? = some core → FreshlyFetchedAlone core pc w →
      lonePassage p.1 c s = .next (State.setCore { s with focus := { core := c, stage := .wb } } c
        { core with
          decodeOp := none
          regs := core.regs.write p.2.1 (p.2.2 core.regs.read)
          retired := core.retired + 1 })

/-- O51 (42_muldiv.md). Every multiply, divide and HI/LO move alone in the pipeline, the counter at 0: what it leaves in HI, LO, the
counter and its destination, and nothing else changed. -/
def Obligations.MulDivInstructionsComplete : Prop :=
  ∀ (rd rs rt : Reg) (s : State) (c : Nat) (core : CoreState) (pc w : Word), s.cores[c]? = some core →
    FreshlyFetchedAlone core pc w →
    let a := core.regs.read rs
    let b := core.regs.read rt
    let left (core' : CoreState) : Result := .next (State.setCore { s with focus := { core := c, stage := .wb } } c
      { core' with decodeOp := none, retired := core.retired + 1 })
    lonePassage (.mult rs rt) c s = left { core with
      hi := (BitVec.ofInt 64 (a.toInt * b.toInt)).extractLsb' 32 32
      lo := (BitVec.ofInt 64 (a.toInt * b.toInt)).extractLsb' 0 32
      multiplierStall := 4 } ∧
    lonePassage (.multu rs rt) c s = left { core with
      hi := BitVec.ofNat 32 (a.toNat * b.toNat / 2 ^ 32)
      lo := BitVec.ofNat 32 (a.toNat * b.toNat)
      multiplierStall := 4 } ∧
    lonePassage (.div rs rt) c s = left { core with
      hi := (signedDivide a b).1, lo := (signedDivide a b).2, multiplierStall := 32 } ∧
    lonePassage (.divu rs rt) c s = left { core with
      hi := (unsignedDivide a b).1, lo := (unsignedDivide a b).2, multiplierStall := 32 } ∧
    lonePassage (.mfhi rd) c s = left { core with regs := core.regs.write rd core.hi } ∧
    lonePassage (.mflo rd) c s = left { core with regs := core.regs.write rd core.lo } ∧
    lonePassage (.mthi rs) c s = left { core with hi := a } ∧
    lonePassage (.mtlo rs) c s = left { core with lo := a }

/-- O52 (43_branch.md). Every branch and jump alone in the pipeline: the recovery it leaves pending if it is taken, the link it
writes whether or not it is taken, and nothing else changed. -/
def Obligations.BranchInstructionsComplete : Prop :=
  ∀ (rd rs rt : Reg) (offset : BitVec 16) (target : BitVec 26) (s : State) (c : Nat) (core : CoreState) (pc w : Word),
    s.cores[c]? = some core → FreshlyFetchedAlone core pc w →
    let a := core.regs.read rs
    let b := core.regs.read rt
    let near := pc + 4#32 + (offset.signExtend 32 <<< 2)
    let far := ((pc + 4#32) &&& 0xF0000000#32) ||| (target.zeroExtend 32 <<< 2)
    ∀ p ∈ ([
      (.beq rs rt offset, decide (a = b), near, none), (.bne rs rt offset, decide (a ≠ b), near, none),
      (.blez rs offset, decide (a.toInt ≤ 0), near, none), (.bgtz rs offset, decide (0 < a.toInt), near, none),
      (.bltz rs offset, decide (a.toInt < 0), near, none), (.bgez rs offset, decide (0 ≤ a.toInt), near, none),
      (.bltzal rs offset, decide (a.toInt < 0), near, some 31#5), (.bgezal rs offset, decide (0 ≤ a.toInt), near, some 31#5),
      (.j target, true, far, none), (.jal target, true, far, some 31#5),
      (.jr rs, true, a, none), (.jalr rd rs, true, a, some rd)] : List (Instr × Bool × Word × Option Reg)),
      lonePassage p.1 c s = .next (State.setCore { s with focus := { core := c, stage := .wb } } c
        { core with
          decodeOp := none
          branchRecover := if p.2.1 then { pending := true, dest := p.2.2.1, flushDepth := 3 } else core.branchRecover
          regs := core.regs.commit p.2.2.2 (pc + 4#32)
          retired := core.retired + 1 })

/-- O53 (44_loadstore.md). Every load and store alone in the pipeline, on a D-cache hit: a load writes the value its bytes of memory
give into rt; a store writes its bytes to memory; the D-cache and L2 take what the access leaves; nothing else changes. -/
def Obligations.LoadsAndStoresComplete : Prop :=
  ∀ (rt rs : Reg) (offset : BitVec 16) (s : State) (c : Nat) (core : CoreState) (pc w : Word) (dcache : L1) (l2 : L2),
    s.cores[c]? = some core → FreshlyFetchedAlone core pc w →
    let addr := core.regs.read rs + offset.signExtend 32
    let word := memRead32 s.cfg s.mem addr
    (l1Access s.cfg s.cycles core.id addr false true core.dcache s.l2 = (true, dcache, l2) →
      ∀ p ∈ ([(.lb rt rs offset, extractLb addr word), (.lbu rt rs offset, extractLbu addr word),
          (.lh rt rs offset, extractLh addr word), (.lhu rt rs offset, extractLhu addr word),
          (.lw rt rs offset, word)] : List (Instr × Word)),
        lonePassage p.1 c s = .next (State.setCore { s with focus := { core := c, stage := .wb }, l2 := l2 } c
          { core with
            decodeOp := none
            dcache := dcache
            regs := core.regs.write rt p.2
            retired := core.retired + 1 })) ∧
    (l1Access s.cfg s.cycles core.id addr true true core.dcache s.l2 = (true, dcache, l2) →
      ∀ p ∈ ([(.sb rt rs offset, mergeSb addr word (core.regs.read rt)),
          (.sh rt rs offset, mergeSh addr word (core.regs.read rt)),
          (.sw rt rs offset, core.regs.read rt)] : List (Instr × Word)),
        lonePassage p.1 c s = .next (State.setCore
          { s with
            focus := { core := c, stage := .wb }
            l2 := l2
            mem := memWrite32 s.cfg s.mem addr p.2 } c
          { core with decodeOp := none, dcache := dcache, retired := core.retired + 1 }))

/-- O54 (45_syscall.md). SYSCALL alone in the pipeline: it reads $2 and $3 and does the service they ask. -/
def Obligations.SyscallCompletes : Prop :=
  ∀ (s : State) (c : Nat) (core : CoreState) (pc w : Word), s.cores[c]? = some core → core.id = c →
    FreshlyFetchedAlone core pc w →
    let v0 := core.regs.read 2#5
    let v1 := core.regs.read 3#5
    let s' : State := { s with focus := { core := c, stage := .wb } }
    let done : CoreState := { core with decodeOp := none, retired := core.retired + 1 }
    (v0 = 0x0A#32 → lonePassage .syscall c s = .next (s'.setCore c { done with pc := pc, running := false })) ∧
    (v0 = 0x0B#32 → lonePassage .syscall c s = .next (State.setCore
      { s' with output := s.output ++ ["OUT (CPU " ++ decimal c ++ "): " ++ hex8 v1] } c done)) ∧
    (∀ target : CoreState, v0 ∈ [0x01#32, 0x02#32, 0x03#32] → v0.toNat ≠ c → v0.toNat < s.cfg.numCores →
      s.cores[v0.toNat]? = some target → target.running = false →
      lonePassage .syscall c s = .next ((s'.setCore v0.toNat
          { target with pc := pc + 4#32, regs := target.regs.write 3#5 1#32, running := true }).setCore c
        { done with regs := core.regs.write 3#5 0#32 })) ∧
    (v0 ∉ [0x0A#32, 0x0B#32, 0x01#32, 0x02#32, 0x03#32] → lonePassage .syscall c s = .next (s'.setCore c done))

/-! ## Laws and the launch -/

/-- O55 (R513, R505–R508). Multiplication gives the exact 64-bit product in HI || LO. Division gives, for every nonzero divisor but
in the one overflow case, quotient and remainder with `q * b + r = a` and `|r| < |b|`, the remainder's sign that of the
dividend; a zero divisor gives zeros, and 0x80000000 by −1 gives 0x80000000 and 0. -/
def Obligations.ProductsAndQuotientsAreExact : Prop :=
  ∀ a b : Word,
    (highWord (signedProduct a b) ++ lowWord (signedProduct a b) : BitVec 64).toInt = a.toInt * b.toInt ∧
    (highWord (unsignedProduct a b) ++ lowWord (unsignedProduct a b) : BitVec 64).toNat = a.toNat * b.toNat ∧
    signedDivide a 0#32 = (0#32, 0#32) ∧ unsignedDivide a 0#32 = (0#32, 0#32) ∧
    signedDivide 0x80000000#32 0xFFFFFFFF#32 = (0#32, 0x80000000#32) ∧
    (b ≠ 0#32 → ¬(a = 0x80000000#32 ∧ b = 0xFFFFFFFF#32) →
      (signedDivide a b).2.toInt * b.toInt + (signedDivide a b).1.toInt = a.toInt ∧
      (signedDivide a b).1.toInt.natAbs < b.toInt.natAbs ∧
      (0 ≤ a.toInt → 0 ≤ (signedDivide a b).1.toInt) ∧ (a.toInt ≤ 0 → (signedDivide a b).1.toInt ≤ 0)) ∧
    (b ≠ 0#32 →
      (unsignedDivide a b).2.toNat * b.toNat + (unsignedDivide a b).1.toNat = a.toNat ∧
      (unsignedDivide a b).1.toNat < b.toNat)

/-- O56 (R503, R501, R410). The HI/LO interlock in cycles. A multiply or divide sets the counter to L in cycle c; a move that
first comes to execute in cycle c + k, k ≥ 1, finds the counter at L − (k − 1) before that cycle's decrement. It stays in
execute for exactly max(0, L − k) calls, one in each cycle, and leaves in the next. -/
def Obligations.HiLoMoveIsHeldForTheRemainingLatency : Prop :=
  ∀ (s : State) (c : Nat) (core : CoreState) (op : Op) (i : Instr) (L k : Nat), s.cores[c]? = some core →
    core.executeOp = some op → core.memOp = none → decode op.instruction = .ok i →
    (∃ r, i = .mfhi r ∨ i = .mflo r ∨ i = .mthi r ∨ i = .mtlo r) → 1 ≤ k → core.multiplierStall = L - (k - 1) →
      (∀ j : Nat, j ≤ L - k → ∃ (t : State) (held : CoreState) (op' : Op),
        executeCalls c j s = .next t ∧ t.cores[c]? = some held ∧ held.executeOp = some op' ∧
        op'.instruction = op.instruction ∧ held.memOp = none ∧ held.multiplierStall = L - (k - 1) - j ∧
        held.hi = core.hi ∧ held.lo = core.lo) ∧
      ∃ (t : State) (left : CoreState) (op' : Op),
        executeCalls c (L - k + 1) s = .next t ∧ t.cores[c]? = some left ∧ left.executeOp = none ∧
        left.memOp = some op' ∧ op'.instruction = op.instruction ∧ left.multiplierStall = 0

/-- O57 (R800, R802, R804). A launch: refused for a configuration that is not admitted or an image outside MAPPED; otherwise the
reset state with the image in memory, where each word the image names reads as its last record says and every byte that no
record writes reads 0. -/
def Obligations.LaunchLoadsTheImage : Prop :=
  ∀ (cfg : Config) (img : Image),
    (configAdmitted cfg = false → launch cfg img = .refused .configurationNotAdmitted) ∧
    (configAdmitted cfg = true → (∃ r ∈ img, isMapped cfg r.1 = false) →
      launch cfg img = .refused .imageOutsideMapped) ∧
    (configAdmitted cfg = true → (∀ r ∈ img, isMapped cfg r.1 = true) →
      ∃ mem : Memory, launch cfg img = .next { State.resetWith cfg with mem := mem } ∧ mem.wf = true ∧
        (∀ (before after : Image) (a d : Word), img = before ++ (a, d) :: after →
          (∀ r ∈ after, alignWord r.1 ≠ alignWord a) → memRead32 cfg mem a = d) ∧
        ∀ b : Nat, (∀ r ∈ img, b / 4 ≠ r.1.toNat / 4) → mem.readByte b = 0#8)

/-- O58 (R136, R104, R108, R111, R115). What reset leaves, for any parameters: on every core 32 zero registers, HI, LO, the counters
and the multiplier counter 0, PC at 0x00400000, empty slots, the recovery triple clear, running for core 0 only, every block
INVALID, clean, with LRU and tag 0, no pending miss; every MSHR invalid, every queue empty, every bank closed and free, every
bus free; no cycle counted, no output. -/
def Obligations.ResetValues : Prop :=
  ∀ cfg : Config,
    let clearCache (sets : CacheSets) : Prop :=
      ∀ ways ∈ sets, ∀ b ∈ ways, b.state = .invalid ∧ b.dirty = false ∧ b.lru = 0 ∧ b.tag = 0
    let s := State.resetWith cfg
    s.cores.length = cfg.numCores ∧
    (∀ (k : Nat) (core : CoreState), s.cores[k]? = some core →
      core.id = k ∧ (core.running = true ↔ k = 0) ∧ (∀ r : Reg, core.regs.read r = 0#32) ∧ core.hi = 0#32 ∧
      core.lo = 0#32 ∧ core.pc = 0x00400000#32 ∧ core.multiplierStall = 0 ∧
      core.branchRecover = { pending := false, dest := 0#32, flushDepth := 0 } ∧ core.decodeOp = none ∧
      core.executeOp = none ∧ core.memOp = none ∧ core.wbOp = none ∧ core.fetched = 0 ∧ core.retired = 0 ∧
      core.squashed = 0 ∧ core.icache.pendingMiss = false ∧ core.dcache.pendingMiss = false ∧
      clearCache core.icache.sets ∧ clearCache core.dcache.sets) ∧
    clearCache s.l2.sets ∧ (∀ m ∈ s.l2.mshrs, m.valid = false) ∧ s.l2.reqQueue = [] ∧ s.l2.retQueue = [] ∧
    s.dram.queue = [] ∧ (∀ b ∈ s.dram.banks, b.openRow = none ∧ b.busyUntil = 0) ∧
    (∀ ch ∈ s.dram.channels, ch.cmdFreeAt = 0 ∧ ch.dataFreeAt = 0) ∧ s.cycles = 0 ∧ s.output = [] ∧
    ∀ a : Nat, s.mem.readByte a = 0#8

/-- O59 (R745, R747; the fuel is the model's choice, log 15). `go` with enough fuel is the `go` of the spec, in both directions:
where `goWithin` stops with no core running, it stopped at the first cycle boundary at which none ran; where the spec's `go`
ends, `goWithin` answers that end for every fuel from some number of cycles on; and the end is the only one. -/
def Obligations.GoStopsAtTheFirstIdleBoundary : Prop :=
  (∀ (n : Nat) (s t : State), goWithin n s = .next t → activeCoresCount t = 0 → GoEnds s t) ∧
  (∀ s t : State, GoEnds s t → ∃ n : Nat, ∀ m : Nat, n ≤ m → goWithin m s = .next t) ∧
  ∀ s t t' : State, GoEnds s t → GoEnds s t' → t = t'

/-- O60 (R243, R262). The L2's own cycle. The request path hands the requests of `req_queue` to the DRAM in insertion order and stops
at the first that is not ready or that the DRAM, full, rejects: that one and everything behind it stay, in their order. The
return path then delivers every ready item of `ret_queue` in insertion order, each as DeliveryFillsEveryRequester states, and
keeps the others. The data end 0 of a new DRAM request is the model's choice (log 8). -/
def Obligations.L2CycleDrainsThenDelivers : Prop :=
  ∀ s : State, ∃ sent held : List ReqItem,
    s.l2.reqQueue = sent ++ held ∧ (∀ q ∈ sent, q.readyCycle ≤ s.cycles) ∧
    (sent ≠ [] → s.dram.queue.length + sent.length ≤ s.cfg.dramReqQueueSize) ∧
    (∀ (q : ReqItem) (rest : List ReqItem), held = q :: rest →
      s.cycles < q.readyCycle ∨ s.cfg.dramReqQueueSize ≤ s.dram.queue.length + sent.length) ∧
    l2Phase s =
      (s.l2.retQueue.filter fun r => decide (r.readyCycle ≤ s.cycles)).foldl deliver
        { s with
          dram :=
            { s.dram with
              queue := s.dram.queue ++ sent.map fun q =>
                { isWrite := q.isWrite
                  addr := q.addr
                  coreId := q.coreId
                  source := .memory
                  arrivalCycle := s.cycles
                  loc := dramMapAt s.cfg q.addr
                  dispatched := false
                  dataEnd := 0 } }
          l2 :=
            { s.l2 with
              reqQueue := held
              retQueue := s.l2.retQueue.filter fun r => decide (s.cycles < r.readyCycle) } } ∧
    (l2Phase s).l2.reqQueue = held ∧
    (l2Phase s).l2.retQueue = s.l2.retQueue.filter fun r => decide (s.cycles < r.readyCycle)

end Obligations
end

