-- ==== Sys2Proof/Laws/Caches.lean ====
section
/-! SUPPORT. What each operation of the caches, the L2 and its queues can do (20_memory.md sections 2 to 4), said once. -/

namespace Sys2Proof.Machine

/-- Changing a known element is replacing it. -/
theorem modify_eq_set_of_getElem? {α : Type} {l : List α} {k : Nat} {a : α} (f : α → α) (h : l[k]? = some a) :
    l.modify k f = l.set k (f a) := by
  apply List.ext_getElem?
  intro j
  rw [List.getElem?_modify, List.getElem?_set]
  by_cases hj : k = j
  · subst hj
    simp only [if_true, h, (List.getElem?_eq_some_iff.mp h).1]
    rfl
  · simp [hj]

/-! ## Block addresses (R211) -/

theorem blockAddr_eq_shift (addr : Word) : blockAddr addr = (addr >>> 5) <<< 5 := by
  ext i hi
  rw [blockAddr, BitVec.getElem_and]
  interval_cases i <;> simp

theorem blockAddr_toNat (addr : Word) : (blockAddr addr).toNat = addr.toNat / 32 * 32 := by
  rw [blockAddr_eq_shift, BitVec.toNat_shiftLeft, BitVec.toNat_ushiftRight, Nat.shiftRight_eq_div_pow, Nat.shiftLeft_eq]
  have := addr.isLt
  omega

@[simp] theorem blockAddr_blockAddr (addr : Word) : blockAddr (blockAddr addr) = blockAddr addr := by
  apply BitVec.eq_of_toNat_eq
  rw [blockAddr_toNat, blockAddr_toNat]
  omega

/-- Addresses of one block have one block number. -/
theorem blockNumber_eq_of_blockAddr {a b : Word} (h : blockAddr a = blockAddr b) : blockNumber a = blockNumber b := by
  have := congrArg BitVec.toNat h
  rw [blockAddr_toNat, blockAddr_toNat] at this
  unfold blockNumber blockSize
  omega

/-! ## Probe and hit -/

/-- A probe sees only the block of its address (R211, R212). -/
theorem probe_eq_of_blockAddr (sets : CacheSets) {a b : Word} (h : blockAddr a = blockAddr b) : probe sets a = probe sets b := by
  unfold probe setOf setIndex tagOf
  rw [blockNumber_eq_of_blockAddr h]

/-- A hit is a valid way of the address's set that holds its tag (R212). -/
theorem probe_eq_some {sets : CacheSets} {addr : Word} {w : Nat} (h : probe sets addr = some w) :
    ∃ (ways : CacheSet) (hit : CacheBlock), sets[setIndex sets addr]? = some ways ∧ ways[w]? = some hit ∧
      hit.state ≠ .invalid ∧ hit.tag = tagOf sets addr := by
  unfold probe setOf at h
  cases hs : sets[setIndex sets addr]? with
  | none => simp [hs] at h
  | some ways =>
    simp only [hs, Option.getD_some, List.findIdx?_eq_some_iff_getElem, blockValid, Bool.and_eq_true, decide_eq_true_eq] at h
    obtain ⟨hw, ⟨hv, ht⟩, -⟩ := h
    exact ⟨ways, ways[w], rfl, by simp [hw], hv, ht⟩

theorem lruOf_eq {ways : CacheSet} {w : Nat} {b : CacheBlock} (h : ways[w]? = some b) : lruOf ways w = b.lru := by
  simp [lruOf, h]

/-- Each way after `touch` (R213). -/
theorem touchWays_getElem? {ways : CacheSet} {w : Nat} {hit : CacheBlock} (h : ways[w]? = some hit) (v : Nat) :
    (touchWays w ways)[v]? = ways[v]?.map fun b =>
      if v = w then { b with lru := 0 }
      else if b.state ≠ .invalid ∧ b.lru < hit.lru then { b with lru := b.lru + 1 } else b := by
  simp [touchWays, lruOf_eq h, blockValid]

/-- A hit leaves what R213 and R223 step 3 say, and nothing else (also R242 step 1). -/
theorem hitBlock_leaves {sets : CacheSets} {addr : Word} {w : Nat} (isWrite : Bool) (h : probe sets addr = some w) :
    HitLeaves addr w isWrite sets (hitBlock sets addr w isWrite) := by
  obtain ⟨ways, hit, hs, hw, hv, ht⟩ := probe_eq_some h
  refine ⟨ways, if isWrite then dirtyWay w (touchWays w ways) else touchWays w ways, hit, hs, hw, hv, ht, ?_, ?_, ?_, ?_⟩
  · exact modify_eq_set_of_getElem? _ hs
  · cases isWrite <;> simp [dirtyWay, touchWays]
  · cases isWrite <;> simp [dirtyWay, touchWays_getElem? hw, hw]
  · intro v b hvw hb
    cases isWrite <;> simp [dirtyWay, touchWays_getElem? hw, hb, hvw, Ne.symm hvw]

/-- Each way after `install` (R215): the victim's holds the new block, and the other valid ways age as the victim's validity
says. -/
theorem installWays_getElem? {ways : CacheSet} {old : CacheBlock} (tag : Nat) (h : ways[findVictim ways]? = some old) (u : Nat) :
    (installWays tag ways)[u]? = ways[u]?.map fun b =>
      if u = findVictim ways then { b with tag := tag, state := .exclusive, dirty := false, lru := 0 }
      else if b.state ≠ .invalid ∧ (old.state = .invalid ∨ b.lru < old.lru) then { b with lru := b.lru + 1 } else b := by
  simp [installWays, lruOf_eq h, h, blockValid]

/-! ## MSHRs and requesters -/

/-- The requesters after a merge: the old ones and the core (R242 step 2). -/
theorem mem_addRequester (id x : Nat) (l : List Nat) : x ∈ addRequester id l ↔ x = id ∨ x ∈ l := by
  induction l with
  | nil => simp [addRequester]
  | cons k rest ih =>
    unfold addRequester
    split_ifs with h₁ h₂
    · simp
    · subst h₂; simp
    · simp only [List.mem_cons, ih]; tauto

/-- The MSHR that is found is the lowest valid one of the block (R242 step 2). -/
theorem findMshr_eq_some {mshrs : List Mshr} {block : Word} {k : Nat} {m : Mshr} (hk : mshrs[k]? = some m)
    (hv : m.valid = true) (ha : m.addr = block)
    (hlow : ∀ j m', j < k → mshrs[j]? = some m' → ¬(m'.valid = true ∧ m'.addr = block)) :
    findMshr mshrs block = some k := by
  obtain ⟨hlt, rfl⟩ := List.getElem?_eq_some_iff.mp hk
  refine List.findIdx?_eq_some_iff_getElem.mpr ⟨hlt, by simp [hv, ha], fun j hj => ?_⟩
  have := hlow j _ hj (List.getElem?_eq_getElem (by omega))
  simpa using this

theorem findMshr_eq_none {mshrs : List Mshr} {block : Word} (h : ∀ m ∈ mshrs, ¬(m.valid = true ∧ m.addr = block)) :
    findMshr mshrs block = none := by
  simp only [findMshr, List.findIdx?_eq_none_iff]
  intro m hm
  simpa using h m hm

/-- The free MSHR that is taken is the lowest invalid one (R242 step 3). -/
theorem freeMshr_eq_some {mshrs : List Mshr} {k : Nat} {m : Mshr} (hk : mshrs[k]? = some m) (hv : m.valid = false)
    (hlow : ∀ j m', j < k → mshrs[j]? = some m' → m'.valid = true) : freeMshr mshrs = some k := by
  obtain ⟨hlt, rfl⟩ := List.getElem?_eq_some_iff.mp hk
  refine List.findIdx?_eq_some_iff_getElem.mpr ⟨hlt, by simp [hv], fun j hj => ?_⟩
  simpa using hlow j _ hj (List.getElem?_eq_getElem (by omega))

theorem freeMshr_eq_none {mshrs : List Mshr} (h : ∀ m ∈ mshrs, m.valid = true) : freeMshr mshrs = none := by
  simp only [freeMshr, List.findIdx?_eq_none_iff]
  intro m hm
  simp [h m hm]

/-! ## The L2's queues (R243) -/

/-- The DRAM request of an item of `req_queue` that is handed over in cycle `t` (R262; the data end: log 8). -/
def requestOf (cfg : Config) (t : Nat) (q : ReqItem) : DramRequest :=
  { isWrite := q.isWrite, addr := q.addr, coreId := q.coreId, source := .memory, arrivalCycle := t,
    loc := dramMapAt cfg q.addr, dispatched := false, dataEnd := 0 }

/-- The request path hands over a prefix of the queue, in order, and stops at the first item that is not ready or that a full
DRAM rejects. -/
theorem drainRequests_split (cfg : Config) (t : Nat) (queue : List ReqItem) (d : Dram) :
    ∃ sent held : List ReqItem, queue = sent ++ held ∧ (∀ q ∈ sent, q.readyCycle ≤ t) ∧
      (sent ≠ [] → d.queue.length + sent.length ≤ cfg.dramReqQueueSize) ∧
      (∀ (q : ReqItem) (rest : List ReqItem), held = q :: rest →
        t < q.readyCycle ∨ cfg.dramReqQueueSize ≤ d.queue.length + sent.length) ∧
      drainRequests cfg t queue d = (held, { d with queue := d.queue ++ sent.map (requestOf cfg t) }) := by
  induction queue generalizing d with
  | nil => exact ⟨[], [], by simp [drainRequests]⟩
  | cons q rest ih =>
    unfold drainRequests dramEnqueue
    split_ifs with hr hq
    · exact ⟨[], q :: rest, by simp +contextual [hr]⟩
    · obtain ⟨sent, held, hsplit, hready, hroom, hstop, hd⟩ := ih { d with queue := d.queue ++ [requestOf cfg t q] }
      simp only [List.length_append, List.length_singleton] at hroom hstop
      refine ⟨q :: sent, held, by simp [hsplit], ?_, fun _ => ?_, ?_, ?_⟩
      · simpa using ⟨Nat.not_lt.mp hr, hready⟩
      · rcases eq_or_ne sent [] with rfl | hs
        · simpa using hq
        · have := hroom hs
          simp only [List.length_cons]; omega
      · intro p tail hp
        refine (hstop p tail hp).imp_right fun h => ?_
        simp only [List.length_cons]; omega
      · exact hd.trans (by simp)
    · exact ⟨[], q :: rest, by simp +contextual [Nat.not_lt.mp hq]⟩

/-- A delivery touches neither queue of the L2. -/
theorem deliver_queues (s : State) (r : RetItem) :
    (deliver s r).l2.reqQueue = s.l2.reqQueue ∧ (deliver s r).l2.retQueue = s.l2.retQueue := by
  unfold deliver
  split <;> exact ⟨rfl, rfl⟩

theorem foldl_deliver_queues (items : List RetItem) (s : State) :
    (items.foldl deliver s).l2.reqQueue = s.l2.reqQueue ∧ (items.foldl deliver s).l2.retQueue = s.l2.retQueue := by
  induction items generalizing s with
  | nil => exact ⟨rfl, rfl⟩
  | cons r rest ih =>
    obtain ⟨h₁, h₂⟩ := ih (deliver s r)
    obtain ⟨h₃, h₄⟩ := deliver_queues s r
    exact ⟨h₁.trans h₃, h₂.trans h₄⟩

end Sys2Proof.Machine
end

