-- ==== Sys2Proof/Laws/State.lean ====
section
/-! SUPPORT. One lemma for each field of each update of the machine and of a core, true by definition, and which core an
update changes. -/

namespace Sys2Proof.Machine

/-! ## Updates of the machine -/

@[simp] theorem State.modifyCore_cfg (s : State) (c : Nat) (f : CoreState → CoreState) : (s.modifyCore c f).cfg = s.cfg := rfl
@[simp] theorem State.modifyCore_cores (s : State) (c : Nat) (f : CoreState → CoreState) : (s.modifyCore c f).cores = s.cores.modify c f := rfl
@[simp] theorem State.modifyCore_mem (s : State) (c : Nat) (f : CoreState → CoreState) : (s.modifyCore c f).mem = s.mem := rfl
@[simp] theorem State.modifyCore_l2 (s : State) (c : Nat) (f : CoreState → CoreState) : (s.modifyCore c f).l2 = s.l2 := rfl
@[simp] theorem State.modifyCore_dram (s : State) (c : Nat) (f : CoreState → CoreState) : (s.modifyCore c f).dram = s.dram := rfl
@[simp] theorem State.modifyCore_cycles (s : State) (c : Nat) (f : CoreState → CoreState) : (s.modifyCore c f).cycles = s.cycles := rfl
@[simp] theorem State.modifyCore_output (s : State) (c : Nat) (f : CoreState → CoreState) : (s.modifyCore c f).output = s.output := rfl
@[simp] theorem State.modifyCore_focus (s : State) (c : Nat) (f : CoreState → CoreState) : (s.modifyCore c f).focus = s.focus := rfl

@[simp] theorem State.setCore_cfg (s : State) (c : Nat) (core : CoreState) : (s.setCore c core).cfg = s.cfg := rfl
@[simp] theorem State.setCore_cores (s : State) (c : Nat) (core : CoreState) : (s.setCore c core).cores = s.cores.modify c fun _ => core := rfl
@[simp] theorem State.setCore_mem (s : State) (c : Nat) (core : CoreState) : (s.setCore c core).mem = s.mem := rfl
@[simp] theorem State.setCore_l2 (s : State) (c : Nat) (core : CoreState) : (s.setCore c core).l2 = s.l2 := rfl
@[simp] theorem State.setCore_dram (s : State) (c : Nat) (core : CoreState) : (s.setCore c core).dram = s.dram := rfl
@[simp] theorem State.setCore_cycles (s : State) (c : Nat) (core : CoreState) : (s.setCore c core).cycles = s.cycles := rfl
@[simp] theorem State.setCore_output (s : State) (c : Nat) (core : CoreState) : (s.setCore c core).output = s.output := rfl
@[simp] theorem State.setCore_focus (s : State) (c : Nat) (core : CoreState) : (s.setCore c core).focus = s.focus := rfl

@[simp] theorem State.focusOn_cfg (s : State) (c : Nat) (stage : Stage) : (s.focusOn c stage).cfg = s.cfg := rfl
@[simp] theorem State.focusOn_cores (s : State) (c : Nat) (stage : Stage) : (s.focusOn c stage).cores = s.cores := rfl
@[simp] theorem State.focusOn_mem (s : State) (c : Nat) (stage : Stage) : (s.focusOn c stage).mem = s.mem := rfl
@[simp] theorem State.focusOn_l2 (s : State) (c : Nat) (stage : Stage) : (s.focusOn c stage).l2 = s.l2 := rfl
@[simp] theorem State.focusOn_dram (s : State) (c : Nat) (stage : Stage) : (s.focusOn c stage).dram = s.dram := rfl
@[simp] theorem State.focusOn_cycles (s : State) (c : Nat) (stage : Stage) : (s.focusOn c stage).cycles = s.cycles := rfl
@[simp] theorem State.focusOn_output (s : State) (c : Nat) (stage : Stage) : (s.focusOn c stage).output = s.output := rfl
@[simp] theorem State.focusOn_focus (s : State) (c : Nat) (stage : Stage) : (s.focusOn c stage).focus = { core := c, stage := stage } := rfl

@[simp] theorem countCycle_cfg (s : State) : (countCycle s).cfg = s.cfg := rfl
@[simp] theorem countCycle_cores (s : State) : (countCycle s).cores = s.cores := rfl
@[simp] theorem countCycle_mem (s : State) : (countCycle s).mem = s.mem := rfl
@[simp] theorem countCycle_l2 (s : State) : (countCycle s).l2 = s.l2 := rfl
@[simp] theorem countCycle_dram (s : State) : (countCycle s).dram = s.dram := rfl
@[simp] theorem countCycle_cycles (s : State) : (countCycle s).cycles = s.cycles + 1 := rfl
@[simp] theorem countCycle_output (s : State) : (countCycle s).output = s.output := rfl
@[simp] theorem countCycle_focus (s : State) : (countCycle s).focus = Focus.idle := rfl

/-! ## Updates of a core -/

@[simp] theorem decrementMultiplier_id (core : CoreState) : (decrementMultiplier core).id = core.id := rfl
@[simp] theorem decrementMultiplier_running (core : CoreState) : (decrementMultiplier core).running = core.running := rfl
@[simp] theorem decrementMultiplier_regs (core : CoreState) : (decrementMultiplier core).regs = core.regs := rfl
@[simp] theorem decrementMultiplier_hi (core : CoreState) : (decrementMultiplier core).hi = core.hi := rfl
@[simp] theorem decrementMultiplier_lo (core : CoreState) : (decrementMultiplier core).lo = core.lo := rfl
@[simp] theorem decrementMultiplier_pc (core : CoreState) : (decrementMultiplier core).pc = core.pc := rfl
@[simp] theorem decrementMultiplier_multiplierStall (core : CoreState) : (decrementMultiplier core).multiplierStall = core.multiplierStall - 1 := rfl
@[simp] theorem decrementMultiplier_branchRecover (core : CoreState) : (decrementMultiplier core).branchRecover = core.branchRecover := rfl
@[simp] theorem decrementMultiplier_decodeOp (core : CoreState) : (decrementMultiplier core).decodeOp = core.decodeOp := rfl
@[simp] theorem decrementMultiplier_executeOp (core : CoreState) : (decrementMultiplier core).executeOp = core.executeOp := rfl
@[simp] theorem decrementMultiplier_memOp (core : CoreState) : (decrementMultiplier core).memOp = core.memOp := rfl
@[simp] theorem decrementMultiplier_wbOp (core : CoreState) : (decrementMultiplier core).wbOp = core.wbOp := rfl
@[simp] theorem decrementMultiplier_fetched (core : CoreState) : (decrementMultiplier core).fetched = core.fetched := rfl
@[simp] theorem decrementMultiplier_retired (core : CoreState) : (decrementMultiplier core).retired = core.retired := rfl
@[simp] theorem decrementMultiplier_squashed (core : CoreState) : (decrementMultiplier core).squashed = core.squashed := rfl
@[simp] theorem decrementMultiplier_icache (core : CoreState) : (decrementMultiplier core).icache = core.icache := rfl
@[simp] theorem decrementMultiplier_dcache (core : CoreState) : (decrementMultiplier core).dcache = core.dcache := rfl

@[simp] theorem fetchInto_id (w : Word) (core : CoreState) : (fetchInto w core).id = core.id := rfl
@[simp] theorem fetchInto_running (w : Word) (core : CoreState) : (fetchInto w core).running = core.running := rfl
@[simp] theorem fetchInto_regs (w : Word) (core : CoreState) : (fetchInto w core).regs = core.regs := rfl
@[simp] theorem fetchInto_hi (w : Word) (core : CoreState) : (fetchInto w core).hi = core.hi := rfl
@[simp] theorem fetchInto_lo (w : Word) (core : CoreState) : (fetchInto w core).lo = core.lo := rfl
@[simp] theorem fetchInto_pc (w : Word) (core : CoreState) : (fetchInto w core).pc = core.pc + 4#32 := rfl
@[simp] theorem fetchInto_multiplierStall (w : Word) (core : CoreState) : (fetchInto w core).multiplierStall = core.multiplierStall := rfl
@[simp] theorem fetchInto_branchRecover (w : Word) (core : CoreState) : (fetchInto w core).branchRecover = core.branchRecover := rfl
@[simp] theorem fetchInto_decodeOp (w : Word) (core : CoreState) : (fetchInto w core).decodeOp = some (Op.fresh core.pc w) := rfl
@[simp] theorem fetchInto_executeOp (w : Word) (core : CoreState) : (fetchInto w core).executeOp = core.executeOp := rfl
@[simp] theorem fetchInto_memOp (w : Word) (core : CoreState) : (fetchInto w core).memOp = core.memOp := rfl
@[simp] theorem fetchInto_wbOp (w : Word) (core : CoreState) : (fetchInto w core).wbOp = core.wbOp := rfl
@[simp] theorem fetchInto_fetched (w : Word) (core : CoreState) : (fetchInto w core).fetched = core.fetched + 1 := rfl
@[simp] theorem fetchInto_retired (w : Word) (core : CoreState) : (fetchInto w core).retired = core.retired := rfl
@[simp] theorem fetchInto_squashed (w : Word) (core : CoreState) : (fetchInto w core).squashed = core.squashed := rfl
@[simp] theorem fetchInto_icache (w : Word) (core : CoreState) : (fetchInto w core).icache = core.icache := rfl
@[simp] theorem fetchInto_dcache (w : Word) (core : CoreState) : (fetchInto w core).dcache = core.dcache := rfl

@[simp] theorem leaveMem_id (op : Op) (core : CoreState) : (leaveMem op core).id = core.id := rfl
@[simp] theorem leaveMem_running (op : Op) (core : CoreState) : (leaveMem op core).running = core.running := rfl
@[simp] theorem leaveMem_regs (op : Op) (core : CoreState) : (leaveMem op core).regs = core.regs := rfl
@[simp] theorem leaveMem_hi (op : Op) (core : CoreState) : (leaveMem op core).hi = core.hi := rfl
@[simp] theorem leaveMem_lo (op : Op) (core : CoreState) : (leaveMem op core).lo = core.lo := rfl
@[simp] theorem leaveMem_pc (op : Op) (core : CoreState) : (leaveMem op core).pc = core.pc := rfl
@[simp] theorem leaveMem_multiplierStall (op : Op) (core : CoreState) : (leaveMem op core).multiplierStall = core.multiplierStall := rfl
@[simp] theorem leaveMem_branchRecover (op : Op) (core : CoreState) : (leaveMem op core).branchRecover = core.branchRecover := rfl
@[simp] theorem leaveMem_decodeOp (op : Op) (core : CoreState) : (leaveMem op core).decodeOp = core.decodeOp := rfl
@[simp] theorem leaveMem_executeOp (op : Op) (core : CoreState) : (leaveMem op core).executeOp = core.executeOp := rfl
@[simp] theorem leaveMem_memOp (op : Op) (core : CoreState) : (leaveMem op core).memOp = none := rfl
@[simp] theorem leaveMem_wbOp (op : Op) (core : CoreState) : (leaveMem op core).wbOp = some op := rfl
@[simp] theorem leaveMem_fetched (op : Op) (core : CoreState) : (leaveMem op core).fetched = core.fetched := rfl
@[simp] theorem leaveMem_retired (op : Op) (core : CoreState) : (leaveMem op core).retired = core.retired := rfl
@[simp] theorem leaveMem_squashed (op : Op) (core : CoreState) : (leaveMem op core).squashed = core.squashed := rfl
@[simp] theorem leaveMem_icache (op : Op) (core : CoreState) : (leaveMem op core).icache = core.icache := rfl
@[simp] theorem leaveMem_dcache (op : Op) (core : CoreState) : (leaveMem op core).dcache = core.dcache := rfl

@[simp] theorem commitDst_id (op : Op) (core : CoreState) : (commitDst op core).id = core.id := rfl
@[simp] theorem commitDst_running (op : Op) (core : CoreState) : (commitDst op core).running = core.running := rfl
@[simp] theorem commitDst_regs (op : Op) (core : CoreState) : (commitDst op core).regs = core.regs.commit op.regDst op.regDstValue := rfl
@[simp] theorem commitDst_hi (op : Op) (core : CoreState) : (commitDst op core).hi = core.hi := rfl
@[simp] theorem commitDst_lo (op : Op) (core : CoreState) : (commitDst op core).lo = core.lo := rfl
@[simp] theorem commitDst_pc (op : Op) (core : CoreState) : (commitDst op core).pc = core.pc := rfl
@[simp] theorem commitDst_multiplierStall (op : Op) (core : CoreState) : (commitDst op core).multiplierStall = core.multiplierStall := rfl
@[simp] theorem commitDst_branchRecover (op : Op) (core : CoreState) : (commitDst op core).branchRecover = core.branchRecover := rfl
@[simp] theorem commitDst_decodeOp (op : Op) (core : CoreState) : (commitDst op core).decodeOp = core.decodeOp := rfl
@[simp] theorem commitDst_executeOp (op : Op) (core : CoreState) : (commitDst op core).executeOp = core.executeOp := rfl
@[simp] theorem commitDst_memOp (op : Op) (core : CoreState) : (commitDst op core).memOp = core.memOp := rfl
@[simp] theorem commitDst_wbOp (op : Op) (core : CoreState) : (commitDst op core).wbOp = core.wbOp := rfl
@[simp] theorem commitDst_fetched (op : Op) (core : CoreState) : (commitDst op core).fetched = core.fetched := rfl
@[simp] theorem commitDst_retired (op : Op) (core : CoreState) : (commitDst op core).retired = core.retired := rfl
@[simp] theorem commitDst_squashed (op : Op) (core : CoreState) : (commitDst op core).squashed = core.squashed := rfl
@[simp] theorem commitDst_icache (op : Op) (core : CoreState) : (commitDst op core).icache = core.icache := rfl
@[simp] theorem commitDst_dcache (op : Op) (core : CoreState) : (commitDst op core).dcache = core.dcache := rfl

@[simp] theorem retire_id (core : CoreState) : (retire core).id = core.id := rfl
@[simp] theorem retire_running (core : CoreState) : (retire core).running = core.running := rfl
@[simp] theorem retire_regs (core : CoreState) : (retire core).regs = core.regs := rfl
@[simp] theorem retire_hi (core : CoreState) : (retire core).hi = core.hi := rfl
@[simp] theorem retire_lo (core : CoreState) : (retire core).lo = core.lo := rfl
@[simp] theorem retire_pc (core : CoreState) : (retire core).pc = core.pc := rfl
@[simp] theorem retire_multiplierStall (core : CoreState) : (retire core).multiplierStall = core.multiplierStall := rfl
@[simp] theorem retire_branchRecover (core : CoreState) : (retire core).branchRecover = core.branchRecover := rfl
@[simp] theorem retire_decodeOp (core : CoreState) : (retire core).decodeOp = core.decodeOp := rfl
@[simp] theorem retire_executeOp (core : CoreState) : (retire core).executeOp = core.executeOp := rfl
@[simp] theorem retire_memOp (core : CoreState) : (retire core).memOp = core.memOp := rfl
@[simp] theorem retire_wbOp (core : CoreState) : (retire core).wbOp = none := rfl
@[simp] theorem retire_fetched (core : CoreState) : (retire core).fetched = core.fetched := rfl
@[simp] theorem retire_retired (core : CoreState) : (retire core).retired = core.retired + 1 := rfl
@[simp] theorem retire_squashed (core : CoreState) : (retire core).squashed = core.squashed := rfl
@[simp] theorem retire_icache (core : CoreState) : (retire core).icache = core.icache := rfl
@[simp] theorem retire_dcache (core : CoreState) : (retire core).dcache = core.dcache := rfl

@[simp] theorem writeHiLo_id (hi lo : Word) (n : Nat) (core : CoreState) : (writeHiLo hi lo n core).id = core.id := rfl
@[simp] theorem writeHiLo_running (hi lo : Word) (n : Nat) (core : CoreState) : (writeHiLo hi lo n core).running = core.running := rfl
@[simp] theorem writeHiLo_regs (hi lo : Word) (n : Nat) (core : CoreState) : (writeHiLo hi lo n core).regs = core.regs := rfl
@[simp] theorem writeHiLo_hi (hi lo : Word) (n : Nat) (core : CoreState) : (writeHiLo hi lo n core).hi = hi := rfl
@[simp] theorem writeHiLo_lo (hi lo : Word) (n : Nat) (core : CoreState) : (writeHiLo hi lo n core).lo = lo := rfl
@[simp] theorem writeHiLo_pc (hi lo : Word) (n : Nat) (core : CoreState) : (writeHiLo hi lo n core).pc = core.pc := rfl
@[simp] theorem writeHiLo_multiplierStall (hi lo : Word) (n : Nat) (core : CoreState) : (writeHiLo hi lo n core).multiplierStall = n := rfl
@[simp] theorem writeHiLo_branchRecover (hi lo : Word) (n : Nat) (core : CoreState) : (writeHiLo hi lo n core).branchRecover = core.branchRecover := rfl
@[simp] theorem writeHiLo_decodeOp (hi lo : Word) (n : Nat) (core : CoreState) : (writeHiLo hi lo n core).decodeOp = core.decodeOp := rfl
@[simp] theorem writeHiLo_executeOp (hi lo : Word) (n : Nat) (core : CoreState) : (writeHiLo hi lo n core).executeOp = core.executeOp := rfl
@[simp] theorem writeHiLo_memOp (hi lo : Word) (n : Nat) (core : CoreState) : (writeHiLo hi lo n core).memOp = core.memOp := rfl
@[simp] theorem writeHiLo_wbOp (hi lo : Word) (n : Nat) (core : CoreState) : (writeHiLo hi lo n core).wbOp = core.wbOp := rfl
@[simp] theorem writeHiLo_fetched (hi lo : Word) (n : Nat) (core : CoreState) : (writeHiLo hi lo n core).fetched = core.fetched := rfl
@[simp] theorem writeHiLo_retired (hi lo : Word) (n : Nat) (core : CoreState) : (writeHiLo hi lo n core).retired = core.retired := rfl
@[simp] theorem writeHiLo_squashed (hi lo : Word) (n : Nat) (core : CoreState) : (writeHiLo hi lo n core).squashed = core.squashed := rfl
@[simp] theorem writeHiLo_icache (hi lo : Word) (n : Nat) (core : CoreState) : (writeHiLo hi lo n core).icache = core.icache := rfl
@[simp] theorem writeHiLo_dcache (hi lo : Word) (n : Nat) (core : CoreState) : (writeHiLo hi lo n core).dcache = core.dcache := rfl

@[simp] theorem spawnInto_id (op : Op) (core : CoreState) : (spawnInto op core).id = core.id := rfl
@[simp] theorem spawnInto_running (op : Op) (core : CoreState) : (spawnInto op core).running = true := rfl
@[simp] theorem spawnInto_regs (op : Op) (core : CoreState) : (spawnInto op core).regs = core.regs.write Reg.v1 1#32 := rfl
@[simp] theorem spawnInto_hi (op : Op) (core : CoreState) : (spawnInto op core).hi = core.hi := rfl
@[simp] theorem spawnInto_lo (op : Op) (core : CoreState) : (spawnInto op core).lo = core.lo := rfl
@[simp] theorem spawnInto_pc (op : Op) (core : CoreState) : (spawnInto op core).pc = op.pc + 4#32 := rfl
@[simp] theorem spawnInto_multiplierStall (op : Op) (core : CoreState) : (spawnInto op core).multiplierStall = core.multiplierStall := rfl
@[simp] theorem spawnInto_branchRecover (op : Op) (core : CoreState) : (spawnInto op core).branchRecover = core.branchRecover := rfl
@[simp] theorem spawnInto_decodeOp (op : Op) (core : CoreState) : (spawnInto op core).decodeOp = core.decodeOp := rfl
@[simp] theorem spawnInto_executeOp (op : Op) (core : CoreState) : (spawnInto op core).executeOp = core.executeOp := rfl
@[simp] theorem spawnInto_memOp (op : Op) (core : CoreState) : (spawnInto op core).memOp = core.memOp := rfl
@[simp] theorem spawnInto_wbOp (op : Op) (core : CoreState) : (spawnInto op core).wbOp = core.wbOp := rfl
@[simp] theorem spawnInto_fetched (op : Op) (core : CoreState) : (spawnInto op core).fetched = core.fetched := rfl
@[simp] theorem spawnInto_retired (op : Op) (core : CoreState) : (spawnInto op core).retired = core.retired := rfl
@[simp] theorem spawnInto_squashed (op : Op) (core : CoreState) : (spawnInto op core).squashed = core.squashed := rfl
@[simp] theorem spawnInto_icache (op : Op) (core : CoreState) : (spawnInto op core).icache = core.icache := rfl
@[simp] theorem spawnInto_dcache (op : Op) (core : CoreState) : (spawnInto op core).dcache = core.dcache := rfl

@[simp] theorem fillCore_id (addr : Word) (core : CoreState) : (fillCore addr core).id = core.id := rfl
@[simp] theorem fillCore_running (addr : Word) (core : CoreState) : (fillCore addr core).running = core.running := rfl
@[simp] theorem fillCore_regs (addr : Word) (core : CoreState) : (fillCore addr core).regs = core.regs := rfl
@[simp] theorem fillCore_hi (addr : Word) (core : CoreState) : (fillCore addr core).hi = core.hi := rfl
@[simp] theorem fillCore_lo (addr : Word) (core : CoreState) : (fillCore addr core).lo = core.lo := rfl
@[simp] theorem fillCore_pc (addr : Word) (core : CoreState) : (fillCore addr core).pc = core.pc := rfl
@[simp] theorem fillCore_multiplierStall (addr : Word) (core : CoreState) : (fillCore addr core).multiplierStall = core.multiplierStall := rfl
@[simp] theorem fillCore_branchRecover (addr : Word) (core : CoreState) : (fillCore addr core).branchRecover = core.branchRecover := rfl
@[simp] theorem fillCore_decodeOp (addr : Word) (core : CoreState) : (fillCore addr core).decodeOp = core.decodeOp := rfl
@[simp] theorem fillCore_executeOp (addr : Word) (core : CoreState) : (fillCore addr core).executeOp = core.executeOp := rfl
@[simp] theorem fillCore_memOp (addr : Word) (core : CoreState) : (fillCore addr core).memOp = core.memOp := rfl
@[simp] theorem fillCore_wbOp (addr : Word) (core : CoreState) : (fillCore addr core).wbOp = core.wbOp := rfl
@[simp] theorem fillCore_fetched (addr : Word) (core : CoreState) : (fillCore addr core).fetched = core.fetched := rfl
@[simp] theorem fillCore_retired (addr : Word) (core : CoreState) : (fillCore addr core).retired = core.retired := rfl
@[simp] theorem fillCore_squashed (addr : Word) (core : CoreState) : (fillCore addr core).squashed = core.squashed := rfl
@[simp] theorem fillCore_icache (addr : Word) (core : CoreState) : (fillCore addr core).icache = l1Fill addr core.icache := rfl
@[simp] theorem fillCore_dcache (addr : Word) (core : CoreState) : (fillCore addr core).dcache = l1Fill addr core.dcache := rfl

/-! ## The end of execute and the recovery, field by field -/

@[simp] theorem recover_regs (d : Nat) (a : Word) (core : CoreState) : (recover d a core).regs = core.regs := by
  unfold recover; split <;> rfl
@[simp] theorem recover_memOp (d : Nat) (a : Word) (core : CoreState) : (recover d a core).memOp = core.memOp := by
  unfold recover; split <;> rfl
@[simp] theorem recover_wbOp (d : Nat) (a : Word) (core : CoreState) : (recover d a core).wbOp = core.wbOp := by
  unfold recover; split <;> rfl

/-- With no recovery pending, `recover` writes the triple and nothing else (R423). -/
theorem recover_of_not_pending {d : Nat} {a : Word} {core : CoreState} (h : core.branchRecover.pending = false) :
    recover d a core = { core with branchRecover := { pending := true, dest := a, flushDepth := d } } := by
  simp [recover, h]

/-- A pending recovery is kept (R423). -/
theorem recover_of_pending {d : Nat} {a : Word} {core : CoreState} (h : core.branchRecover.pending = true) :
    recover d a core = core := by
  simp [recover, h]

/-- An op that is no taken branch leaves execute with nothing but its move (R415). -/
theorem leaveExecute_of_not_taken {core : CoreState} {op : Op} (h : (op.isBranch && op.branchTaken) = false) :
    leaveExecute core op = { core with memOp := some op, executeOp := none } := by
  simp [leaveExecute, h]

/-- A taken branch leaves execute and schedules its recovery (R415, R423). -/
theorem leaveExecute_of_taken {core : CoreState} {op : Op} (hb : op.isBranch = true) (ht : op.branchTaken = true)
    (hp : core.branchRecover.pending = false) :
    leaveExecute core op =
      { core with
        memOp := some op
        executeOp := none
        branchRecover := { pending := true, dest := op.branchDest, flushDepth := 3 } } := by
  simp [leaveExecute, hb, ht, recover, hp, branchFlushDepth]

/-- A branch leaves execute and schedules its recovery if it is taken (R415, R423). -/
theorem leaveExecute_branch {core : CoreState} {op : Op} (hb : op.isBranch = true)
    (hp : core.branchRecover.pending = false) :
    leaveExecute core op =
      { core with
        branchRecover :=
          if op.branchTaken then { pending := true, dest := op.branchDest, flushDepth := 3 } else core.branchRecover
        memOp := some op
        executeOp := none } := by
  cases ht : op.branchTaken <;> simp [leaveExecute, hb, ht, recover, hp, branchFlushDepth]

/-- With no recovery pending, nothing is applied (R424). -/
theorem applyRecoveryCore_of_clear {core : CoreState} (h : core.branchRecover.pending = false) :
    applyRecoveryCore core = core := by
  simp [applyRecoveryCore, h]

/-! ## Which core an update changes -/

theorem State.modifyCore_same {s : State} {c : Nat} {core : CoreState} (f : CoreState → CoreState)
    (h : s.cores[c]? = some core) : (s.modifyCore c f).cores[c]? = some (f core) := by
  simp [h]

theorem State.modifyCore_other {s : State} {c k : Nat} (f : CoreState → CoreState) (h : k ≠ c) :
    (s.modifyCore c f).cores[k]? = s.cores[k]? := by
  simp [Ne.symm h]

theorem State.setCore_same {s : State} {c : Nat} {core : CoreState} (new : CoreState) (h : s.cores[c]? = some core) :
    (s.setCore c new).cores[c]? = some new := by
  simp [h]

theorem State.setCore_other {s : State} {c k : Nat} (new : CoreState) (h : k ≠ c) :
    (s.setCore c new).cores[k]? = s.cores[k]? := by
  simp [Ne.symm h]

/-- Changing a core twice is changing it once. -/
theorem State.modifyCore_modifyCore (s : State) (c : Nat) (f g : CoreState → CoreState) :
    (s.modifyCore c f).modifyCore c g = s.modifyCore c (g ∘ f) := by
  simp only [State.modifyCore]
  congr 1
  apply List.ext_getElem?
  intro k
  simp only [List.getElem?_modify]
  cases s.cores[k]? <;> by_cases h : c = k <;> simp [h]

/-- What a change makes of a core that is known. -/
theorem State.modifyCore_eq_setCore {s : State} {c : Nat} {core : CoreState} (f : CoreState → CoreState)
    (h : s.cores[c]? = some core) : s.modifyCore c f = s.setCore c (f core) := by
  simp only [State.setCore, State.modifyCore]
  congr 1
  apply List.ext_getElem?
  intro k
  simp only [List.getElem?_modify]
  by_cases hk : c = k
  · subst hk; simp [h]
  · simp [hk]

/-- Setting a core twice is setting it to the last value. -/
@[simp] theorem State.setCore_setCore (s : State) (c : Nat) (a b : CoreState) :
    (s.setCore c a).setCore c b = s.setCore c b := by
  simp only [State.setCore]
  rw [State.modifyCore_modifyCore]
  rfl

/-- Every core after a change is an old core or the change of one. -/
theorem State.mem_modifyCore {s : State} {c : Nat} {f : CoreState → CoreState} {core : CoreState}
    (h : core ∈ (s.modifyCore c f).cores) :
    core ∈ s.cores ∨ ∃ old, s.cores[c]? = some old ∧ core = f old := by
  obtain ⟨k, hk⟩ := List.mem_iff_getElem?.mp h
  rw [State.modifyCore_cores, List.getElem?_modify] at hk
  cases hs : s.cores[k]? with
  | none => simp [hs] at hk
  | some old =>
    rw [hs] at hk
    by_cases hc : c = k
    · subst hc
      right
      exact ⟨old, hs, by simpa using hk.symm⟩
    · left
      have : old = core := by simpa [hc] using hk
      exact this ▸ List.mem_of_getElem? hs

/-! ## Comparisons into a register (R459, R460) -/

theorem setLessSigned_eq (a b : Word) : setLessSigned a b = if a.toInt < b.toInt then 1#32 else 0#32 := by
  by_cases h : a.toInt < b.toInt <;> simp [setLessSigned, boolWord, h]

theorem setLessUnsigned_eq (a b : Word) : setLessUnsigned a b = if a.toNat < b.toNat then 1#32 else 0#32 := by
  by_cases h : a.toNat < b.toNat <;> simp [setLessUnsigned, boolWord, h]

/-- The amount of a variable shift is the low five bits (R305). -/
theorem variableAmount_eq (a : Word) : variableAmount a = a.toNat % 32 := by simp [variableAmount]

/-! ## The register file (R100, R101) -/

@[simp] theorem RegFile.read_zero (rf : RegFile) : rf.read 0#5 = 0#32 := rfl

@[simp] theorem RegFile.write_zero (rf : RegFile) (v : Word) : rf.write 0#5 v = rf := rfl

@[simp] theorem RegFile.commit_none (rf : RegFile) (v : Word) : rf.commit none v = rf := rfl

@[simp] theorem RegFile.commit_some (rf : RegFile) (r : Reg) (v : Word) : rf.commit (some r) v = rf.write r v := rfl

theorem RegFile.read_write_same {r : Reg} (rf : RegFile) (v : Word) (h : r ≠ 0#5) : (rf.write r v).read r = v := by
  simp [RegFile.read, RegFile.write, h]

theorem RegFile.read_write_other {r q : Reg} (rf : RegFile) (v : Word) (h : q ≠ r) :
    (rf.write r v).read q = rf.read q := by
  have hn : r.toNat ≠ q.toNat := fun e => h (BitVec.eq_of_toNat_eq e).symm
  simp only [RegFile.read, RegFile.write]
  split_ifs <;> simp [hn]

/-- Slot 0 is never written (R101). -/
@[simp] theorem RegFile.write_slotZero (rf : RegFile) (r : Reg) (v : Word) : (rf.write r v)[0] = rf[0] := by
  simp only [RegFile.write]
  split_ifs with h
  · rfl
  · have hn : r.toNat ≠ 0 := fun e => h (BitVec.eq_of_toNat_eq e)
    simp [hn]

@[simp] theorem RegFile.commit_slotZero (rf : RegFile) (dst : Option Reg) (v : Word) : (rf.commit dst v)[0] = rf[0] := by
  cases dst <;> simp [RegFile.commit]

end Sys2Proof.Machine
end

