-- ==== Sys2Proof/Laws/Stages.lean ====
section
/-! SUPPORT. What each shared operation of the pipeline can do, once for all instructions: sequencing, the four blocks of every
instruction (R450), the four stages under a known core, and one stage call. -/

namespace Sys2Proof.Machine

/-! ## Sequencing -/

@[simp] theorem andThen_next (s : State) (f : State → Result) : andThen (.next s) f = f s := rfl

/-- A sequence answers a next state exactly when both parts do. -/
theorem andThen_eq_next {o : Result} {f : State → Result} {t : State} :
    andThen o f = .next t ↔ ∃ u, o = .next u ∧ f u = .next t := by
  cases o <;> simp [andThen]

/-! ## The blocks of an instruction (R450) -/

/-- What an instruction does in each stage. -/
structure Blocks where
  decodeBlock : Op → Op
  executeBlock : CoreState → Op → Option (CoreState × Op)
  extract : Word → Word → Word
  merge : Word → Word → Word → Word
  service : Nat → Op → State → State

/-- The stage call in focus, with the given blocks. -/
def Blocks.run (b : Blocks) (s : State) : State :=
  match s.focus.stage with
  | .decode => decodeStage b.decodeBlock s.focus.core s
  | .execute => executeStage b.executeBlock s.focus.core s
  | .mem => memStage b.extract b.merge s.focus.core s
  | .wb => wbStage b.service s.focus.core s

theorem Blocks.run_decode {s : State} {c : Nat} (b : Blocks) (h : s.focus = { core := c, stage := .decode }) :
    b.run s = decodeStage b.decodeBlock c s := by
  simp only [Blocks.run, h]

theorem Blocks.run_execute {s : State} {c : Nat} (b : Blocks) (h : s.focus = { core := c, stage := .execute }) :
    b.run s = executeStage b.executeBlock c s := by
  simp only [Blocks.run, h]

theorem Blocks.run_mem {s : State} {c : Nat} (b : Blocks) (h : s.focus = { core := c, stage := .mem }) :
    b.run s = memStage b.extract b.merge c s := by
  simp only [Blocks.run, h]

theorem Blocks.run_wb {s : State} {c : Nat} (b : Blocks) (h : s.focus = { core := c, stage := .wb }) :
    b.run s = wbStage b.service c s := by
  simp only [Blocks.run, h]

/-- The blocks of an instruction that computes its destination from its sources. -/
def Blocks.alu (src1 src2 : Option Reg) (dst : Reg) (f : Word → Word → Word) : Blocks :=
  ⟨decodeRegs src1 src2 (some dst), executeResult f, noExtract, noMerge, noService⟩

/-- The blocks of a multiply or divide. -/
def Blocks.mulDiv (rs rt : Reg) (f : Word → Word → Word × Word) (latency : Nat) : Blocks :=
  ⟨decodeRegs (some rs) (some rt) none, executeHiLo f latency, noExtract, noMerge, noService⟩

/-- The blocks of a move from or to HI or LO. -/
def Blocks.hiLo (src1 dst : Option Reg) (block : CoreState → Op → CoreState × Op) : Blocks :=
  ⟨decodeRegs src1 none dst, hiLoGuard block, noExtract, noMerge, noService⟩

/-- The blocks of a branch or jump. -/
def Blocks.branch (decodeBlock : Op → Op) (executeBlock : CoreState → Op → Option (CoreState × Op)) : Blocks :=
  ⟨decodeBlock, executeBlock, noExtract, noMerge, noService⟩

/-- The blocks of a load. -/
def Blocks.load (rt rs : Reg) (offset : BitVec 16) (extract : Word → Word → Word) : Blocks :=
  ⟨decodeLoad rt rs, executeLoad offset, extract, noMerge, noService⟩

/-- The blocks of a store. -/
def Blocks.store (rt rs : Reg) (offset : BitVec 16) (merge : Word → Word → Word → Word) : Blocks :=
  ⟨decodeStore rt rs, executeStore offset, noExtract, merge, noService⟩

/-- The blocks of each instruction. -/
def blocksOf : Instr → Blocks
  | .add rd rs rt => .alu (some rs) (some rt) rd fun a b => a + b
  | .addu rd rs rt => .alu (some rs) (some rt) rd fun a b => a + b
  | .sub rd rs rt => .alu (some rs) (some rt) rd fun a b => a - b
  | .subu rd rs rt => .alu (some rs) (some rt) rd fun a b => a - b
  | .and rd rs rt => .alu (some rs) (some rt) rd fun a b => a &&& b
  | .or rd rs rt => .alu (some rs) (some rt) rd fun a b => a ||| b
  | .xor rd rs rt => .alu (some rs) (some rt) rd fun a b => a ^^^ b
  | .nor rd rs rt => .alu (some rs) (some rt) rd fun a b => ~~~(a ||| b)
  | .slt rd rs rt => .alu (some rs) (some rt) rd setLessSigned
  | .sltu rd rs rt => .alu (some rs) (some rt) rd setLessUnsigned
  | .addi rt rs imm => .alu (some rs) none rt fun a _ => a + signedImm imm
  | .addiu rt rs imm => .alu (some rs) none rt fun a _ => a + signedImm imm
  | .slti rt rs imm => .alu (some rs) none rt fun a _ => setLessSigned a (signedImm imm)
  | .sltiu rt rs imm => .alu (some rs) none rt fun a _ => setLessUnsigned a (signedImm imm)
  | .andi rt rs imm => .alu (some rs) none rt fun a _ => a &&& unsignedImm imm
  | .ori rt rs imm => .alu (some rs) none rt fun a _ => a ||| unsignedImm imm
  | .xori rt rs imm => .alu (some rs) none rt fun a _ => a ^^^ unsignedImm imm
  | .lui rt imm => .alu none none rt fun _ _ => upperImm imm
  | .sll rd rt shamt => .alu none (some rt) rd fun _ b => b <<< shamt
  | .srl rd rt shamt => .alu none (some rt) rd fun _ b => b >>> shamt
  | .sra rd rt shamt => .alu none (some rt) rd fun _ b => b.sshiftRight shamt
  | .sllv rd rt rs => .alu (some rs) (some rt) rd fun a b => b <<< variableAmount a
  | .srlv rd rt rs => .alu (some rs) (some rt) rd fun a b => b >>> variableAmount a
  | .srav rd rt rs => .alu (some rs) (some rt) rd fun a b => b.sshiftRight (variableAmount a)
  | .mult rs rt => .mulDiv rs rt (fun a b => (highWord (signedProduct a b), lowWord (signedProduct a b))) multLatency
  | .multu rs rt => .mulDiv rs rt (fun a b => (highWord (unsignedProduct a b), lowWord (unsignedProduct a b))) multLatency
  | .div rs rt => .mulDiv rs rt signedDivide divLatency
  | .divu rs rt => .mulDiv rs rt unsignedDivide divLatency
  | .mfhi rd => .hiLo none (some rd) fun core op => (core, { op with regDstValue := core.hi, regDstValueReady := true })
  | .mflo rd => .hiLo none (some rd) fun core op => (core, { op with regDstValue := core.lo, regDstValueReady := true })
  | .mthi rs => .hiLo (some rs) none fun core op => ({ core with hi := op.regSrc1Value }, op)
  | .mtlo rs => .hiLo (some rs) none fun core op => ({ core with lo := op.regSrc1Value }, op)
  | .beq rs rt offset => .branch (decodeBranch (some rs) (some rt) offset) (executeCond condEq)
  | .bne rs rt offset => .branch (decodeBranch (some rs) (some rt) offset) (executeCond condNe)
  | .blez rs offset => .branch (decodeBranch (some rs) none offset) (executeCond condLez)
  | .bgtz rs offset => .branch (decodeBranch (some rs) none offset) (executeCond condGtz)
  | .bltz rs offset => .branch (decodeBranch (some rs) none offset) (executeCond condLtz)
  | .bgez rs offset => .branch (decodeBranch (some rs) none offset) (executeCond condGez)
  | .bltzal rs offset =>
    .branch (fun op => decodeLink Reg.ra (decodeBranch (some rs) none offset op)) (executeCond condLtz)
  | .bgezal rs offset =>
    .branch (fun op => decodeLink Reg.ra (decodeBranch (some rs) none offset op)) (executeCond condGez)
  | .j target => .branch (decodeJump target) executeNothing
  | .jal target => .branch (fun op => decodeLink Reg.ra (decodeJump target op)) executeNothing
  | .jalr rd rs => .branch (fun op => decodeLink rd (decodeJumpRegister rs op)) executeJumpRegister
  | .jr rs => .branch (decodeJumpRegister rs) executeJumpRegister
  | .lb rt rs offset => .load rt rs offset extractLb
  | .lbu rt rs offset => .load rt rs offset extractLbu
  | .lh rt rs offset => .load rt rs offset extractLh
  | .lhu rt rs offset => .load rt rs offset extractLhu
  | .lw rt rs offset => .load rt rs offset extractLw
  | .sb rt rs offset => .store rt rs offset mergeSb
  | .sh rt rs offset => .store rt rs offset mergeSh
  | .sw rt rs offset => .store rt rs offset mergeSw
  | .syscall => ⟨decodeRegs (some Reg.v0) (some Reg.v1) none, executeNothing, noExtract, noMerge, handleSyscall⟩

/-- The blocks of an unknown word (R320). -/
def blocksUnknown : Blocks := ⟨decodeRegs none none none, executeNothing, noExtract, noMerge, noService⟩

/-- The blocks of the instruction a word encodes. -/
def blocksOfWord (w : Word) : Blocks :=
  match decode w with
  | .ok i => blocksOf i
  | .error _ => blocksUnknown

/-- Every instruction's meaning runs its blocks, and so answers a next state. -/
theorem exec_eq_run (i : Instr) (s : State) : exec i s = .next ((blocksOf i).run s) := by
  cases i <;> rfl

theorem execUnknown_eq_run (s : State) : execUnknown s = .next (blocksUnknown.run s) := rfl

theorem runWord_eq_run (w : Word) (s : State) : runWord w s = .next ((blocksOfWord w).run s) := by
  unfold runWord blocksOfWord
  cases decode w with
  | ok i => exact exec_eq_run i s
  | error e => rfl

/-! ## The stages under a known core -/

section
variable {s : State} {c : Nat} {core : CoreState} {op : Op}

/-- Decode moves its op, with the fields and the block's settings, into an empty execute slot (R406, R407). -/
theorem decodeStage_moves (block : Op → Op) (h : s.cores[c]? = some core) (hd : core.decodeOp = some op)
    (he : core.executeOp = none) :
    decodeStage block c s =
      s.setCore c { core with decodeOp := none, executeOp := some (block (extractFields op)) } := by
  simp [decodeStage, h, hd, he]

/-- Decode waits while the execute slot is full, and does nothing without an op (R406). -/
theorem decodeStage_holds (block : Op → Op) (h : s.cores[c]? = some core)
    (hw : core.decodeOp = none ∨ core.executeOp ≠ none) : decodeStage block c s = s := by
  unfold decodeStage
  simp only [h]
  split
  · rename_i hd he
    exact absurd hw (by simp [hd, he])
  · rfl

/-- With an empty mem slot no source stalls (R413). -/
theorem resolveSource_ne_stall (hm : core.memOp = none) (src : Option Reg) : resolveSource core src ≠ .stall := by
  unfold resolveSource
  cases src with
  | none => simp
  | some r =>
    simp only [hm, writerOf]
    split_ifs
    · simp
    · split <;> simp

/-- With an empty mem slot a source has its program-order value (R412, R413). -/
theorem resolveSource_eq (hm : core.memOp = none) (r : Reg) : resolveSource core (some r) = .value (sourceValue core r) := by
  simp only [resolveSource, hm, writerOf, sourceValue, committedRegs]
  by_cases hr : r = 0#5
  · subst hr; simp
  · simp only [hr, if_false]
    cases hw : core.wbOp with
    | none => rfl
    | some w =>
      simp only
      split_ifs with hd
      · simp [hd, RegFile.read_write_same _ _ hr]
      · cases hdst : w.regDst with
        | none => simp
        | some q =>
          have hq : r ≠ q := fun e => hd (by rw [hdst, e])
          simp [RegFile.read_write_other _ _ hq]

/-- A source that is −1 leaves its value field alone (R412). -/
@[simp] theorem resolveSource_none (core : CoreState) : resolveSource core none = .unchanged := rfl

theorem resolveSources_both (hm : core.memOp = none) {r q : Reg} (h₁ : op.regSrc1 = some r) (h₂ : op.regSrc2 = some q) :
    resolveSources core op = { op with regSrc1Value := sourceValue core r, regSrc2Value := sourceValue core q } := by
  simp [resolveSources, h₁, h₂, resolveSource_eq hm, resolvedValue]

theorem resolveSources_first (hm : core.memOp = none) {r : Reg} (h₁ : op.regSrc1 = some r) (h₂ : op.regSrc2 = none) :
    resolveSources core op = { op with regSrc1Value := sourceValue core r } := by
  simp [resolveSources, h₁, h₂, resolveSource_eq hm, resolvedValue]

theorem resolveSources_second (hm : core.memOp = none) {r : Reg} (h₁ : op.regSrc1 = none) (h₂ : op.regSrc2 = some r) :
    resolveSources core op = { op with regSrc2Value := sourceValue core r } := by
  simp [resolveSources, h₁, h₂, resolveSource_eq hm, resolvedValue]

theorem resolveSources_neither (core : CoreState) (h₁ : op.regSrc1 = none) (h₂ : op.regSrc2 = none) :
    resolveSources core op = op := by
  unfold resolveSources
  rw [h₁, h₂, resolveSource_none]
  cases op
  simp_all [resolvedValue]

theorem sourcesStall_eq_false (hm : core.memOp = none) (op : Op) : sourcesStall core op = false := by
  simp [sourcesStall, resolveSource_ne_stall hm]

/-- Execute under an empty mem slot: the block runs on the op with its sources resolved, and the op moves on unless the
block stalls (R411, R412, R414, R415). -/
theorem executeStage_runs (block : CoreState → Op → Option (CoreState × Op)) (h : s.cores[c]? = some core)
    (he : core.executeOp = some op) (hm : core.memOp = none) :
    executeStage block c s =
      match block core (resolveSources core op) with
      | none => s.setCore c { core with executeOp := some (resolveSources core op) }
      | some (core', op') => s.setCore c (leaveExecute core' op') := by
  simp only [executeStage, h, he, hm, sourcesStall_eq_false hm]
  rfl

/-- Execute waits while the mem slot is full, and does nothing without an op (R411). -/
theorem executeStage_holds (block : CoreState → Op → Option (CoreState × Op)) (h : s.cores[c]? = some core)
    (hw : core.executeOp = none ∨ core.memOp ≠ none) : executeStage block c s = s := by
  unfold executeStage
  simp only [h]
  split
  · rename_i hd he
    exact absurd hw (by simp [hd, he])
  · rfl

/-- An op that accesses no memory passes mem in one call (R416). -/
theorem memStage_passes (extract : Word → Word → Word) (merge : Word → Word → Word → Word) (h : s.cores[c]? = some core)
    (hm : core.memOp = some op) (hn : op.isMem = false) :
    memStage extract merge c s = s.setCore c (leaveMem op core) := by
  simp [memStage, h, hm, hn]

/-- A load or store whose D-cache access does not complete stays in mem, with no memory effect (R416, R603). -/
theorem memStage_waits (extract : Word → Word → Word) (merge : Word → Word → Word → Word) {d : L1} {l2 : L2}
    (h : s.cores[c]? = some core) (hm : core.memOp = some op) (hn : op.isMem = true)
    (ha : l1Access s.cfg s.cycles core.id op.memAddr op.memWrite true core.dcache s.l2 = (false, d, l2)) :
    memStage extract merge c s = { s with l2 := l2 }.setCore c { core with dcache := d } := by
  simp [memStage, h, hm, hn, ha]

/-- A load whose D-cache access completes (R416, R600). -/
theorem memStage_loads (extract : Word → Word → Word) (merge : Word → Word → Word → Word) {d : L1} {l2 : L2}
    (h : s.cores[c]? = some core) (hm : core.memOp = some op) (hn : op.isMem = true) (hw : op.memWrite = false)
    (ha : l1Access s.cfg s.cycles core.id op.memAddr false true core.dcache s.l2 = (true, d, l2)) :
    memStage extract merge c s =
      { s with l2 := l2 }.setCore c
        (leaveMem (loadInto extract (memRead32 s.cfg s.mem op.memAddr) op) { core with dcache := d }) := by
  simp [memStage, h, hm, hn, hw, ha]

/-- A store whose D-cache access completes (R416, R601). -/
theorem memStage_stores (extract : Word → Word → Word) (merge : Word → Word → Word → Word) {d : L1} {l2 : L2}
    (h : s.cores[c]? = some core) (hm : core.memOp = some op) (hn : op.isMem = true) (hw : op.memWrite = true)
    (ha : l1Access s.cfg s.cycles core.id op.memAddr true true core.dcache s.l2 = (true, d, l2)) :
    memStage extract merge c s =
      { s with
        l2 := l2
        mem := memWrite32 s.cfg s.mem op.memAddr (merge op.memAddr (memRead32 s.cfg s.mem op.memAddr) op.memValue) }.setCore
        c (leaveMem op { core with dcache := d }) := by
  simp [memStage, h, hm, hn, hw, ha]

/-- Fetch with an empty decode slot, when its I-cache access completes: the op enters the slot (R404). -/
theorem fetchStage_fetches {icache : L1} {l2 : L2} (h : s.cores[c]? = some core) (hd : core.decodeOp = none)
    (ha : l1Access s.cfg s.cycles core.id core.pc false false core.icache s.l2 = (true, icache, l2)) :
    fetchStage c s =
      State.setCore { s with l2 := l2 } c (fetchInto (memRead32 s.cfg s.mem core.pc) { core with icache := icache }) := by
  simp [fetchStage, h, hd, ha]

/-- Fetch with an empty decode slot, when its I-cache access does not complete: only the caches change (R405). -/
theorem fetchStage_waits {icache : L1} {l2 : L2} (h : s.cores[c]? = some core) (hd : core.decodeOp = none)
    (ha : l1Access s.cfg s.cycles core.id core.pc false false core.icache s.l2 = (false, icache, l2)) :
    fetchStage c s = State.setCore { s with l2 := l2 } c { core with icache := icache } := by
  simp [fetchStage, h, hd, ha]

/-- Writeback without a service commits the destination, empties the slot and counts the op (R420). -/
theorem wbStage_retires (h : s.cores[c]? = some core) (hb : core.wbOp = some op) :
    wbStage noService c s = s.setCore c (retire (commitDst op core)) := by
  simp only [wbStage, h, hb, noService]
  rw [State.modifyCore_modifyCore, State.modifyCore_eq_setCore _ h]
  rfl

end

/-! ## One stage call -/

/-- A stage call answers a next state: without an op the state itself, with one what the op's blocks make of it. -/
theorem callStage_eq (c : Nat) (stage : Stage) (s : State) :
    callStage c stage s =
      .next (match (s.cores[c]?).bind (slotOf stage) with
        | none => s
        | some op => (blocksOfWord op.instruction).run (s.focusOn c stage)) := by
  unfold callStage
  cases (s.cores[c]?).bind (slotOf stage) <;> simp [runWord_eq_run]

end Sys2Proof.Machine
end

