-- ==== Sys2Proof/Laws/Processor.lean ====
section
/-! SUPPORT. The parts of a processor cycle as total functions of the state (no part of it ever stops), and the induction
principles that take a property from the parts of a cycle to the whole step (R401, R740–R742). -/

namespace Sys2Proof.Machine

/-! ## The parts of a cycle, as functions -/

/-- What a stage call leaves. -/
def callRun (c : Nat) (stage : Stage) (s : State) : State :=
  match (s.cores[c]?).bind (slotOf stage) with
  | none => s
  | some op => (blocksOfWord op.instruction).run (s.focusOn c stage)

/-- What a pipeline cycle leaves. -/
def pipelineRun (c : Nat) (s : State) : State :=
  (fetchStage c
    (callRun c .decode
      (callRun c .execute ((callRun c .mem (callRun c .wb s)).modifyCore c decrementMultiplier)))).modifyCore c
    applyRecoveryCore

/-- What a core's tick leaves. -/
def tickRun (c : Nat) (s : State) : State :=
  match s.cores[c]? with
  | none => s
  | some core => if core.running then pipelineRun c s else s

/-- What the ticks of the listed cores leave. -/
def ticksRun (cs : List Nat) (s : State) : State := cs.foldl (fun s c => tickRun c s) s

/-- What a processor cycle leaves. -/
def cycleRun (s : State) : State := countCycle (ticksRun (List.range s.cfg.numCores) (l2Phase (dramPhase s)))

theorem callStage_next (c : Nat) (stage : Stage) (s : State) : callStage c stage s = .next (callRun c stage s) :=
  callStage_eq c stage s

theorem pipelineCycle_next (c : Nat) (s : State) : pipelineCycle c s = .next (pipelineRun c s) := by
  simp [pipelineCycle, callExecute, callStage_next, pipelineRun]

theorem tickCore_next (c : Nat) (s : State) : tickCore c s = .next (tickRun c s) := by
  unfold tickCore tickRun
  cases s.cores[c]? with
  | none => rfl
  | some core =>
    simp only
    split
    · exact pipelineCycle_next c s
    · rfl

theorem tickCores_next (cs : List Nat) (s : State) : tickCores cs s = .next (ticksRun cs s) := by
  induction cs generalizing s with
  | nil => rfl
  | cons c rest ih => simp [tickCores, tickCore_next, ih, ticksRun]

theorem processorCycle_next (s : State) : processorCycle s = .next (cycleRun s) := by
  simp [processorCycle, tickCores_next, cycleRun]

/-- A step answers the cycle's state for an admitted configuration, and refuses any other (R11, R703). -/
theorem step_eq (s : State) :
    step s = if configAdmitted s.cfg then .next (cycleRun s) else .refused .configurationNotAdmitted := by
  unfold step; rw [processorCycle_next]

theorem step_eq_next {s t : State} : step s = .next t ↔ configAdmitted s.cfg = true ∧ t = cycleRun s := by
  rw [step_eq]
  by_cases h : configAdmitted s.cfg = true
  · rw [if_pos h]
    constructor
    · intro e; injection e with e; exact ⟨h, e.symm⟩
    · rintro ⟨_, rfl⟩; rfl
  · rw [if_neg h]
    constructor
    · intro e; cases e
    · rintro ⟨h', _⟩; exact absurd h' h

/-! ## Induction over the parts of a cycle -/

/-- A property that every part of a tick keeps is kept by the tick. -/
theorem pipelineRun_induct {P : State → Prop} {c : Nat} {s : State} (hs : P s)
    (hcall : ∀ stage s, P s → P (callRun c stage s))
    (hdec : ∀ s, P s → P (s.modifyCore c decrementMultiplier))
    (hfetch : ∀ s, P s → P (fetchStage c s))
    (hrec : ∀ s, P s → P (s.modifyCore c applyRecoveryCore)) : P (pipelineRun c s) :=
  hrec _ (hfetch _ (hcall _ _ (hcall _ _ (hdec _ (hcall _ _ (hcall _ _ hs))))))

theorem tickRun_induct {P : State → Prop} {c : Nat} {s : State} (hs : P s)
    (hpipe : ∀ core, s.cores[c]? = some core → core.running = true → P (pipelineRun c s)) : P (tickRun c s) := by
  unfold tickRun
  split
  · exact hs
  · rename_i core h
    split
    · exact hpipe core h ‹_›
    · exact hs

theorem ticksRun_induct {P : State → Prop} {cs : List Nat} {s : State} (hs : P s)
    (htick : ∀ c s, P s → P (tickRun c s)) : P (ticksRun cs s) := by
  unfold ticksRun
  induction cs generalizing s with
  | nil => exact hs
  | cons c rest ih => exact ih (htick c s hs)

/-- A property that the DRAM, the L2, every tick and the count keep is kept by a step. -/
theorem step_induct {P : State → Prop} {s t : State} (h : step s = .next t) (hs : P s)
    (hdram : ∀ s, P s → P (dramPhase s)) (hl2 : ∀ s, P s → P (l2Phase s)) (htick : ∀ c s, P s → P (tickRun c s))
    (hcount : ∀ s, P s → P (countCycle s)) : P t := by
  obtain ⟨_, rfl⟩ := step_eq_next.mp h
  exact hcount _ (ticksRun_induct (hl2 _ (hdram _ hs)) htick)

/-! ## What a stage call can do -/

/-- A stage call is a stage of one op's blocks on the state in focus, or nothing. -/
theorem callRun_cases (c : Nat) (stage : Stage) (s : State) :
    callRun c stage s = s ∨ ∃ core op, s.cores[c]? = some core ∧ slotOf stage core = some op ∧
      callRun c stage s = (blocksOfWord op.instruction).run (s.focusOn c stage) := by
  unfold callRun
  cases hs : s.cores[c]? with
  | none => simp
  | some core =>
    cases hop : slotOf stage core with
    | none => simp [hop]
    | some op => right; exact ⟨core, op, rfl, hop, by simp [hop]⟩

end Sys2Proof.Machine
end

