-- ==== Sys2Proof/Laws/CoreCycle.lean ====
section
/-! SUPPORT. What one pipeline cycle can do to a core and to the rest of the machine, said once: five relations between a core
before and after a stage (R401–R420), the frame of each stage call, and what a tick leaves. -/

namespace Sys2Proof.Machine

/-! ## One stage, on the core that is called -/

/-- Writeback (R420, R654–R656): nothing, or the op in the slot commits, is counted, and may write `$v1`, PC and `running`. -/
def WbEffect (core core' : CoreState) : Prop :=
  (core.wbOp = none ∧ core' = core) ∨
  ∃ (op : Op) (regs : RegFile) (pc : Word) (running : Bool), core.wbOp = some op ∧ regs[0] = core.regs[0] ∧
    core' = { core with regs := regs, pc := pc, running := running, wbOp := none, retired := core.retired + 1 }

/-- Mem (R416): nothing, a D-cache access that does not complete, or the op moves to the wb slot, a load with its value. -/
def MemEffect (core core' : CoreState) : Prop :=
  (core.memOp = none ∧ core' = core) ∨
  (∃ (op : Op) (dcache : L1), core.memOp = some op ∧ op.isMem = true ∧ core' = { core with dcache := dcache }) ∨
  ∃ (op op' : Op) (dcache : L1), core.memOp = some op ∧ core' = { core with dcache := dcache, memOp := none, wbOp := some op' } ∧
    (((op.isMem = false ∨ op.memWrite = true) ∧ op' = op) ∨
      (op.isMem = true ∧ op.memWrite = false ∧ ∃ v, op' = { op with regDstValue := v, regDstValueReady := true }))

/-- Execute after the decrement (R411–R415): nothing, or the op's block runs on its resolved sources, and the op stays or
moves to the mem slot. -/
def ExecuteEffect (core core' : CoreState) : Prop :=
  ((core.executeOp = none ∨ core.memOp ≠ none) ∧ core' = core) ∨
  ∃ op : Op, core.executeOp = some op ∧ core.memOp = none ∧
    (((blocksOfWord op.instruction).executeBlock core (resolveSources core op) = none ∧
        core' = { core with executeOp := some (resolveSources core op) }) ∨
      ∃ (next : CoreState) (op' : Op),
        (blocksOfWord op.instruction).executeBlock core (resolveSources core op) = some (next, op') ∧
        core' = leaveExecute next op')

/-- Decode (R406, R407): nothing, or the op moves to the execute slot. -/
def DecodeEffect (core core' : CoreState) : Prop :=
  ((core.decodeOp = none ∨ core.executeOp ≠ none) ∧ core' = core) ∨
  ∃ op : Op, core.decodeOp = some op ∧ core.executeOp = none ∧
    core' = { core with
      decodeOp := none, executeOp := some ((blocksOfWord op.instruction).decodeBlock (extractFields op)) }

/-- Fetch (R403–R405): nothing, an I-cache access that does not complete, or a new op. -/
def FetchEffect (core core' : CoreState) : Prop :=
  core' = core ∨ (∃ icache : L1, core.decodeOp = none ∧ core' = { core with icache := icache }) ∨
    ∃ (icache : L1) (w : Word), core.decodeOp = none ∧ core' = fetchInto w { core with icache := icache }

/-- The whole pipeline cycle of a core (R401). -/
def CoreCycle (core core' : CoreState) : Prop :=
  ∃ wb mem exe dec fet : CoreState, WbEffect core wb ∧ MemEffect wb mem ∧ ExecuteEffect (decrementMultiplier mem) exe ∧
    DecodeEffect exe dec ∧ FetchEffect dec fet ∧ core' = applyRecoveryCore fet

/-- What a spawn can do to another core (R656). -/
def SpawnEffect (core core' : CoreState) : Prop :=
  core' = core ∨ ∃ pc : Word, core.running = false ∧
    core' = { core with pc := pc, regs := core.regs.write Reg.v1 1#32, running := true }

/-! ## The rest of the machine -/

/-- What a stage of core `c` leaves of everything but core `c`, the L2 and functional memory: nothing changes but by a spawn,
and the output only grows. -/
structure Elsewhere (c : Nat) (s t : State) : Prop where
  cfg : t.cfg = s.cfg
  dram : t.dram = s.dram
  cycles : t.cycles = s.cycles
  output : s.output <+: t.output
  length : t.cores.length = s.cores.length
  others : ∀ (k : Nat) (other : CoreState), k ≠ c → s.cores[k]? = some other →
    ∃ other' : CoreState, t.cores[k]? = some other' ∧ SpawnEffect other other'

theorem Elsewhere.refl (c : Nat) (s : State) : Elsewhere c s s :=
  { cfg := rfl, dram := rfl, cycles := rfl, output := List.prefix_refl _, length := rfl,
    others := fun _ other _ h => ⟨other, h, .inl rfl⟩ }

/-- Two spawns of one core in a row: the second finds it running. -/
theorem SpawnEffect.trans {a b d : CoreState} (h : SpawnEffect a b) (h' : SpawnEffect b d) : SpawnEffect a d := by
  rcases h with rfl | ⟨pc, hr, rfl⟩
  · exact h'
  · rcases h' with rfl | ⟨pc', hr', _⟩
    · exact .inr ⟨pc, hr, rfl⟩
    · cases hr'

theorem Elsewhere.trans {c : Nat} {s t u : State} (h : Elsewhere c s t) (h' : Elsewhere c t u) : Elsewhere c s u where
  cfg := h'.cfg.trans h.cfg
  dram := h'.dram.trans h.dram
  cycles := h'.cycles.trans h.cycles
  output := h.output.trans h'.output
  length := h'.length.trans h.length
  others := fun k other hk ho => by
    obtain ⟨a, ha, h1⟩ := h.others k other hk ho
    obtain ⟨b, hb, h2⟩ := h'.others k a hk ha
    exact ⟨b, hb, h1.trans h2⟩

/-- Changing core `c` changes nothing elsewhere. -/
theorem Elsewhere.modifyCore (c : Nat) (s : State) (f : CoreState → CoreState) : Elsewhere c s (s.modifyCore c f) where
  cfg := rfl
  dram := rfl
  cycles := rfl
  output := List.prefix_refl _
  length := by simp
  others := fun k other hk ho => ⟨other, by rw [State.modifyCore_other f hk, ho], .inl rfl⟩

/-- Nor does a new L2, a new memory, or the focus. -/
theorem Elsewhere.shared (c : Nat) (s : State) (l2 : L2) (mem : Memory) (focus : Focus) :
    Elsewhere c s { s with l2 := l2, mem := mem, focus := focus } :=
  { cfg := rfl, dram := rfl, cycles := rfl, output := List.prefix_refl _, length := rfl,
    others := fun _ other _ h => ⟨other, h, .inl rfl⟩ }

/-! ## Writeback -/

/-- Every instruction's service at writeback is none, or SYSCALL's. -/
theorem service_cases (w : Word) :
    (blocksOfWord w).service = noService ∨ (blocksOfWord w).service = handleSyscall := by
  unfold blocksOfWord
  cases decode w with
  | error e => exact .inl rfl
  | ok i => cases i <;> first | exact .inl rfl | exact .inr rfl

/-- What SYSCALL's service does to its own core: at most register 3, PC and `running`. -/
theorem handleSyscall_own {s : State} {c : Nat} {core : CoreState} (op : Op) (h : s.cores[c]? = some core) :
    ∃ (regs : RegFile) (pc : Word) (running : Bool), regs[0] = core.regs[0] ∧
      (handleSyscall c op s).cores[c]? = some { core with regs := regs, pc := pc, running := running } := by
  unfold handleSyscall
  simp only [h]
  split_ifs
  · exact ⟨core.regs, op.pc, false, rfl, State.modifyCore_same _ h⟩
  · exact ⟨core.regs, core.pc, core.running, rfl, h⟩
  · unfold serviceSpawn
    split_ifs
    · by_cases ht : op.regSrc1Value.toNat = c
      · rw [ht, State.modifyCore_modifyCore]
        refine ⟨_, _, _, ?_, State.modifyCore_same _ h⟩
        simp
      · refine ⟨_, core.pc, core.running, ?_,
          State.modifyCore_same _ (by rw [State.modifyCore_other _ (Ne.symm ht)]; exact h)⟩
        simp
    · exact ⟨core.regs, core.pc, core.running, rfl, h⟩
  · exact ⟨core.regs, core.pc, core.running, rfl, h⟩

/-- SYSCALL's service elsewhere: a spawn at most. -/
theorem handleSyscall_elsewhere (c : Nat) (op : Op) (s : State) : Elsewhere c s (handleSyscall c op s) := by
  unfold handleSyscall
  split
  · exact .refl c s
  · dsimp only
    split_ifs
    · exact .modifyCore c s _
    · exact { Elsewhere.refl c s with output := List.prefix_append _ _ }
    · unfold serviceSpawn
      split_ifs with h
      · refine Elsewhere.trans ?_ (.modifyCore c _ _)
        refine { Elsewhere.refl c s with length := by simp, others := fun k other hk ho => ?_ }
        by_cases ht : k = op.regSrc1Value.toNat
        · subst ht
          refine ⟨_, State.modifyCore_same _ ho, .inr ⟨op.pc + 4#32, ?_, rfl⟩⟩
          have hi := h.2
          simp only [idleTarget, ho, Option.any_some, Bool.and_eq_true, Bool.not_eq_true', decide_eq_true_eq] at hi
          exact hi.2
        · exact ⟨other, by rw [State.modifyCore_other _ ht, ho], .inl rfl⟩
      · exact .refl c s
    · exact .refl c s

/-- SYSCALL's service touches neither memory nor the L2. -/
theorem handleSyscall_shared (c : Nat) (op : Op) (s : State) :
    (handleSyscall c op s).mem = s.mem ∧ (handleSyscall c op s).l2 = s.l2 := by
  unfold handleSyscall serviceSpawn
  split
  · exact ⟨rfl, rfl⟩
  · dsimp only
    split_ifs <;> exact ⟨rfl, rfl⟩

/-- A writeback call (R420). -/
theorem callRun_wb {s : State} {c : Nat} {core : CoreState} (h : s.cores[c]? = some core) :
    (∃ core', (callRun c .wb s).cores[c]? = some core' ∧ WbEffect core core') ∧ Elsewhere c s (callRun c .wb s) ∧
      (callRun c .wb s).mem = s.mem ∧ (callRun c .wb s).l2 = s.l2 := by
  unfold callRun
  simp only [h, Option.bind_some, slotOf]
  cases hb : core.wbOp with
  | none => exact ⟨⟨core, h, .inl ⟨hb, rfl⟩⟩, .refl c s, rfl, rfl⟩
  | some op =>
    simp only [Blocks.run_wb (c := c) _ (show (s.focusOn c .wb).focus = _ from rfl), wbStage, State.focusOn_cores, h, hb]
    rcases service_cases op.instruction with hs | hs
    · rw [hs]
      simp only [noService]
      rw [State.modifyCore_modifyCore]
      refine ⟨⟨_, State.modifyCore_same _ (by exact h), .inr ⟨op, _, core.pc, core.running, hb, ?_, rfl⟩⟩, ?_, rfl, rfl⟩
      · exact RegFile.commit_slotZero _ _ _
      · exact (Elsewhere.shared c s s.l2 s.mem _).trans (.modifyCore c _ _)
    · rw [hs]
      have h1 : ((s.focusOn c .wb).modifyCore c (commitDst op)).cores[c]? = some (commitDst op core) :=
        State.modifyCore_same _ (by exact h)
      obtain ⟨regs, pc, running, h0, h2⟩ := handleSyscall_own op h1
      obtain ⟨hm, hl⟩ := handleSyscall_shared c op ((s.focusOn c .wb).modifyCore c (commitDst op))
      refine ⟨⟨_, State.modifyCore_same _ h2, .inr ⟨op, regs, pc, running, hb, ?_, rfl⟩⟩, ?_, hm, hl⟩
      · rw [h0]; exact RegFile.commit_slotZero _ _ _
      · exact (((Elsewhere.shared c s s.l2 s.mem _).trans (.modifyCore c _ _)).trans (handleSyscall_elsewhere c op _)).trans
          (.modifyCore c _ _)

/-! ## The other stages -/

/-- Setting core `c`, the L2 and memory changes nothing elsewhere. -/
theorem Elsewhere.setCore (c : Nat) (s : State) (l2 : L2) (mem : Memory) (focus : Focus) (core : CoreState) :
    Elsewhere c s (State.setCore { s with l2 := l2, mem := mem, focus := focus } c core) :=
  (Elsewhere.shared c s l2 mem focus).trans (.modifyCore c _ _)

/-- A mem call (R416): the L2 as the D-cache access leaves it, and memory as a store leaves it. -/
theorem callRun_mem {s : State} {c : Nat} {core : CoreState} (h : s.cores[c]? = some core) :
    ∃ core', (callRun c .mem s).cores[c]? = some core' ∧ MemEffect core core' ∧ Elsewhere c s (callRun c .mem s) ∧
      ((callRun c .mem s).mem = s.mem ∨ ∃ a v, (callRun c .mem s).mem = memWrite32 s.cfg s.mem a v) ∧
      (((callRun c .mem s).l2 = s.l2 ∧ core'.dcache = core.dcache) ∨
        ∃ a w done, l1Access s.cfg s.cycles core.id a w true core.dcache s.l2 =
          (done, core'.dcache, (callRun c .mem s).l2)) := by
  unfold callRun
  simp only [h, Option.bind_some, slotOf]
  cases hm : core.memOp with
  | none => exact ⟨core, h, .inl ⟨hm, rfl⟩, .refl c s, .inl rfl, .inl ⟨rfl, rfl⟩⟩
  | some op =>
    have hf : (s.focusOn c .mem).cores[c]? = some core := h
    simp only
    rw [Blocks.run_mem (c := c) _ rfl]
    cases hn : op.isMem with
    | false =>
      rw [memStage_passes _ _ hf hm hn]
      refine ⟨_, State.setCore_same _ hf, ?_, .setCore c s s.l2 s.mem _ _, .inl rfl, .inl ⟨rfl, rfl⟩⟩
      exact .inr (.inr ⟨op, op, core.dcache, hm, rfl, .inl ⟨.inl hn, rfl⟩⟩)
    | true =>
      rcases ha : l1Access s.cfg s.cycles core.id op.memAddr op.memWrite true core.dcache s.l2 with ⟨done, d, l2⟩
      cases done with
      | false =>
        rw [memStage_waits _ _ hf hm hn (by exact ha)]
        refine ⟨_, State.setCore_same _ hf, ?_, .setCore c s l2 s.mem _ _, .inl rfl, .inr ⟨_, _, _, ha⟩⟩
        exact .inr (.inl ⟨op, d, hm, hn, rfl⟩)
      | true =>
        cases hw : op.memWrite with
        | true =>
          rw [hw] at ha
          rw [memStage_stores _ _ hf hm hn hw (by exact ha)]
          refine ⟨_, State.setCore_same _ hf, ?_, .setCore c s l2 _ _ _, .inr ⟨_, _, rfl⟩, .inr ⟨_, _, _, ha⟩⟩
          exact .inr (.inr ⟨op, op, d, hm, rfl, .inl ⟨.inr hw, rfl⟩⟩)
        | false =>
          rw [hw] at ha
          rw [memStage_loads _ _ hf hm hn hw (by exact ha)]
          refine ⟨_, State.setCore_same _ hf, ?_, .setCore c s l2 s.mem _ _, .inl rfl, .inr ⟨_, _, _, ha⟩⟩
          exact .inr (.inr ⟨op, _, d, hm, rfl, .inr ⟨hn, hw, _, rfl⟩⟩)

/-- An execute call (R411–R415). -/
theorem callRun_execute {s : State} {c : Nat} {core : CoreState} (h : s.cores[c]? = some core) :
    (∃ core', (callRun c .execute s).cores[c]? = some core' ∧ ExecuteEffect core core') ∧
      Elsewhere c s (callRun c .execute s) ∧ (callRun c .execute s).mem = s.mem ∧ (callRun c .execute s).l2 = s.l2 := by
  unfold callRun
  simp only [h, Option.bind_some, slotOf]
  cases he : core.executeOp with
  | none => exact ⟨⟨core, h, .inl ⟨.inl he, rfl⟩⟩, .refl c s, rfl, rfl⟩
  | some op =>
    have hf : (s.focusOn c .execute).cores[c]? = some core := h
    simp only
    rw [Blocks.run_execute (c := c) _ rfl]
    by_cases hm : core.memOp = none
    · rw [executeStage_runs _ hf he hm]
      cases hb : (blocksOfWord op.instruction).executeBlock core (resolveSources core op) with
      | none =>
        exact ⟨⟨_, State.setCore_same _ hf, .inr ⟨op, he, hm, .inl ⟨hb, rfl⟩⟩⟩, .setCore c s s.l2 s.mem _ _, rfl, rfl⟩
      | some p =>
        exact ⟨⟨_, State.setCore_same _ hf, .inr ⟨op, he, hm, .inr ⟨p.1, p.2, hb, rfl⟩⟩⟩, .setCore c s s.l2 s.mem _ _, rfl, rfl⟩
    · rw [executeStage_holds _ hf (.inr hm)]
      exact ⟨⟨core, h, .inl ⟨.inr hm, rfl⟩⟩, .shared c s s.l2 s.mem _, rfl, rfl⟩

/-- A decode call (R406, R407). -/
theorem callRun_decode {s : State} {c : Nat} {core : CoreState} (h : s.cores[c]? = some core) :
    (∃ core', (callRun c .decode s).cores[c]? = some core' ∧ DecodeEffect core core') ∧
      Elsewhere c s (callRun c .decode s) ∧ (callRun c .decode s).mem = s.mem ∧ (callRun c .decode s).l2 = s.l2 := by
  unfold callRun
  simp only [h, Option.bind_some, slotOf]
  cases hd : core.decodeOp with
  | none => exact ⟨⟨core, h, .inl ⟨.inl hd, rfl⟩⟩, .refl c s, rfl, rfl⟩
  | some op =>
    have hf : (s.focusOn c .decode).cores[c]? = some core := h
    simp only
    rw [Blocks.run_decode (c := c) _ rfl]
    by_cases he : core.executeOp = none
    · rw [decodeStage_moves _ hf hd he]
      exact ⟨⟨_, State.setCore_same _ hf, .inr ⟨op, hd, he, rfl⟩⟩, .setCore c s s.l2 s.mem _ _, rfl, rfl⟩
    · rw [decodeStage_holds _ hf (.inr he)]
      exact ⟨⟨core, h, .inl ⟨.inr he, rfl⟩⟩, .shared c s s.l2 s.mem _, rfl, rfl⟩

/-- Fetch (R403–R405). -/
theorem fetchStage_effect {s : State} {c : Nat} {core : CoreState} (h : s.cores[c]? = some core) :
    ∃ core', (fetchStage c s).cores[c]? = some core' ∧ FetchEffect core core' ∧ Elsewhere c s (fetchStage c s) ∧
      (fetchStage c s).mem = s.mem ∧
      (((fetchStage c s).l2 = s.l2 ∧ core'.icache = core.icache) ∨
        ∃ done, l1Access s.cfg s.cycles core.id core.pc false false core.icache s.l2 =
          (done, core'.icache, (fetchStage c s).l2)) := by
  unfold fetchStage
  simp only [h]
  cases hd : core.decodeOp with
  | some op => exact ⟨core, by simpa using h, .inl rfl, by simpa using .refl c s, by simp, .inl (by simp)⟩
  | none =>
    simp only [Option.isSome_none, Bool.false_eq_true, if_false]
    rcases ha : l1Access s.cfg s.cycles core.id core.pc false false core.icache s.l2 with ⟨done, i, l2⟩
    cases done with
    | false =>
      exact ⟨_, State.setCore_same _ (by exact h), .inr (.inl ⟨i, hd, by simp [hd]⟩), .setCore c s l2 s.mem s.focus _, rfl,
        .inr ⟨_, rfl⟩⟩
    | true =>
      exact ⟨_, State.setCore_same _ (by exact h), .inr (.inr ⟨i, memRead32 s.cfg s.mem core.pc, hd, by simp [hd]⟩),
        .setCore c s l2 s.mem s.focus _, rfl, .inr ⟨_, rfl⟩⟩

/-! ## The whole pipeline cycle -/

/-- One pipeline cycle of core `c`: its core makes one `CoreCycle`, and elsewhere a spawn happens at most; memory changes by
one store at most. -/
theorem pipelineRun_effect {s : State} {c : Nat} {core : CoreState} (h : s.cores[c]? = some core) :
    (∃ core', (pipelineRun c s).cores[c]? = some core' ∧ CoreCycle core core') ∧ Elsewhere c s (pipelineRun c s) ∧
      ((pipelineRun c s).mem = s.mem ∨ ∃ a v, (pipelineRun c s).mem = memWrite32 s.cfg s.mem a v) := by
  obtain ⟨⟨wb, h1, e1⟩, w1, m1, -⟩ := callRun_wb h
  obtain ⟨mem, h2, e2, w2, m2, -⟩ := callRun_mem h1
  have h3 := State.modifyCore_same decrementMultiplier h2
  have w3 := Elsewhere.modifyCore c (callRun c .mem (callRun c .wb s)) decrementMultiplier
  obtain ⟨⟨exe, h4, e4⟩, w4, m4, -⟩ := callRun_execute h3
  obtain ⟨⟨dec, h5, e5⟩, w5, m5, -⟩ := callRun_decode h4
  obtain ⟨fet, h6, e6, w6, m6, -⟩ := fetchStage_effect h5
  refine ⟨⟨_, State.modifyCore_same _ h6, wb, mem, exe, dec, fet, e1, e2, e4, e5, e6, rfl⟩, ?_, ?_⟩
  · exact ((((w1.trans w2).trans w3).trans w4).trans w5).trans (w6.trans (.modifyCore c _ _))
  · have hm : (pipelineRun c s).mem = (callRun c .mem (callRun c .wb s)).mem := by
      unfold pipelineRun
      rw [State.modifyCore_mem, m6, m5, m4, State.modifyCore_mem]
    rw [hm]
    rw [m1, w1.cfg] at m2
    exact m2

end Sys2Proof.Machine
end

