-- ==== Sys2Proof/Laws/Encoding.lean ====
section
/-! SUPPORT. The fields of an encoded word, format by format (R301–R303), and the masks of R307 as fields of a word. -/

namespace Sys2Proof

/-! ## Bits of the three formats -/

theorem rWord_getLsbD (rs rt rd : Reg) (shamt : BitVec 5) (funct : BitVec 6) (i : Nat) :
    (rWord rs rt rd shamt funct).getLsbD i =
      if i < 6 then funct.getLsbD i else if i < 11 then shamt.getLsbD (i - 6) else if i < 16 then rd.getLsbD (i - 11)
      else if i < 21 then rt.getLsbD (i - 16) else if i < 26 then rs.getLsbD (i - 21) else false := by
  show (0#6 ++ rs ++ rt ++ rd ++ shamt ++ funct : BitVec (6 + 5 + 5 + 5 + 5 + 6)).getLsbD i = _
  simp only [BitVec.getLsbD_append, BitVec.getLsbD_zero]
  split_ifs <;> first | rfl | omega

theorem iWord_getLsbD (opcode : BitVec 6) (rs rt : Reg) (imm : BitVec 16) (i : Nat) :
    (iWord opcode rs rt imm).getLsbD i =
      if i < 16 then imm.getLsbD i else if i < 21 then rt.getLsbD (i - 16) else if i < 26 then rs.getLsbD (i - 21)
      else opcode.getLsbD (i - 26) := by
  show (opcode ++ rs ++ rt ++ imm : BitVec (6 + 5 + 5 + 16)).getLsbD i = _
  simp only [BitVec.getLsbD_append]
  split_ifs <;> first | rfl | omega

theorem jWord_getLsbD (opcode : BitVec 6) (target : BitVec 26) (i : Nat) :
    (jWord opcode target).getLsbD i = if i < 26 then target.getLsbD i else opcode.getLsbD (i - 26) := by
  show (opcode ++ target : BitVec (6 + 26)).getLsbD i = _
  simp only [BitVec.getLsbD_append]

/-! ## Fields of the three formats -/

section R
variable (rs rt rd : Reg) (shamt : BitVec 5) (funct : BitVec 6)

@[simp] theorem fieldOpcode_rWord : fieldOpcode (rWord rs rt rd shamt funct) = 0#6 := by
  ext i hi
  simp only [fieldOpcode, BitVec.getElem_extractLsb', rWord_getLsbD]
  rw [if_neg (by omega), if_neg (by omega), if_neg (by omega), if_neg (by omega), if_neg (by omega)]
  simp

@[simp] theorem fieldRs_rWord : fieldRs (rWord rs rt rd shamt funct) = rs := by
  ext i hi
  simp only [fieldRs, BitVec.getElem_extractLsb', rWord_getLsbD]
  rw [if_neg (by omega), if_neg (by omega), if_neg (by omega), if_neg (by omega), if_pos (by omega)]
  simp [BitVec.getLsbD_eq_getElem hi]

@[simp] theorem fieldRt_rWord : fieldRt (rWord rs rt rd shamt funct) = rt := by
  ext i hi
  simp only [fieldRt, BitVec.getElem_extractLsb', rWord_getLsbD]
  rw [if_neg (by omega), if_neg (by omega), if_neg (by omega), if_pos (by omega)]
  simp [BitVec.getLsbD_eq_getElem hi]

@[simp] theorem fieldRd_rWord : fieldRd (rWord rs rt rd shamt funct) = rd := by
  ext i hi
  simp only [fieldRd, BitVec.getElem_extractLsb', rWord_getLsbD]
  rw [if_neg (by omega), if_neg (by omega), if_pos (by omega)]
  simp [BitVec.getLsbD_eq_getElem hi]

@[simp] theorem fieldShamt_rWord : fieldShamt (rWord rs rt rd shamt funct) = shamt := by
  ext i hi
  simp only [fieldShamt, BitVec.getElem_extractLsb', rWord_getLsbD]
  rw [if_neg (by omega), if_pos (by omega)]
  simp [BitVec.getLsbD_eq_getElem hi]

@[simp] theorem fieldFunct_rWord : fieldFunct (rWord rs rt rd shamt funct) = funct := by
  ext i hi
  simp only [fieldFunct, BitVec.getElem_extractLsb', rWord_getLsbD]
  rw [if_pos (by omega)]
  simp [BitVec.getLsbD_eq_getElem hi]

end R

section I
variable (opcode : BitVec 6) (rs rt : Reg) (imm : BitVec 16)

@[simp] theorem fieldOpcode_iWord : fieldOpcode (iWord opcode rs rt imm) = opcode := by
  ext i hi
  simp only [fieldOpcode, BitVec.getElem_extractLsb', iWord_getLsbD]
  rw [if_neg (by omega), if_neg (by omega), if_neg (by omega)]
  simp [BitVec.getLsbD_eq_getElem hi]

@[simp] theorem fieldRs_iWord : fieldRs (iWord opcode rs rt imm) = rs := by
  ext i hi
  simp only [fieldRs, BitVec.getElem_extractLsb', iWord_getLsbD]
  rw [if_neg (by omega), if_neg (by omega), if_pos (by omega)]
  simp [BitVec.getLsbD_eq_getElem hi]

@[simp] theorem fieldRt_iWord : fieldRt (iWord opcode rs rt imm) = rt := by
  ext i hi
  simp only [fieldRt, BitVec.getElem_extractLsb', iWord_getLsbD]
  rw [if_neg (by omega), if_pos (by omega)]
  simp [BitVec.getLsbD_eq_getElem hi]

@[simp] theorem fieldImm16_iWord : fieldImm16 (iWord opcode rs rt imm) = imm := by
  ext i hi
  simp only [fieldImm16, BitVec.getElem_extractLsb', iWord_getLsbD]
  rw [if_pos (by omega)]
  simp [BitVec.getLsbD_eq_getElem hi]

end I

@[simp] theorem fieldOpcode_jWord (opcode : BitVec 6) (target : BitVec 26) :
    fieldOpcode (jWord opcode target) = opcode := by
  ext i hi
  simp only [fieldOpcode, BitVec.getElem_extractLsb', jWord_getLsbD]
  rw [if_neg (by omega)]
  simp [BitVec.getLsbD_eq_getElem hi]

@[simp] theorem fieldTarget_jWord (opcode : BitVec 6) (target : BitVec 26) :
    fieldTarget (jWord opcode target) = target := by
  ext i hi
  simp only [fieldTarget, BitVec.getElem_extractLsb', jWord_getLsbD]
  rw [if_pos (by omega)]
  simp [BitVec.getLsbD_eq_getElem hi]

/-! ## The masks of R307 -/

theorem and_maskOpcode (w : Word) : w &&& maskOpcode = iWord (fieldOpcode w) 0#5 0#5 0#16 := by
  apply BitVec.eq_of_getLsbD_eq
  intro i hi
  rw [BitVec.getLsbD_and, iWord_getLsbD]
  interval_cases i <;> simp [maskOpcode, fieldOpcode]

theorem and_maskSpecial (w : Word) :
    w &&& maskSpecial = iWord (fieldOpcode w) 0#5 0#5 ((fieldFunct w).zeroExtend 16) := by
  apply BitVec.eq_of_getLsbD_eq
  intro i hi
  rw [BitVec.getLsbD_and, iWord_getLsbD]
  interval_cases i <;> simp [maskSpecial, fieldOpcode, fieldFunct]

theorem and_maskRegimm (w : Word) : w &&& maskRegimm = iWord (fieldOpcode w) 0#5 (fieldRt w) 0#16 := by
  apply BitVec.eq_of_getLsbD_eq
  intro i hi
  rw [BitVec.getLsbD_and, iWord_getLsbD]
  interval_cases i <;> simp [maskRegimm, fieldOpcode, fieldRt]

/-! ## Fields of a masked word, and words by their fields -/

theorem fieldOpcode_and (a b : Word) : fieldOpcode (a &&& b) = fieldOpcode a &&& fieldOpcode b := by
  simp [fieldOpcode, BitVec.extractLsb'_and]
theorem fieldRs_and (a b : Word) : fieldRs (a &&& b) = fieldRs a &&& fieldRs b := by simp [fieldRs, BitVec.extractLsb'_and]
theorem fieldRt_and (a b : Word) : fieldRt (a &&& b) = fieldRt a &&& fieldRt b := by simp [fieldRt, BitVec.extractLsb'_and]
theorem fieldRd_and (a b : Word) : fieldRd (a &&& b) = fieldRd a &&& fieldRd b := by simp [fieldRd, BitVec.extractLsb'_and]
theorem fieldShamt_and (a b : Word) : fieldShamt (a &&& b) = fieldShamt a &&& fieldShamt b := by
  simp [fieldShamt, BitVec.extractLsb'_and]
theorem fieldFunct_and (a b : Word) : fieldFunct (a &&& b) = fieldFunct a &&& fieldFunct b := by
  simp [fieldFunct, BitVec.extractLsb'_and]
theorem fieldImm16_and (a b : Word) : fieldImm16 (a &&& b) = fieldImm16 a &&& fieldImm16 b := by
  simp [fieldImm16, BitVec.extractLsb'_and]
theorem fieldTarget_and (a b : Word) : fieldTarget (a &&& b) = fieldTarget a &&& fieldTarget b := by
  simp [fieldTarget, BitVec.extractLsb'_and]

/-- A bit of a word as a bit of one of the fields of the R format. -/
theorem getLsbD_of_fields (w : Word) (i : Nat) (hi : i < 32) :
    w.getLsbD i =
      if i < 6 then (fieldFunct w).getLsbD i else if i < 11 then (fieldShamt w).getLsbD (i - 6)
      else if i < 16 then (fieldRd w).getLsbD (i - 11) else if i < 21 then (fieldRt w).getLsbD (i - 16)
      else if i < 26 then (fieldRs w).getLsbD (i - 21) else (fieldOpcode w).getLsbD (i - 26) := by
  simp only [fieldFunct, fieldShamt, fieldRd, fieldRt, fieldRs, fieldOpcode, BitVec.getLsbD_extractLsb']
  interval_cases i <;> simp

/-- Two words with the same fields of the R format are one (R301). -/
theorem eq_of_fields {a b : Word} (h₁ : fieldOpcode a = fieldOpcode b) (h₂ : fieldRs a = fieldRs b)
    (h₃ : fieldRt a = fieldRt b) (h₄ : fieldRd a = fieldRd b) (h₅ : fieldShamt a = fieldShamt b)
    (h₆ : fieldFunct a = fieldFunct b) : a = b := by
  apply BitVec.eq_of_getLsbD_eq
  intro i hi
  rw [getLsbD_of_fields a i hi, getLsbD_of_fields b i hi, h₁, h₂, h₃, h₄, h₅, h₆]

/-- Two words with the same fields of the I format are one (R302). -/
theorem eq_of_fieldsI {a b : Word} (h₁ : fieldOpcode a = fieldOpcode b) (h₂ : fieldRs a = fieldRs b)
    (h₃ : fieldRt a = fieldRt b) (h₄ : fieldImm16 a = fieldImm16 b) : a = b := by
  have e (w : Word) : fieldRd w = (fieldImm16 w).extractLsb' 11 5 ∧ fieldShamt w = (fieldImm16 w).extractLsb' 6 5 ∧
      fieldFunct w = (fieldImm16 w).extractLsb' 0 6 := by
    refine ⟨?_, ?_, ?_⟩ <;> apply BitVec.eq_of_getLsbD_eq <;> intro i hi <;>
      simp only [fieldRd, fieldShamt, fieldFunct, fieldImm16, BitVec.getLsbD_extractLsb'] <;> interval_cases i <;> simp
  exact eq_of_fields h₁ h₂ h₃ (by rw [(e a).1, (e b).1, h₄]) (by rw [(e a).2.1, (e b).2.1, h₄])
    (by rw [(e a).2.2, (e b).2.2, h₄])

/-- Two words with the same fields of the J format are one (R303). -/
theorem eq_of_fieldsJ {a b : Word} (h₁ : fieldOpcode a = fieldOpcode b) (h₂ : fieldTarget a = fieldTarget b) : a = b := by
  have e (w : Word) : fieldRs w = (fieldTarget w).extractLsb' 21 5 ∧ fieldRt w = (fieldTarget w).extractLsb' 16 5 ∧
      fieldImm16 w = (fieldTarget w).extractLsb' 0 16 := by
    refine ⟨?_, ?_, ?_⟩ <;> apply BitVec.eq_of_getLsbD_eq <;> intro i hi <;>
      simp only [fieldRs, fieldRt, fieldImm16, fieldTarget, BitVec.getLsbD_extractLsb'] <;> interval_cases i <;> simp
  exact eq_of_fieldsI h₁ (by rw [(e a).1, (e b).1, h₂]) (by rw [(e a).2.1, (e b).2.1, h₂])
    (by rw [(e a).2.2, (e b).2.2, h₂])

end Sys2Proof
end

