-- ==== Sys2Proof/Laws/Memory.lean ====
section
/-! SUPPORT. Functional memory: every operation keeps the canonical form, a read gives the last write to its place, and a
write changes no other byte (R202, R204, R205). -/

namespace Sys2Proof.Machine

/-! ## Aligned addresses -/

theorem alignWord_eq_shift (addr : Word) : alignWord addr = (addr >>> 2) <<< 2 := by
  apply BitVec.eq_of_getLsbD_eq
  intro i hi
  simp only [alignWord, BitVec.getLsbD_and, BitVec.getLsbD_shiftLeft, BitVec.getLsbD_ushiftRight]
  interval_cases i <;> simp

theorem alignWord_toNat (addr : Word) : (alignWord addr).toNat = addr.toNat / 4 * 4 := by
  rw [alignWord_eq_shift, BitVec.toNat_shiftLeft, BitVec.toNat_ushiftRight, Nat.shiftRight_eq_div_pow, Nat.shiftLeft_eq]
  have := addr.isLt
  omega

/-- The four bytes of an aligned word lie inside the address space. -/
theorem alignWord_bound (addr : Word) : (alignWord addr).toNat + 3 < 2 ^ 32 := by
  have := addr.isLt
  rw [alignWord_toNat]
  omega

@[simp] theorem alignWord_alignWord (addr : Word) : alignWord (alignWord addr) = alignWord addr := by
  apply BitVec.eq_of_toNat_eq
  rw [alignWord_toNat, alignWord_toNat]
  omega

@[simp] theorem isMapped_alignWord (cfg : Config) (addr : Word) : isMapped cfg (alignWord addr) = isMapped cfg addr := by
  simp [isMapped]

/-! ## The canonical form -/

theorem Memory.wfFrom_mono {lo lo' : Nat} {m : Memory} (h : Memory.wfFrom lo m = true) (hle : lo' ≤ lo) :
    Memory.wfFrom lo' m = true := by
  cases m with
  | nil => rfl
  | cons e rest =>
    simp only [Memory.wfFrom, Bool.and_eq_true, decide_eq_true_eq] at h ⊢
    exact ⟨⟨⟨by omega, h.1.1.2⟩, h.1.2⟩, h.2⟩

/-- Below the lowest listed address nothing is listed. -/
theorem Memory.readByte_below {lo a : Nat} {m : Memory} (h : Memory.wfFrom lo m = true) (ha : a < lo) :
    m.readByte a = Memory.unlisted := by
  induction m generalizing lo with
  | nil => rfl
  | cons e rest ih =>
    simp only [Memory.wfFrom, Bool.and_eq_true, decide_eq_true_eq] at h
    simp only [Memory.readByte]
    rw [if_neg (by omega)]
    exact ih h.2 (by omega)

theorem Memory.wfFrom_writeByte {lo a : Nat} {m : Memory} (v : Byte) (h : Memory.wfFrom lo m = true) (hlo : lo ≤ a)
    (ha : a < 2 ^ 32) : Memory.wfFrom lo (m.writeByte a v) = true := by
  induction m generalizing lo with
  | nil =>
    simp only [Memory.writeByte]
    split_ifs with hv
    · rfl
    · simp [Memory.wfFrom, hlo, hv]; omega
  | cons e rest ih =>
    obtain ⟨k, w⟩ := e
    simp only [Memory.wfFrom, Bool.and_eq_true, decide_eq_true_eq] at h
    obtain ⟨⟨⟨h1, h2⟩, h3⟩, h4⟩ := h
    simp only [Memory.writeByte]
    split_ifs with hk hv hk' hv
    · simp [Memory.wfFrom, h1, h3, h4]; omega
    · simp only [Memory.wfFrom, Bool.and_eq_true, decide_eq_true_eq]
      exact ⟨⟨⟨hlo, ha⟩, hv⟩, ⟨⟨by omega, h2⟩, h3⟩, h4⟩
    · exact Memory.wfFrom_mono h4 (by omega)
    · simp only [Memory.wfFrom, Bool.and_eq_true, decide_eq_true_eq]
      exact ⟨⟨⟨hlo, ha⟩, hv⟩, hk' ▸ h4⟩
    · simp only [Memory.wfFrom, Bool.and_eq_true, decide_eq_true_eq]
      exact ⟨⟨⟨h1, h2⟩, h3⟩, ih h4 (by omega)⟩

theorem Memory.wf_writeByte {m : Memory} {a : Nat} (v : Byte) (h : m.wf = true) (ha : a < 2 ^ 32) :
    (m.writeByte a v).wf = true :=
  Memory.wfFrom_writeByte v h (Nat.zero_le a) ha

theorem Memory.wf_writeWord {m : Memory} {a : Nat} (v : Word) (h : m.wf = true) (ha : a + 3 < 2 ^ 32) :
    (m.writeWord a v).wf = true := by
  unfold Memory.writeWord
  exact Memory.wf_writeByte _ (Memory.wf_writeByte _ (Memory.wf_writeByte _ (Memory.wf_writeByte _ h (by omega))
    (by omega)) (by omega)) (by omega)

/-- `mem_write_32` keeps the canonical form. -/
theorem memWrite32_wf {m : Memory} (cfg : Config) (addr v : Word) (h : m.wf = true) :
    (memWrite32 cfg m addr v).wf = true := by
  unfold memWrite32
  split_ifs
  · exact Memory.wf_writeWord v h (alignWord_bound addr)
  · exact h

/-- The loader keeps the canonical form. -/
theorem loadImage_wf (cfg : Config) (img : Image) {m : Memory} (h : m.wf = true) : (loadImage cfg img m).wf = true := by
  induction img generalizing m with
  | nil => exact h
  | cons r rest ih => exact ih (memWrite32_wf cfg r.1 r.2 h)

/-- No byte is listed at reset. -/
theorem State.resetWith_mem_wf (cfg : Config) : (State.resetWith cfg).mem.wf = true := rfl

/-! ## Reading after writing -/

theorem Memory.readByte_writeByte_other {m : Memory} {a b : Nat} (v : Byte) (h : b ≠ a) :
    (m.writeByte a v).readByte b = m.readByte b := by
  induction m with
  | nil =>
    simp only [Memory.writeByte]
    split_ifs
    · rfl
    · simp [Memory.readByte, Ne.symm h]
  | cons e rest ih =>
    obtain ⟨k, w⟩ := e
    simp only [Memory.writeByte]
    split_ifs with hk hv hk' hv
    · rfl
    · simp [Memory.readByte, Ne.symm h]
    · subst hk'; simp [Memory.readByte, Ne.symm h]
    · subst hk'; simp [Memory.readByte, Ne.symm h]
    · simp [Memory.readByte, ih]

theorem Memory.readByte_writeByte_same_from {m : Memory} {lo a : Nat} (v : Byte) (h : Memory.wfFrom lo m = true) :
    (m.writeByte a v).readByte a = v := by
  induction m generalizing lo with
  | nil =>
    simp only [Memory.writeByte]
    split_ifs with hv
    · exact hv.symm
    · simp [Memory.readByte]
  | cons e rest ih =>
    obtain ⟨k, w⟩ := e
    simp only [Memory.wfFrom, Bool.and_eq_true, decide_eq_true_eq] at h
    simp only [Memory.writeByte]
    split_ifs with hk hv hk' hv
    · rw [hv]
      simp only [Memory.readByte]
      rw [if_neg (by omega)]
      exact Memory.readByte_below h.2 (by omega)
    · simp [Memory.readByte]
    · subst hk'
      rw [hv]
      exact Memory.readByte_below h.2 (by omega)
    · simp [Memory.readByte]
    · simp only [Memory.readByte]
      rw [if_neg (by omega)]
      exact ih h.2

theorem Memory.readByte_writeByte_same {m : Memory} {a : Nat} (v : Byte) (h : m.wf = true) :
    (m.writeByte a v).readByte a = v :=
  Memory.readByte_writeByte_same_from v h

/-- Two memories in canonical form that read alike are one list. -/
theorem Memory.eq_of_readByte {lo : Nat} {m n : Memory} (hm : Memory.wfFrom lo m = true) (hn : Memory.wfFrom lo n = true)
    (h : ∀ a, m.readByte a = n.readByte a) : m = n := by
  induction m generalizing lo n with
  | nil =>
    cases n with
    | nil => rfl
    | cons e rest =>
      simp only [Memory.wfFrom, Bool.and_eq_true, decide_eq_true_eq] at hn
      exact absurd (by simpa [Memory.readByte] using (h e.1).symm) hn.1.2
  | cons e rest ih =>
    cases n with
    | nil =>
      simp only [Memory.wfFrom, Bool.and_eq_true, decide_eq_true_eq] at hm
      exact absurd (by simpa [Memory.readByte] using h e.1) hm.1.2
    | cons e' rest' =>
      obtain ⟨k, v⟩ := e
      obtain ⟨k', v'⟩ := e'
      simp only [Memory.wfFrom, Bool.and_eq_true, decide_eq_true_eq] at hm hn
      have hk : k = k' := by
        by_contra hne
        rcases Nat.lt_or_gt_of_ne hne with hlt | hgt
        · have h0 := h k
          simp only [Memory.readByte, if_true] at h0
          rw [if_neg (Ne.symm hne), Memory.readByte_below hn.2 (by omega)] at h0
          exact hm.1.2 h0
        · have h0 := h k'
          simp only [Memory.readByte, if_true] at h0
          rw [if_neg hne, Memory.readByte_below hm.2 (by omega)] at h0
          exact hn.1.2 h0.symm
      subst hk
      have hv : v = v' := by simpa [Memory.readByte] using h k
      subst hv
      rw [ih hm.2 hn.2 fun a => ?_]
      by_cases ha : k = a
      · subst ha
        rw [Memory.readByte_below hm.2 (Nat.lt_succ_self k), Memory.readByte_below hn.2 (Nat.lt_succ_self k)]
      · simpa [Memory.readByte, ha] using h a

/-! ## Words -/

/-- The word made of a word's four bytes is the word (R202). -/
theorem wordOfBytes_byteOfWord (v : Word) :
    wordOfBytes (byteOfWord v 0) (byteOfWord v 1) (byteOfWord v 2) (byteOfWord v 3) = v := by
  apply BitVec.eq_of_getLsbD_eq
  intro i hi
  show (byteOfWord v 3 ++ byteOfWord v 2 ++ byteOfWord v 1 ++ byteOfWord v 0 : BitVec (8 + 8 + 8 + 8)).getLsbD i = _
  simp only [BitVec.getLsbD_append, byteOfWord, BitVec.getLsbD_extractLsb']
  interval_cases i <;> simp

theorem Memory.readByte_writeWord_other {m : Memory} {a b : Nat} (v : Word) (h : b < a ∨ a + 3 < b) :
    (m.writeWord a v).readByte b = m.readByte b := by
  unfold Memory.writeWord
  rw [Memory.readByte_writeByte_other _ (by omega), Memory.readByte_writeByte_other _ (by omega),
    Memory.readByte_writeByte_other _ (by omega), Memory.readByte_writeByte_other _ (by omega)]

theorem Memory.readByte_writeWord_same {m : Memory} {a k : Nat} (v : Word) (h : m.wf = true) (ha : a + 3 < 2 ^ 32)
    (hk : k < 4) : (m.writeWord a v).readByte (a + k) = byteOfWord v k := by
  have h1 := Memory.wf_writeByte (byteOfWord v 0) h (a := a) (by omega)
  have h2 := Memory.wf_writeByte (byteOfWord v 1) h1 (a := a + 1) (by omega)
  have h3 := Memory.wf_writeByte (byteOfWord v 2) h2 (a := a + 2) (by omega)
  unfold Memory.writeWord
  rcases (by omega : k = 0 ∨ k = 1 ∨ k = 2 ∨ k = 3) with rfl | rfl | rfl | rfl
  · rw [Memory.readByte_writeByte_other _ (by omega), Memory.readByte_writeByte_other _ (by omega),
      Memory.readByte_writeByte_other _ (by omega), Nat.add_zero, Memory.readByte_writeByte_same _ h]
  · rw [Memory.readByte_writeByte_other _ (by omega), Memory.readByte_writeByte_other _ (by omega),
      Memory.readByte_writeByte_same _ h1]
  · rw [Memory.readByte_writeByte_other _ (by omega), Memory.readByte_writeByte_same _ h2]
  · rw [Memory.readByte_writeByte_same _ h3]

theorem Memory.readWord_writeWord_same {m : Memory} {a : Nat} (v : Word) (h : m.wf = true) (ha : a + 3 < 2 ^ 32) :
    (m.writeWord a v).readWord a = v := by
  unfold Memory.readWord
  have h0 := Memory.readByte_writeWord_same v h ha (k := 0) (by omega)
  rw [Nat.add_zero] at h0
  rw [h0, Memory.readByte_writeWord_same v h ha (by omega), Memory.readByte_writeWord_same v h ha (by omega),
    Memory.readByte_writeWord_same v h ha (by omega), wordOfBytes_byteOfWord]

theorem Memory.readWord_writeWord_other {m : Memory} {a b : Nat} (v : Word) (h : b + 3 < a ∨ a + 3 < b) :
    (m.writeWord a v).readWord b = m.readWord b := by
  unfold Memory.readWord
  rw [Memory.readByte_writeWord_other _ (by omega), Memory.readByte_writeWord_other _ (by omega),
    Memory.readByte_writeWord_other _ (by omega), Memory.readByte_writeWord_other _ (by omega)]

/-- A mapped word reads what was last written to it (R204, R205). -/
theorem memRead32_memWrite32_same {cfg : Config} {m : Memory} {addr addr' : Word} (v : Word) (h : m.wf = true)
    (hmap : isMapped cfg addr = true) (ha : alignWord addr' = alignWord addr) :
    memRead32 cfg (memWrite32 cfg m addr v) addr' = v := by
  have hmap' : isMapped cfg addr' = true := by rw [← isMapped_alignWord, ha, isMapped_alignWord, hmap]
  simp only [memRead32, memWrite32, hmap, hmap', if_true, ha]
  exact Memory.readWord_writeWord_same v h (alignWord_bound addr)

/-- A write leaves every other word alone (R205). -/
theorem memRead32_memWrite32_other {cfg : Config} {m : Memory} {addr addr' : Word} (v : Word)
    (ha : alignWord addr' ≠ alignWord addr) :
    memRead32 cfg (memWrite32 cfg m addr v) addr' = memRead32 cfg m addr' := by
  have hne : (alignWord addr').toNat ≠ (alignWord addr).toNat := fun e => ha (BitVec.eq_of_toNat_eq e)
  rw [alignWord_toNat, alignWord_toNat] at hne
  unfold memRead32 memWrite32
  split_ifs
  · rw [Memory.readWord_writeWord_other]
    rw [alignWord_toNat, alignWord_toNat]
    omega
  · rfl
  · rfl

end Sys2Proof.Machine
end

