-- ==== Sys2Proof/Laws/Frames.lean ====
section
/-! SUPPORT. What a word store leaves of memory, and what an instruction's blocks leave of a core. -/

namespace Sys2Proof.Machine

/-- A 32-bit write leaves every byte of another word. -/
theorem memWrite32_readByte_other {cfg : Config} {m : Memory} {addr : Word} (v : Word) (b : Nat) (h : b / 4 ≠ addr.toNat / 4) :
    (memWrite32 cfg m addr v).readByte b = m.readByte b := by
  unfold memWrite32
  split
  · apply Memory.readByte_writeWord_other
    rw [alignWord_toNat]; omega
  · rfl

/-- Only SYSCALL acts in the writeback stage beyond its commit. -/
theorem service_none_of_not_syscall (i : Instr) (h : i ≠ .syscall) : (blocksOf i).service = noService := by
  cases i <;> first | rfl | exact absurd rfl h

/-- Storing a core's own value changes nothing. -/
theorem setCore_self {s : State} {c : Nat} {core : CoreState} (h : s.cores[c]? = some core) : s.setCore c core = s := by
  have := State.modifyCore_eq_setCore (fun x => x) h
  rw [← this]
  unfold State.modifyCore
  have : s.cores.modify c (fun x => x) = s.cores := List.modify_id c s.cores
  rw [this]

/-- What an instruction's execute block can change of the core: HI, LO and the multiplier count, and those only for the
multiplies, divides and HI/LO writes. -/
theorem executeBlock_frame (i : Instr) (core : CoreState) (op : Op) (core' : CoreState) (op' : Op)
    (h : (blocksOf i).executeBlock core op = some (core', op')) :
    op'.isBranch = op.isBranch ∧ ∃ hi lo n, core' = { core with hi := hi, lo := lo, multiplierStall := n } ∧
      ((∀ rs rt, i ≠ .mult rs rt ∧ i ≠ .multu rs rt ∧ i ≠ .div rs rt ∧ i ≠ .divu rs rt) →
          n = core.multiplierStall ∧ ((∀ rs, i ≠ .mthi rs) → hi = core.hi) ∧ ((∀ rs, i ≠ .mtlo rs) → lo = core.lo)) := by
  cases i <;>
    simp only [blocksOf, Blocks.alu, Blocks.mulDiv, Blocks.hiLo, Blocks.branch, Blocks.load, Blocks.store, executeResult, executeHiLo, hiLoGuard, executeCond, executeNothing, executeJumpRegister, executeLoad, executeStore, writeHiLo, Option.some.injEq, Prod.mk.injEq] at h <;>
    first
    | (obtain ⟨rfl, rfl⟩ := h; exact ⟨rfl, _, _, _, rfl, by simp⟩)
    | (split_ifs at h; simp only [Option.some.injEq, Prod.mk.injEq] at h; obtain ⟨rfl, rfl⟩ := h; exact ⟨rfl, _, _, _, rfl, by simp⟩)

end Sys2Proof.Machine
end

