-- ==== Sys2Proof/Laws/PerInstr.lean ====
section
/-! SUPPORT. Statements about every instruction as syntax, one lemma for each constructor. -/

namespace Sys2Proof.Laws.EncodesIntoRow

/-- The instruction's encoding lies in its own row of the opcode table (R307, R311). -/
def Statement (i : Instr) : Prop := encode i &&& (tableRow i).mask = (tableRow i).bits

/-- A word of the R format under the mask of a SPECIAL row. -/
theorem special (rs rt rd : Reg) (shamt : BitVec 5) (funct : BitVec 6) :
    rWord rs rt rd shamt funct &&& maskSpecial = iWord 0#6 0#5 0#5 (funct.zeroExtend 16) := by
  rw [and_maskSpecial, fieldOpcode_rWord, fieldFunct_rWord]

/-- A word of the I format under the mask of a row selected by its opcode. -/
theorem byOpcode (opcode : BitVec 6) (rs rt : Reg) (imm : BitVec 16) :
    iWord opcode rs rt imm &&& maskOpcode = iWord opcode 0#5 0#5 0#16 := by
  rw [and_maskOpcode, fieldOpcode_iWord]

/-- A word of the I format under the mask of a REGIMM row. -/
theorem regimm (opcode : BitVec 6) (rs rt : Reg) (imm : BitVec 16) :
    iWord opcode rs rt imm &&& maskRegimm = iWord opcode 0#5 rt 0#16 := by
  rw [and_maskRegimm, fieldOpcode_iWord, fieldRt_iWord]

/-- A word of the J format under the mask of a row selected by its opcode. -/
theorem jump (opcode : BitVec 6) (target : BitVec 26) :
    jWord opcode target &&& maskOpcode = iWord opcode 0#5 0#5 0#16 := by
  rw [and_maskOpcode, fieldOpcode_jWord]

theorem add (rd rs rt : Reg) : Statement (.add rd rs rt) := special _ _ _ _ _
theorem addu (rd rs rt : Reg) : Statement (.addu rd rs rt) := special _ _ _ _ _
theorem sub (rd rs rt : Reg) : Statement (.sub rd rs rt) := special _ _ _ _ _
theorem subu (rd rs rt : Reg) : Statement (.subu rd rs rt) := special _ _ _ _ _
theorem and (rd rs rt : Reg) : Statement (.and rd rs rt) := special _ _ _ _ _
theorem or (rd rs rt : Reg) : Statement (.or rd rs rt) := special _ _ _ _ _
theorem xor (rd rs rt : Reg) : Statement (.xor rd rs rt) := special _ _ _ _ _
theorem nor (rd rs rt : Reg) : Statement (.nor rd rs rt) := special _ _ _ _ _
theorem slt (rd rs rt : Reg) : Statement (.slt rd rs rt) := special _ _ _ _ _
theorem sltu (rd rs rt : Reg) : Statement (.sltu rd rs rt) := special _ _ _ _ _
theorem addi (rt rs : Reg) (imm : BitVec 16) : Statement (.addi rt rs imm) := byOpcode _ _ _ _
theorem addiu (rt rs : Reg) (imm : BitVec 16) : Statement (.addiu rt rs imm) := byOpcode _ _ _ _
theorem slti (rt rs : Reg) (imm : BitVec 16) : Statement (.slti rt rs imm) := byOpcode _ _ _ _
theorem sltiu (rt rs : Reg) (imm : BitVec 16) : Statement (.sltiu rt rs imm) := byOpcode _ _ _ _
theorem andi (rt rs : Reg) (imm : BitVec 16) : Statement (.andi rt rs imm) := byOpcode _ _ _ _
theorem ori (rt rs : Reg) (imm : BitVec 16) : Statement (.ori rt rs imm) := byOpcode _ _ _ _
theorem xori (rt rs : Reg) (imm : BitVec 16) : Statement (.xori rt rs imm) := byOpcode _ _ _ _
theorem lui (rt : Reg) (imm : BitVec 16) : Statement (.lui rt imm) := byOpcode _ _ _ _
theorem sll (rd rt : Reg) (shamt : Nat) : Statement (.sll rd rt shamt) := special _ _ _ _ _
theorem srl (rd rt : Reg) (shamt : Nat) : Statement (.srl rd rt shamt) := special _ _ _ _ _
theorem sra (rd rt : Reg) (shamt : Nat) : Statement (.sra rd rt shamt) := special _ _ _ _ _
theorem sllv (rd rt rs : Reg) : Statement (.sllv rd rt rs) := special _ _ _ _ _
theorem srlv (rd rt rs : Reg) : Statement (.srlv rd rt rs) := special _ _ _ _ _
theorem srav (rd rt rs : Reg) : Statement (.srav rd rt rs) := special _ _ _ _ _
theorem mult (rs rt : Reg) : Statement (.mult rs rt) := special _ _ _ _ _
theorem multu (rs rt : Reg) : Statement (.multu rs rt) := special _ _ _ _ _
theorem div (rs rt : Reg) : Statement (.div rs rt) := special _ _ _ _ _
theorem divu (rs rt : Reg) : Statement (.divu rs rt) := special _ _ _ _ _
theorem mfhi (rd : Reg) : Statement (.mfhi rd) := special _ _ _ _ _
theorem mflo (rd : Reg) : Statement (.mflo rd) := special _ _ _ _ _
theorem mthi (rs : Reg) : Statement (.mthi rs) := special _ _ _ _ _
theorem mtlo (rs : Reg) : Statement (.mtlo rs) := special _ _ _ _ _
theorem beq (rs rt : Reg) (offset : BitVec 16) : Statement (.beq rs rt offset) := byOpcode _ _ _ _
theorem bne (rs rt : Reg) (offset : BitVec 16) : Statement (.bne rs rt offset) := byOpcode _ _ _ _
theorem blez (rs : Reg) (offset : BitVec 16) : Statement (.blez rs offset) := byOpcode _ _ _ _
theorem bgtz (rs : Reg) (offset : BitVec 16) : Statement (.bgtz rs offset) := byOpcode _ _ _ _
theorem bltz (rs : Reg) (offset : BitVec 16) : Statement (.bltz rs offset) := regimm _ _ _ _
theorem bgez (rs : Reg) (offset : BitVec 16) : Statement (.bgez rs offset) := regimm _ _ _ _
theorem bltzal (rs : Reg) (offset : BitVec 16) : Statement (.bltzal rs offset) := regimm _ _ _ _
theorem bgezal (rs : Reg) (offset : BitVec 16) : Statement (.bgezal rs offset) := regimm _ _ _ _
theorem j (target : BitVec 26) : Statement (.j target) := jump _ _
theorem jal (target : BitVec 26) : Statement (.jal target) := jump _ _
theorem jalr (rd rs : Reg) : Statement (.jalr rd rs) := special _ _ _ _ _
theorem jr (rs : Reg) : Statement (.jr rs) := special _ _ _ _ _
theorem lb (rt rs : Reg) (offset : BitVec 16) : Statement (.lb rt rs offset) := byOpcode _ _ _ _
theorem lbu (rt rs : Reg) (offset : BitVec 16) : Statement (.lbu rt rs offset) := byOpcode _ _ _ _
theorem lh (rt rs : Reg) (offset : BitVec 16) : Statement (.lh rt rs offset) := byOpcode _ _ _ _
theorem lhu (rt rs : Reg) (offset : BitVec 16) : Statement (.lhu rt rs offset) := byOpcode _ _ _ _
theorem lw (rt rs : Reg) (offset : BitVec 16) : Statement (.lw rt rs offset) := byOpcode _ _ _ _
theorem sb (rt rs : Reg) (offset : BitVec 16) : Statement (.sb rt rs offset) := byOpcode _ _ _ _
theorem sh (rt rs : Reg) (offset : BitVec 16) : Statement (.sh rt rs offset) := byOpcode _ _ _ _
theorem sw (rt rs : Reg) (offset : BitVec 16) : Statement (.sw rt rs offset) := byOpcode _ _ _ _
theorem syscall : Statement (.syscall) := special _ _ _ _ _

end Sys2Proof.Laws.EncodesIntoRow
end

