-- ==== Sys2Proof/Machine/Assembler.lean ====
section
/-! DEFINITION. What R102, R330 and R331 fix of the assembler, which is external to the hardware: the register names, the
operand order of each form, and the expansions of the pseudo-instructions. No step of the machine uses any of it. -/

namespace Sys2Proof.Machine

/-- The o32 names of registers 0 to 31 (R102). -/
def registerNames : List String :=
  ["zero", "at", "v0", "v1", "a0", "a1", "a2", "a3", "t0", "t1", "t2", "t3", "t4", "t5", "t6", "t7"] ++
  ["s0", "s1", "s2", "s3", "s4", "s5", "s6", "s7", "t8", "t9", "k0", "k1", "gp", "sp", "fp", "ra"]

/-- The assembler temporary, register 1 (R102). -/
abbrev regAt : Reg := 1#5

/-! ## Operand order (R330) -/

/-- `$n` (R102). -/
def asmReg (r : Reg) : String := "$" ++ decimal r.toNat

/-- A signed number in decimal. -/
def asmInt (n : Int) : String := if n < 0 then "-" ++ decimal n.natAbs else decimal n.natAbs

/-- A branch offset as R330 writes it: the signed imm16, `+2`, `-1`. -/
def asmOffset (offset : BitVec 16) : String := if offset.toInt < 0 then asmInt offset.toInt else "+" ++ asmInt offset.toInt

/-- An operation and its operands, separated by commas. -/
def asmLine (op : String) (operands : List String) : String :=
  if operands.isEmpty then op else op ++ " " ++ ",".intercalate operands

/-- `offset(rs)`. -/
def asmAddress (rs : Reg) (offset : BitVec 16) : String := asmInt offset.toInt ++ "(" ++ asmReg rs ++ ")"

/-- The operand of J and JAL, which R330 calls `target` without saying what a number written there is. The model writes the
byte address of the target, as the vectors do (95_test_vectors.md section 2: `j 0x00400010`), in eight lowercase hexadecimal
digits, with 0 for the four bits that come from the pc (R305) and not from the instruction (DESIGN CHOICE, log 16). -/
def asmTarget (target : BitVec 26) : String := "0x" ++ hex8 (target.zeroExtend 32 <<< 2)

/-- The assembler form of an instruction (R330). The operand order is R330's. How numbers are written is the model's (log 16):
in decimal, zero-extended immediates unsigned and the others signed, but for a jump's target (`asmTarget`). -/
def asmText : Instr → String
  | .add rd rs rt => asmLine "add" [asmReg rd, asmReg rs, asmReg rt]
  | .addu rd rs rt => asmLine "addu" [asmReg rd, asmReg rs, asmReg rt]
  | .sub rd rs rt => asmLine "sub" [asmReg rd, asmReg rs, asmReg rt]
  | .subu rd rs rt => asmLine "subu" [asmReg rd, asmReg rs, asmReg rt]
  | .and rd rs rt => asmLine "and" [asmReg rd, asmReg rs, asmReg rt]
  | .or rd rs rt => asmLine "or" [asmReg rd, asmReg rs, asmReg rt]
  | .xor rd rs rt => asmLine "xor" [asmReg rd, asmReg rs, asmReg rt]
  | .nor rd rs rt => asmLine "nor" [asmReg rd, asmReg rs, asmReg rt]
  | .slt rd rs rt => asmLine "slt" [asmReg rd, asmReg rs, asmReg rt]
  | .sltu rd rs rt => asmLine "sltu" [asmReg rd, asmReg rs, asmReg rt]
  | .addi rt rs imm => asmLine "addi" [asmReg rt, asmReg rs, asmInt imm.toInt]
  | .addiu rt rs imm => asmLine "addiu" [asmReg rt, asmReg rs, asmInt imm.toInt]
  | .slti rt rs imm => asmLine "slti" [asmReg rt, asmReg rs, asmInt imm.toInt]
  | .sltiu rt rs imm => asmLine "sltiu" [asmReg rt, asmReg rs, asmInt imm.toInt]
  | .andi rt rs imm => asmLine "andi" [asmReg rt, asmReg rs, decimal imm.toNat]
  | .ori rt rs imm => asmLine "ori" [asmReg rt, asmReg rs, decimal imm.toNat]
  | .xori rt rs imm => asmLine "xori" [asmReg rt, asmReg rs, decimal imm.toNat]
  | .lui rt imm => asmLine "lui" [asmReg rt, decimal imm.toNat]
  | .sll rd rt shamt => asmLine "sll" [asmReg rd, asmReg rt, decimal shamt]
  | .srl rd rt shamt => asmLine "srl" [asmReg rd, asmReg rt, decimal shamt]
  | .sra rd rt shamt => asmLine "sra" [asmReg rd, asmReg rt, decimal shamt]
  | .sllv rd rt rs => asmLine "sllv" [asmReg rd, asmReg rt, asmReg rs]
  | .srlv rd rt rs => asmLine "srlv" [asmReg rd, asmReg rt, asmReg rs]
  | .srav rd rt rs => asmLine "srav" [asmReg rd, asmReg rt, asmReg rs]
  | .mult rs rt => asmLine "mult" [asmReg rs, asmReg rt]
  | .multu rs rt => asmLine "multu" [asmReg rs, asmReg rt]
  | .div rs rt => asmLine "div" [asmReg rs, asmReg rt]
  | .divu rs rt => asmLine "divu" [asmReg rs, asmReg rt]
  | .mfhi rd => asmLine "mfhi" [asmReg rd]
  | .mflo rd => asmLine "mflo" [asmReg rd]
  | .mthi rs => asmLine "mthi" [asmReg rs]
  | .mtlo rs => asmLine "mtlo" [asmReg rs]
  | .beq rs rt offset => asmLine "beq" [asmReg rs, asmReg rt, asmOffset offset]
  | .bne rs rt offset => asmLine "bne" [asmReg rs, asmReg rt, asmOffset offset]
  | .blez rs offset => asmLine "blez" [asmReg rs, asmOffset offset]
  | .bgtz rs offset => asmLine "bgtz" [asmReg rs, asmOffset offset]
  | .bltz rs offset => asmLine "bltz" [asmReg rs, asmOffset offset]
  | .bgez rs offset => asmLine "bgez" [asmReg rs, asmOffset offset]
  | .bltzal rs offset => asmLine "bltzal" [asmReg rs, asmOffset offset]
  | .bgezal rs offset => asmLine "bgezal" [asmReg rs, asmOffset offset]
  | .j target => asmLine "j" [asmTarget target]
  | .jal target => asmLine "jal" [asmTarget target]
  | .jalr rd rs => asmLine "jalr" [asmReg rd, asmReg rs]
  | .jr rs => asmLine "jr" [asmReg rs]
  | .lb rt rs offset => asmLine "lb" [asmReg rt, asmAddress rs offset]
  | .lbu rt rs offset => asmLine "lbu" [asmReg rt, asmAddress rs offset]
  | .lh rt rs offset => asmLine "lh" [asmReg rt, asmAddress rs offset]
  | .lhu rt rs offset => asmLine "lhu" [asmReg rt, asmAddress rs offset]
  | .lw rt rs offset => asmLine "lw" [asmReg rt, asmAddress rs offset]
  | .sb rt rs offset => asmLine "sb" [asmReg rt, asmAddress rs offset]
  | .sh rt rs offset => asmLine "sh" [asmReg rt, asmAddress rs offset]
  | .sw rt rs offset => asmLine "sw" [asmReg rt, asmAddress rs offset]
  | .syscall => asmLine "syscall" []

/-! ## Pseudo-instructions (R331). A branch's `offset` is the imm16 of the branch instruction in the expansion. -/

/-- `nop`. -/
def pseudoNop : List Instr := [.sll 0#5 0#5 0]
/-- `move rd, rs`. -/
def pseudoMove (rd rs : Reg) : List Instr := [.addu rd rs 0#5]
/-- `clear rd`. -/
def pseudoClear (rd : Reg) : List Instr := [.addu rd 0#5 0#5]
/-- `li rt, imm`: one ADDIU for −32768 to 32767, one ORI for the other values up to 0xFFFF, else LUI and ORI. -/
def pseudoLi (rt : Reg) (imm : Word) : List Instr :=
  let low := imm.extractLsb' 0 16
  if low.signExtend 32 = imm then [.addiu rt 0#5 low]
  else if low.zeroExtend 32 = imm then [.ori rt 0#5 low]
  else [.lui rt (imm.extractLsb' 16 16), .ori rt rt low]
/-- `la rt, label`, for the label's address. -/
def pseudoLa (rt : Reg) (addr : Word) : List Instr := [.lui rt (addr.extractLsb' 16 16), .ori rt rt (addr.extractLsb' 0 16)]
/-- `b offset`. -/
def pseudoB (offset : BitVec 16) : List Instr := [.beq 0#5 0#5 offset]
/-- `bal offset`. -/
def pseudoBal (offset : BitVec 16) : List Instr := [.bgezal 0#5 offset]
/-- `beqz rs, offset`. -/
def pseudoBeqz (rs : Reg) (offset : BitVec 16) : List Instr := [.beq rs 0#5 offset]
/-- `bnez rs, offset`. -/
def pseudoBnez (rs : Reg) (offset : BitVec 16) : List Instr := [.bne rs 0#5 offset]
/-- `not rd, rs`. -/
def pseudoNot (rd rs : Reg) : List Instr := [.nor rd rs 0#5]
/-- `neg rd, rs`. -/
def pseudoNeg (rd rs : Reg) : List Instr := [.sub rd 0#5 rs]
/-- `negu rd, rs`. -/
def pseudoNegu (rd rs : Reg) : List Instr := [.subu rd 0#5 rs]
/-- `blt rs, rt, L`. -/
def pseudoBlt (rs rt : Reg) (offset : BitVec 16) : List Instr := [.slt regAt rs rt, .bne regAt 0#5 offset]
/-- `bge rs, rt, L`. -/
def pseudoBge (rs rt : Reg) (offset : BitVec 16) : List Instr := [.slt regAt rs rt, .beq regAt 0#5 offset]
/-- `bgt rs, rt, L`. -/
def pseudoBgt (rs rt : Reg) (offset : BitVec 16) : List Instr := [.slt regAt rt rs, .bne regAt 0#5 offset]
/-- `ble rs, rt, L`. -/
def pseudoBle (rs rt : Reg) (offset : BitVec 16) : List Instr := [.slt regAt rt rs, .beq regAt 0#5 offset]

end Sys2Proof.Machine
end

