-- ==== Sys2Proof/Tests/Slice0.lean ====
section
/-! SUPPORT. The model's own tests: the WellFormed smoke test, every constructor's decoding from a word written out from the
spec's formats, small runs of one instruction with results from 95_test_vectors.md, and for every statement with hypotheses a
state that meets them (the `witness_` theorems). -/



namespace Sys2Proof.Tests

open Sys2Proof.Machine

/-! ## Well-formedness (R305) -/

theorem test_wellFormed_refuses_shamt_32 :
    ¬(Instr.sll 2#5 4#5 32).WellFormed ∧ ¬(Instr.srl 2#5 4#5 32).WellFormed ∧ ¬(Instr.sra 2#5 4#5 32).WellFormed := by
  decide

theorem test_wellFormed_admits_shamt_31 :
    (Instr.sll 2#5 4#5 31).WellFormed ∧ (Instr.srl 2#5 4#5 31).WellFormed ∧ (Instr.sra 2#5 4#5 31).WellFormed := by
  decide

/-! ## Decoding: words written bit by bit from R301–R303 and the maps of R308–R310 -/

theorem test_decode_three_register :
    decode 0b000000_00001_00010_00011_00000_100000#32 = .ok (.add 3#5 1#5 2#5) ∧
    decode 0b000000_00001_00010_00011_00000_100001#32 = .ok (.addu 3#5 1#5 2#5) ∧
    decode 0b000000_00001_00010_00011_00000_100010#32 = .ok (.sub 3#5 1#5 2#5) ∧
    decode 0b000000_00001_00010_00011_00000_100011#32 = .ok (.subu 3#5 1#5 2#5) ∧
    decode 0b000000_00001_00010_00011_00000_100100#32 = .ok (.and 3#5 1#5 2#5) ∧
    decode 0b000000_00001_00010_00011_00000_100101#32 = .ok (.or 3#5 1#5 2#5) ∧
    decode 0b000000_00001_00010_00011_00000_100110#32 = .ok (.xor 3#5 1#5 2#5) ∧
    decode 0b000000_00001_00010_00011_00000_100111#32 = .ok (.nor 3#5 1#5 2#5) ∧
    decode 0b000000_00001_00010_00011_00000_101010#32 = .ok (.slt 3#5 1#5 2#5) ∧
    decode 0b000000_00001_00010_00011_00000_101011#32 = .ok (.sltu 3#5 1#5 2#5) := by decide

theorem test_decode_immediate :
    decode 0b001000_00001_00010_1000000000000001#32 = .ok (.addi 2#5 1#5 0x8001#16) ∧
    decode 0b001001_00001_00010_1000000000000001#32 = .ok (.addiu 2#5 1#5 0x8001#16) ∧
    decode 0b001010_00001_00010_1000000000000001#32 = .ok (.slti 2#5 1#5 0x8001#16) ∧
    decode 0b001011_00001_00010_1000000000000001#32 = .ok (.sltiu 2#5 1#5 0x8001#16) ∧
    decode 0b001100_00001_00010_1000000000000001#32 = .ok (.andi 2#5 1#5 0x8001#16) ∧
    decode 0b001101_00001_00010_1000000000000001#32 = .ok (.ori 2#5 1#5 0x8001#16) ∧
    decode 0b001110_00001_00010_1000000000000001#32 = .ok (.xori 2#5 1#5 0x8001#16) ∧
    decode 0b001111_00000_00010_1000000000000001#32 = .ok (.lui 2#5 0x8001#16) := by decide

theorem test_decode_shift :
    decode 0b000000_00000_00010_00011_10001_000000#32 = .ok (.sll 3#5 2#5 17) ∧
    decode 0b000000_00000_00010_00011_10001_000010#32 = .ok (.srl 3#5 2#5 17) ∧
    decode 0b000000_00000_00010_00011_10001_000011#32 = .ok (.sra 3#5 2#5 17) ∧
    decode 0b000000_00001_00010_00011_00000_000100#32 = .ok (.sllv 3#5 2#5 1#5) ∧
    decode 0b000000_00001_00010_00011_00000_000110#32 = .ok (.srlv 3#5 2#5 1#5) ∧
    decode 0b000000_00001_00010_00011_00000_000111#32 = .ok (.srav 3#5 2#5 1#5) := by decide

theorem test_decode_multiply_divide :
    decode 0b000000_00001_00010_00000_00000_011000#32 = .ok (.mult 1#5 2#5) ∧
    decode 0b000000_00001_00010_00000_00000_011001#32 = .ok (.multu 1#5 2#5) ∧
    decode 0b000000_00001_00010_00000_00000_011010#32 = .ok (.div 1#5 2#5) ∧
    decode 0b000000_00001_00010_00000_00000_011011#32 = .ok (.divu 1#5 2#5) ∧
    decode 0b000000_00000_00000_00011_00000_010000#32 = .ok (.mfhi 3#5) ∧
    decode 0b000000_00000_00000_00011_00000_010010#32 = .ok (.mflo 3#5) ∧
    decode 0b000000_00001_00000_00000_00000_010001#32 = .ok (.mthi 1#5) ∧
    decode 0b000000_00001_00000_00000_00000_010011#32 = .ok (.mtlo 1#5) := by decide

theorem test_decode_branch :
    decode 0b000100_00001_00010_1111111111111101#32 = .ok (.beq 1#5 2#5 0xFFFD#16) ∧
    decode 0b000101_00001_00010_1111111111111101#32 = .ok (.bne 1#5 2#5 0xFFFD#16) ∧
    decode 0b000110_00001_00000_1111111111111101#32 = .ok (.blez 1#5 0xFFFD#16) ∧
    decode 0b000111_00001_00000_1111111111111101#32 = .ok (.bgtz 1#5 0xFFFD#16) ∧
    decode 0b000001_00001_00000_1111111111111101#32 = .ok (.bltz 1#5 0xFFFD#16) ∧
    decode 0b000001_00001_00001_1111111111111101#32 = .ok (.bgez 1#5 0xFFFD#16) ∧
    decode 0b000001_00001_10000_1111111111111101#32 = .ok (.bltzal 1#5 0xFFFD#16) ∧
    decode 0b000001_00001_10001_1111111111111101#32 = .ok (.bgezal 1#5 0xFFFD#16) := by decide

theorem test_decode_jump :
    decode 0b000010_10000000000000000000000001#32 = .ok (.j 0x2000001#26) ∧
    decode 0b000011_10000000000000000000000001#32 = .ok (.jal 0x2000001#26) ∧
    decode 0b000000_00001_00000_00011_00000_001001#32 = .ok (.jalr 3#5 1#5) ∧
    decode 0b000000_00001_00000_00000_00000_001000#32 = .ok (.jr 1#5) := by decide

theorem test_decode_load_store :
    decode 0b100000_00001_00010_1000000000000001#32 = .ok (.lb 2#5 1#5 0x8001#16) ∧
    decode 0b100001_00001_00010_1000000000000001#32 = .ok (.lh 2#5 1#5 0x8001#16) ∧
    decode 0b100011_00001_00010_1000000000000001#32 = .ok (.lw 2#5 1#5 0x8001#16) ∧
    decode 0b100100_00001_00010_1000000000000001#32 = .ok (.lbu 2#5 1#5 0x8001#16) ∧
    decode 0b100101_00001_00010_1000000000000001#32 = .ok (.lhu 2#5 1#5 0x8001#16) ∧
    decode 0b101000_00001_00010_1000000000000001#32 = .ok (.sb 2#5 1#5 0x8001#16) ∧
    decode 0b101001_00001_00010_1000000000000001#32 = .ok (.sh 2#5 1#5 0x8001#16) ∧
    decode 0b101011_00001_00010_1000000000000001#32 = .ok (.sw 2#5 1#5 0x8001#16) := by decide

/-- SYSCALL's bits 25:6 are ignored (R307, R650). -/
theorem test_decode_syscall :
    decode 0b000000_00000_00000_00000_00000_001100#32 = .ok .syscall ∧
    decode 0b000000_11111_11111_11111_11111_001100#32 = .ok .syscall := by decide

/-- The unknown words of 95_test_vectors.md section 2. -/
theorem test_decode_rejects_unknown :
    decode 0x0000000D#32 = .error (.unknown 0x0000000D#32) ∧ decode 0x0000000F#32 = .error (.unknown 0x0000000F#32) ∧
    decode 0x0000003F#32 = .error (.unknown 0x0000003F#32) ∧ decode 0x04020000#32 = .error (.unknown 0x04020000#32) ∧
    decode 0x40000000#32 = .error (.unknown 0x40000000#32) ∧ decode 0x50000000#32 = .error (.unknown 0x50000000#32) ∧
    decode 0x88000000#32 = .error (.unknown 0x88000000#32) ∧ decode 0xC0000000#32 = .error (.unknown 0xC0000000#32) ∧
    decode 0xFC000000#32 = .error (.unknown 0xFC000000#32) := by decide

/-- Words are little-endian in memory (R300); fewer than four bytes are no instruction. -/
theorem test_decode_bytes :
    decodeBytes [0x05#8, 0x00#8, 0x01#8, 0x24#8, 0xFF#8] = .ok (.addiu 1#5 0#5 5#16, [0xFF#8]) ∧
    decodeBytes [0x05#8, 0x00#8, 0x01#8] = .error (.truncated 3) ∧ decodeBytes [] = .error (.truncated 0) := by decide

theorem test_decodeTableWord :
    decodeTableWord 32 0x24010005 = some (.addiu 1#5 0#5 5#16) ∧ decodeTableWord 32 0x0000000D = none := by decide

/-! ## One instruction at a time -/

/-- Core 0 after reset, under CFG-T. -/
def core0 : CoreState := CoreState.reset (Config.cfgT 1) 0

/-- The reset machine of one core, with that core's state replaced. -/
def one (core : CoreState) : State := (State.resetWith (Config.cfgT 1)).setCore 0 core

/-- A core whose listed registers hold the listed values. -/
def withRegs (rs : List (Reg × Word)) : CoreState :=
  { core0 with regs := rs.foldl (fun f p => f.write p.1 p.2) core0.regs }

/-- The core after the instruction, fetched from `pc`, has passed alone through its stages. -/
def passedAt (pc : Word) (i : Instr) (core : CoreState) : Option CoreState :=
  match lonePassage i 0 (one { core with decodeOp := some (Op.fresh pc (encode i)) }) with
  | .next t => t.cores[0]?
  | _ => none

/-- What register `r` then holds. -/
def reg (r : Reg) (i : Instr) (core : CoreState) : Option Word := (passedAt 0x00400020#32 i core).map (·.regs.read r)

/-- Registers 1 and 2 hold the two operands. -/
def operands (a b : Word) : CoreState := withRegs [(1#5, a), (2#5, b)]

/-! ### Three registers (95_test_vectors.md section 3) -/

theorem test_add : reg 3#5 (.add 3#5 1#5 2#5) (operands 0x7FFFFFFF#32 1#32) = some 0x80000000#32 := by decide
theorem test_add_into_zero : reg 0#5 (.add 0#5 1#5 2#5) (operands 5#32 6#32) = some 0#32 := by decide
theorem test_addu : reg 3#5 (.addu 3#5 1#5 2#5) (operands 0x80000000#32 0x80000000#32) = some 0#32 := by decide
theorem test_addu_source_is_destination :
    reg 1#5 (.addu 1#5 1#5 1#5) (operands 0x80000000#32 0#32) = some 0#32 := by decide
theorem test_sub : reg 3#5 (.sub 3#5 1#5 2#5) (operands 0x80000000#32 1#32) = some 0x7FFFFFFF#32 := by decide
theorem test_subu : reg 3#5 (.subu 3#5 1#5 2#5) (operands 5#32 5#32) = some 0#32 := by decide
theorem test_and : reg 3#5 (.and 3#5 1#5 2#5) (operands 0xF0F0F0F0#32 0x0FF00FF0#32) = some 0x00F000F0#32 := by decide
theorem test_or : reg 3#5 (.or 3#5 1#5 2#5) (operands 0xF0F0F0F0#32 0x0FF00FF0#32) = some 0xFFF0FFF0#32 := by decide
theorem test_xor : reg 3#5 (.xor 3#5 1#5 2#5) (operands 0xF0F0F0F0#32 0x0FF00FF0#32) = some 0xFF00FF00#32 := by decide
theorem test_nor : reg 3#5 (.nor 3#5 1#5 2#5) (operands 0xF0F0F0F0#32 0x0FF00FF0#32) = some 0x000F000F#32 := by decide
theorem test_slt : reg 3#5 (.slt 3#5 1#5 2#5) (operands 0x80000000#32 0x7FFFFFFF#32) = some 1#32 := by decide
theorem test_sltu : reg 3#5 (.sltu 3#5 1#5 2#5) (operands 0xFFFFFFFF#32 1#32) = some 0#32 := by decide

/-! ### Immediates (section 4) -/

theorem test_addi : reg 3#5 (.addi 3#5 1#5 1#16) (operands 0x7FFFFFFF#32 0#32) = some 0x80000000#32 := by decide
theorem test_addiu : reg 3#5 (.addiu 3#5 1#5 0x8000#16) (operands 0x10#32 0#32) = some 0xFFFF8010#32 := by decide
theorem test_slti : reg 3#5 (.slti 3#5 1#5 0xFFFF#16) (operands 0xFFFFFFFE#32 0#32) = some 1#32 := by decide
theorem test_slti_signed : reg 3#5 (.slti 3#5 1#5 0xFFFF#16) (operands 0#32 0#32) = some 0#32 := by decide
theorem test_sltiu : reg 3#5 (.sltiu 3#5 1#5 0xFFFF#16) (operands 0#32 0#32) = some 1#32 := by decide
theorem test_andi : reg 3#5 (.andi 3#5 1#5 0x8001#16) (operands 0xFFFFFFFF#32 0#32) = some 0x00008001#32 := by decide
theorem test_ori : reg 3#5 (.ori 3#5 1#5 0xFFFF#16) (operands 0x12340000#32 0#32) = some 0x1234FFFF#32 := by decide
theorem test_xori : reg 3#5 (.xori 3#5 1#5 0x00FF#16) (operands 0xFFFFFFFF#32 0#32) = some 0xFFFFFF00#32 := by decide
theorem test_lui : reg 3#5 (.lui 3#5 0x8000#16) (operands 0#32 0#32) = some 0x80000000#32 := by decide

/-! ### Shifts (section 5); register 2 is shifted -/

theorem test_sll : reg 3#5 (.sll 3#5 2#5 31) (operands 0#32 1#32) = some 0x80000000#32 := by decide
theorem test_sll_by_zero : reg 3#5 (.sll 3#5 2#5 0) (operands 0#32 0x12345678#32) = some 0x12345678#32 := by decide
theorem test_srl : reg 3#5 (.srl 3#5 2#5 4) (operands 0#32 0xFFFFFFFF#32) = some 0x0FFFFFFF#32 := by decide
theorem test_sra : reg 3#5 (.sra 3#5 2#5 4) (operands 0#32 0x80000000#32) = some 0xF8000000#32 := by decide
theorem test_sllv : reg 3#5 (.sllv 3#5 2#5 1#5) (operands 0x21#32 1#32) = some 2#32 := by decide
theorem test_sllv_by_32 : reg 3#5 (.sllv 3#5 2#5 1#5) (operands 0x20#32 1#32) = some 1#32 := by decide
theorem test_srlv : reg 3#5 (.srlv 3#5 2#5 1#5) (operands 0x1F#32 0x80000000#32) = some 1#32 := by decide
theorem test_srav : reg 3#5 (.srav 3#5 2#5 1#5) (operands 0xFFFFFFE4#32 0x80000000#32) = some 0xF8000000#32 := by decide

/-! ### Multiply, divide, HI and LO (section 6) -/

/-- HI, LO and the counter after the instruction. -/
def hiLo (i : Instr) (core : CoreState) : Option (Word × Word × Nat) :=
  (passedAt 0x00400020#32 i core).map fun c => (c.hi, c.lo, c.multiplierStall)

theorem test_mult : hiLo (.mult 1#5 2#5) (operands 0x80000000#32 0x80000000#32) = some (0x40000000#32, 0#32, 4) := by decide
theorem test_mult_signed :
    hiLo (.mult 1#5 2#5) (operands 0xFFFFFFFF#32 2#32) = some (0xFFFFFFFF#32, 0xFFFFFFFE#32, 4) := by decide
theorem test_multu :
    hiLo (.multu 1#5 2#5) (operands 0xFFFFFFFF#32 0xFFFFFFFF#32) = some (0xFFFFFFFE#32, 1#32, 4) := by decide
theorem test_div :
    hiLo (.div 1#5 2#5) (operands 0xFFFFFFF9#32 2#32) = some (0xFFFFFFFF#32, 0xFFFFFFFD#32, 32) ∧
    hiLo (.div 1#5 2#5) (operands 7#32 0xFFFFFFFE#32) = some (1#32, 0xFFFFFFFD#32, 32) ∧
    hiLo (.div 1#5 2#5) (operands 0xFFFFFFF9#32 0xFFFFFFFE#32) = some (0xFFFFFFFF#32, 3#32, 32) := by decide
theorem test_div_corners :
    hiLo (.div 1#5 2#5) (operands 0x80000000#32 0xFFFFFFFF#32) = some (0#32, 0x80000000#32, 32) ∧
    hiLo (.div 1#5 2#5) (operands 5#32 0#32) = some (0#32, 0#32, 32) := by decide
theorem test_divu : hiLo (.divu 1#5 2#5) (operands 0xFFFFFFF9#32 2#32) = some (1#32, 0x7FFFFFFC#32, 32) := by decide
theorem test_divu_by_zero : hiLo (.divu 1#5 2#5) (operands 0xFFFFFFFF#32 0#32) = some (0#32, 0#32, 32) := by decide

/-- Section 6.2's start: HI = 0x11111111, LO = 0x22222222, the counter 0, register 7 holds 0xABCD0000. -/
def hiLoStart : CoreState := { withRegs [(7#5, 0xABCD0000#32)] with hi := 0x11111111#32, lo := 0x22222222#32 }

theorem test_mfhi : reg 6#5 (.mfhi 6#5) hiLoStart = some 0x11111111#32 := by decide
theorem test_mflo : reg 6#5 (.mflo 6#5) hiLoStart = some 0x22222222#32 := by decide
theorem test_mthi : hiLo (.mthi 7#5) hiLoStart = some (0xABCD0000#32, 0x22222222#32, 0) := by decide
theorem test_mtlo : hiLo (.mtlo 7#5) hiLoStart = some (0x11111111#32, 0xABCD0000#32, 0) := by decide

/-! ### Branches and jumps (section 7) -/

/-- Where the branch or jump at `pc` goes, if it is taken. -/
def goesTo (pc : Word) (i : Instr) (core : CoreState) : Option (Option Word) :=
  (passedAt pc i core).map fun c => if c.branchRecover.pending then some c.branchRecover.dest else none

theorem test_beq :
    goesTo 0x00400000#32 (.beq 1#5 2#5 2#16) (operands 5#32 5#32) = some (some 0x0040000C#32) ∧
    goesTo 0x00400000#32 (.beq 1#5 2#5 2#16) (operands 5#32 6#32) = some none := by decide
theorem test_beq_wraps :
    goesTo 0xFFFFFFFC#32 (.beq 0#5 0#5 0#16) (operands 0#32 0#32) = some (some 0#32) := by decide
theorem test_bne :
    goesTo 0x00400000#32 (.bne 1#5 2#5 0x8000#16) (operands 0x80000000#32 0#32) = some (some 0x003E0004#32) ∧
    goesTo 0x00400000#32 (.bne 1#5 2#5 0x8000#16) (operands 5#32 5#32) = some none := by decide

/-- Whether the branch is taken. -/
def taken (i : Instr) (core : CoreState) : Option Bool := (goesTo 0x00400020#32 i core).map Option.isSome

theorem test_blez :
    taken (.blez 1#5 3#16) (operands 0x80000000#32 0#32) = some true ∧
    taken (.blez 1#5 3#16) (operands 0#32 0#32) = some true ∧
    taken (.blez 1#5 3#16) (operands 1#32 0#32) = some false := by decide
theorem test_bgtz :
    taken (.bgtz 1#5 3#16) (operands 0x80000000#32 0#32) = some false ∧
    taken (.bgtz 1#5 3#16) (operands 0#32 0#32) = some false ∧
    taken (.bgtz 1#5 3#16) (operands 1#32 0#32) = some true := by decide
theorem test_bltz :
    taken (.bltz 1#5 3#16) (operands 0x80000000#32 0#32) = some true ∧
    taken (.bltz 1#5 3#16) (operands 0#32 0#32) = some false ∧
    taken (.bltz 1#5 3#16) (operands 1#32 0#32) = some false := by decide
theorem test_bgez :
    taken (.bgez 1#5 3#16) (operands 0x80000000#32 0#32) = some false ∧
    taken (.bgez 1#5 3#16) (operands 0#32 0#32) = some true ∧
    taken (.bgez 1#5 3#16) (operands 1#32 0#32) = some true := by decide
theorem test_bltzal :
    taken (.bltzal 31#5 3#16) (withRegs [(31#5, 0xFFFFFFFF#32)]) = some true ∧
    reg 31#5 (.bltzal 31#5 3#16) (withRegs [(31#5, 0xFFFFFFFF#32)]) = some 0x00400024#32 := by decide
theorem test_bltzal_links_when_not_taken :
    taken (.bltzal 1#5 3#16) (operands 0#32 0#32) = some false ∧
    reg 31#5 (.bltzal 1#5 3#16) (operands 0#32 0#32) = some 0x00400024#32 := by decide
theorem test_bgezal :
    taken (.bgezal 0#5 3#16) (operands 0#32 0#32) = some true ∧
    reg 31#5 (.bgezal 0#5 3#16) (operands 0#32 0#32) = some 0x00400024#32 := by decide
theorem test_j :
    goesTo 0x00400000#32 (.j 0x0100004#26) core0 = some (some 0x00400010#32) ∧
    goesTo 0x0FFFFFFC#32 (.j 0#26) core0 = some (some 0x10000000#32) := by decide
theorem test_jal :
    goesTo 0x00400004#32 (.jal 0x0100008#26) core0 = some (some 0x00400020#32) ∧
    (passedAt 0x00400004#32 (.jal 0x0100008#26) core0).map (·.regs.read 31#5) = some 0x00400008#32 := by decide
theorem test_jr : goesTo 0x00400020#32 (.jr 1#5) (operands 0x00400002#32 0#32) = some (some 0x00400002#32) := by decide
theorem test_jalr_source_is_destination :
    goesTo 0x00400100#32 (.jalr 9#5 9#5) (withRegs [(9#5, 0x00400200#32)]) = some (some 0x00400200#32) ∧
    (passedAt 0x00400100#32 (.jalr 9#5 9#5) (withRegs [(9#5, 0x00400200#32)])).map (·.regs.read 9#5) =
      some 0x00400104#32 := by decide

/-! ### Loads and stores (section 8): the word 0x8844CC22 at 0x10000000, its block in the D-cache -/

/-- A D-cache that holds the block of 0x10000000. -/
def warmDcache : L1 :=
  { core0.dcache with sets := [[{ CacheBlock.reset with tag := 0x800000, state := .exclusive }, CacheBlock.reset]] }

/-- Memory with the word of section 8. -/
def section8 : Memory := [(0x10000000, 0x22#8), (0x10000001, 0xCC#8), (0x10000002, 0x44#8), (0x10000003, 0x88#8)]

/-- The state with one load or store just fetched; register 4 holds the address, register 9 the value to store. -/
def beforeAccess (i : Instr) (a v : Word) : State :=
  { one { withRegs [(4#5, a), (9#5, v)] with dcache := warmDcache, decodeOp := some (Op.fresh 0x00400020#32 (encode i)) } with
    mem := section8 }

/-- What a load of `a` leaves in register 5. -/
def loaded (i : Instr) (a : Word) : Option Word :=
  match lonePassage i 0 (beforeAccess i a 0#32) with
  | .next t => (t.cores[0]?).map (·.regs.read 5#5)
  | _ => none

/-- The word at 0x10000000 after a store of `v` to `a`. -/
def stored (i : Instr) (a v : Word) : Option Word :=
  match lonePassage i 0 (beforeAccess i a v) with
  | .next t => some (memRead32 t.cfg t.mem 0x10000000#32)
  | _ => none

theorem test_lb :
    loaded (.lb 5#5 4#5 0#16) 0x10000001#32 = some 0xFFFFFFCC#32 ∧
    loaded (.lb 5#5 4#5 0#16) 0x10000003#32 = some 0xFFFFFF88#32 := by decide
theorem test_lbu :
    loaded (.lbu 5#5 4#5 0#16) 0x10000001#32 = some 0xCC#32 ∧
    loaded (.lbu 5#5 4#5 0#16) 0x10000003#32 = some 0x88#32 := by decide
theorem test_lh :
    loaded (.lh 5#5 4#5 0#16) 0x10000001#32 = some 0x44CC#32 ∧
    loaded (.lh 5#5 4#5 0#16) 0x10000002#32 = some 0xFFFF8844#32 ∧
    loaded (.lh 5#5 4#5 0#16) 0x10000003#32 = some 0x88#32 := by decide
theorem test_lhu :
    loaded (.lhu 5#5 4#5 0#16) 0x10000002#32 = some 0x8844#32 ∧
    loaded (.lhu 5#5 4#5 0#16) 0x10000003#32 = some 0x88#32 := by decide
theorem test_lw : loaded (.lw 5#5 4#5 0xFFFC#16) 0x10000006#32 = some 0x8844CC22#32 := by decide
theorem test_sb :
    stored (.sb 9#5 4#5 0#16) 0x10000002#32 0xFFFFFFAB#32 = some 0x88ABCC22#32 ∧
    stored (.sb 9#5 4#5 0#16) 0x10000003#32 0x11#32 = some 0x1144CC22#32 := by decide
theorem test_sh :
    stored (.sh 9#5 4#5 0#16) 0x10000001#32 0x1234#32 = some 0x88123422#32 ∧
    stored (.sh 9#5 4#5 0#16) 0x10000002#32 0xFFFF1234#32 = some 0x1234CC22#32 ∧
    stored (.sh 9#5 4#5 0#16) 0x10000003#32 0x1234#32 = some 0x3444CC22#32 := by decide
theorem test_sw :
    stored (.sw 9#5 4#5 0#16) 0x10000000#32 0xDEADBEEF#32 = some 0xDEADBEEF#32 ∧
    stored (.sw 9#5 4#5 0#16) 0x10000001#32 0xDEADBEEF#32 = some 0xDEADBEEF#32 := by decide

/-! ### SYSCALL (45_syscall.md; 95_test_vectors.md section 1.1) -/

/-- The machine after SYSCALL with the given `$v0` and `$v1`, alone in core 0 of two. -/
def afterSyscall (v0 v1 : Word) : Option State :=
  let core := { withRegs [(2#5, v0), (3#5, v1)] with decodeOp := some (Op.fresh 0x00400020#32 0x0000000C#32) }
  match lonePassage .syscall 0 ((State.resetWith (Config.cfgT 2)).setCore 0 core) with
  | .next t => some t
  | _ => none

theorem test_syscall_print : (afterSyscall 0x0B#32 0x0C#32).map (·.output) = some ["OUT (CPU 0): 0000000c"] := by decide

theorem test_syscall_halt_and_spawn :
    ((afterSyscall 0x0A#32 0#32).bind (·.cores[0]?)).map (fun c => (c.running, c.pc)) = some (false, 0x00400020#32) ∧
    ((afterSyscall 1#32 7#32).bind (·.cores[0]?)).map (·.regs.read 3#5) = some 0#32 ∧
    ((afterSyscall 1#32 7#32).bind (·.cores[1]?)).map (fun c => (c.running, c.pc, c.regs.read 3#5)) =
      some (true, 0x00400024#32, 1#32) := by decide

/-! ### The machine -/

/-- 95_test_vectors.md section 9.1: LRU in a 2-way set, blocks X, Y, Z = tags 1, 2, 3. -/
theorem test_lru :
    let after := touchWays 0 (installWays 3 (touchWays 0 (installWays 2 (installWays 1 [CacheBlock.reset, CacheBlock.reset]))))
    after.map (fun b => (b.tag, b.lru)) = [(1, 0), (3, 1)] := by decide

/-- R243 with R262: two ready requests, a DRAM with one place. The first is handed over, the second stays at the head. -/
theorem test_requests_stop_at_a_full_dram :
    let cfg : Config := { Config.cfgT 1 with dramReqQueueSize := 1 }
    let item (a : Word) (ready : Nat) : ReqItem := { addr := a, isWrite := false, coreId := 0, readyCycle := ready }
    let after := drainRequests cfg 5 [item 0x00#32 5, item 0x20#32 5, item 0x40#32 1] (Dram.reset cfg)
    after.1 = [item 0x20#32 5, item 0x40#32 1] ∧ after.2.queue.map (·.addr) = [0x00#32] := by decide

/-- R243: a request that is not ready holds those behind it. -/
theorem test_requests_stop_at_one_not_ready :
    let cfg := Config.cfgT 1
    let item (a : Word) (ready : Nat) : ReqItem := { addr := a, isWrite := false, coreId := 0, readyCycle := ready }
    (drainRequests cfg 5 [item 0x00#32 6, item 0x20#32 5] (Dram.reset cfg)).1 = [item 0x00#32 6, item 0x20#32 5] := by
  decide

/-- 95_test_vectors.md section 2 and R330: the spec's own texts, a jump's operand being a byte address. -/
theorem test_assembler_text :
    asmText (.j 0x0100004#26) = "j 0x00400010" ∧ asmText (.jal 0x0100008#26) = "jal 0x00400020" ∧
    asmText (.beq 0#5 0#5 2#16) = "beq $0,$0,+2" ∧ asmText (.bltz 4#5 0xFFFF#16) = "bltz $4,-1" ∧
    asmText (.sb 9#5 4#5 1#16) = "sb $9,1($4)" := by decide

/-- R802: two records of an image, digits of either case (log 14); a record with seven digits is refused. -/
theorem test_image_text :
    parseImage "00400000 2401000A\n0040000c DEADbeef\n" =
      some [(0x00400000#32, 0x2401000A#32), (0x0040000C#32, 0xDEADBEEF#32)] ∧
    parseImage "00400000 2401000\n" = none := by decide

/-- Section 9.5, cycle 0 of every run under CFG-T: the first fetch misses everywhere and queues one request. -/
theorem test_first_cycle :
    (match step (State.resetWith (Config.cfgT 1)) with
      | .next t => some (t.cycles, t.l2.reqQueue.map (fun q => (q.addr, q.readyCycle)), t.l2.mshrs.map (·.valid))
      | _ => none) = some (1, [(0x00400000#32, 1)], [true, false]) := by decide

/-- A placed word runs in the next step. -/
theorem test_withFetchWord :
    (match step (State.reset.withFetchWord 32 0x24010005) with
      | .next t => (t.cores[0]?).map fun c => c.memOp.map fun op => (op.regDst, op.regDstValue)
      | _ => none) = some (some (some 1#5, 5#32)) := by decide

/-! ## Witnesses: for every statement with hypotheses, a state and operands that meet them -/

/-- The reset machine of two cores, with the state of both replaced. -/
def two (core core' : CoreState) : State := ((State.resetWith (Config.cfgT 2)).setCore 0 core).setCore 1 core'

/-- Core 1 after reset: idle. -/
def idle1 : CoreState := CoreState.reset (Config.cfgT 2) 1

/-- The op of `i`, fetched from 0x00400020, as decode leaves it. -/
def decoded (i : Instr) : Op := (blocksOf i).decodeBlock (extractFields (Op.fresh 0x00400020#32 (encode i)))

/-- `addiu $1,$0,5` just fetched, decoded, and executed. -/
def addiuFetched : Op := Op.fresh 0x00400020#32 0x24010005#32
def addiuDecoded : Op := decoded (.addiu 1#5 0#5 5#16)
def addiuExecuted : Op := { addiuDecoded with regDstValue := 5#32, regDstValueReady := true }

theorem witness_DecodeInvertsEncode :
    (Instr.sra 31#5 31#5 31).WellFormed ∧ (Instr.sll 0#5 0#5 0).WellFormed ∧ (Instr.addi 31#5 31#5 0xFFFF#16).WellFormed := by
  decide

theorem witness_StepIsOneProcessorCycle :
    configAdmitted (two core0 idle1).cfg = true ∧
    ((two core0 idle1).cores[0]? = some core0 ∧ core0.running = true) ∧
    ((two core0 idle1).cores[1]? = some idle1 ∧ idle1.running = false) := by decide

theorem witness_StageCallRunsTheDecodedInstruction :
    (one { core0 with decodeOp := some addiuFetched }).cores[0]? = some { core0 with decodeOp := some addiuFetched } ∧
    slotOf .decode { core0 with decodeOp := some addiuFetched } = some addiuFetched ∧
    decode addiuFetched.instruction = .ok (.addiu 1#5 0#5 5#16) ∧
    decode (Op.fresh 0#32 0x0000000D#32).instruction = .error (.unknown 0x0000000D#32) ∧
    slotOf .decode core0 = none := by decide

/-- A core whose I-cache holds the block of 0x00400000. -/
def warmIcore : CoreState :=
  { core0 with
    icache := { core0.icache with sets := [[{ CacheBlock.reset with tag := 0x20000, state := .exclusive }, CacheBlock.reset]] } }

theorem witness_FetchReadsTheWordAtPc :
    core0.decodeOp = none ∧ ({ core0 with decodeOp := some addiuFetched } : CoreState).decodeOp ≠ none ∧
    (l1Access (Config.cfgT 1) 0 0 warmIcore.pc false false warmIcore.icache (one core0).l2).1 = true ∧
    (l1Access (Config.cfgT 1) 0 0 core0.pc false false core0.icache (one core0).l2).1 = false := by decide

theorem witness_PlacedWordIsExecutedNext :
    (one core0).cores[nextCore (one core0)]? = some core0 ∧ decode 0x24010005#32 = .ok (.addiu 1#5 0#5 5#16) ∧
    (one core0).mem.wf = true ∧ isMapped (one core0).cfg core0.pc = true := by decide

theorem witness_SourcesHaveProgramOrderValues :
    (1#5 ≠ (0#5 : Reg)) ∧
    (({ core0 with memOp := some addiuExecuted } : CoreState).memOp = some addiuExecuted ∧ addiuExecuted.regDst = some 1#5) ∧
    (({ core0 with wbOp := some addiuExecuted } : CoreState).memOp = none ∧
      ({ core0 with wbOp := some addiuExecuted } : CoreState).wbOp = some addiuExecuted) ∧
    addiuExecuted.regDst ≠ some 31#5 ∧ core0.memOp = none ∧ core0.wbOp = none := by decide

theorem witness_EmptyOrBlockedStagesDoNothing :
    InStage ((one core0).focusOn 0 .decode) 0 .decode core0 ∧ core0.decodeOp = none ∧
    InStage ((one core0).focusOn 0 .execute) 0 .execute core0 ∧ core0.executeOp = none ∧
    InStage ((one core0).focusOn 0 .mem) 0 .mem core0 ∧ core0.memOp = none ∧
    InStage ((one core0).focusOn 0 .wb) 0 .wb core0 ∧ core0.wbOp = none ∧
    (let full : CoreState := { core0 with executeOp := some addiuDecoded, memOp := some addiuExecuted }
     InStage ((one full).focusOn 0 .decode) 0 .decode full ∧ full.executeOp ≠ none ∧
     InStage ((one full).focusOn 0 .execute) 0 .execute full ∧ full.memOp ≠ none) := by decide

theorem witness_MemPassesAndWritebackCommits :
    isMemInstr (.addiu 1#5 0#5 5#16) = false ∧ Instr.addiu 1#5 0#5 5#16 ≠ .syscall ∧ (31#5 : Reg) ≠ 0#5 ∧
    (1#5 : Reg) ≠ 31#5 := by decide

/-- One op of `addiu $1,$0,5` in every slot. -/
def fullCore : CoreState :=
  { core0 with
    decodeOp := some addiuFetched
    executeOp := some addiuDecoded
    memOp := some addiuExecuted
    wbOp := some addiuExecuted
    fetched := 4 }

theorem witness_EveryStageHasItsFrame :
    (∃ t, exec (.addiu 1#5 0#5 5#16) ((one { fullCore with executeOp := none }).focusOn 0 .decode) = .next t) ∧
    InStage ((one { fullCore with executeOp := none }).focusOn 0 .decode) 0 .decode { fullCore with executeOp := none } ∧
    (∃ t, exec (.addiu 1#5 0#5 5#16) ((one { fullCore with memOp := none }).focusOn 0 .execute) = .next t) ∧
    InStage ((one { fullCore with memOp := none }).focusOn 0 .execute) 0 .execute { fullCore with memOp := none } ∧
    (∃ t, exec (.addiu 1#5 0#5 5#16) ((one fullCore).focusOn 0 .mem) = .next t) ∧
    InStage ((one fullCore).focusOn 0 .mem) 0 .mem fullCore ∧
    (∃ t, exec (.addiu 1#5 0#5 5#16) ((one fullCore).focusOn 0 .wb) = .next t) ∧
    InStage ((one fullCore).focusOn 0 .wb) 0 .wb fullCore ∧
    addiuDecoded.isBranch = false ∧ (addiuExecuted.isMem && addiuExecuted.memWrite) = false := by
  refine ⟨⟨_, exec_eq_run _ _⟩, by decide, ⟨_, exec_eq_run _ _⟩, by decide, ⟨_, exec_eq_run _ _⟩, by decide,
    ⟨_, exec_eq_run _ _⟩, by decide, by decide, by decide⟩

theorem witness_RecoveryKeepsTheFirstAndAppliesOnce :
    core0.branchRecover.pending = false ∧
    (recover 3 0x0040000C#32 core0).branchRecover = { pending := true, dest := 0x0040000C#32, flushDepth := 3 } ∧
    (recover 5 0#32 core0).branchRecover = { pending := true, dest := 0#32, flushDepth := 5 } := by decide

/-- A core in which a taken branch has just left execute. -/
def branched : CoreState :=
  { recover 3 0x0040000C#32 core0 with decodeOp := some addiuFetched, memOp := some addiuExecuted }

theorem witness_TakenBranchSquashesOnlyTheYounger :
    (one branched).cores[0]? = some branched ∧
    branched.branchRecover = { pending := true, dest := 0x0040000C#32, flushDepth := 3 } ∧ branched.executeOp = none ∧
    ∃ t, andThen (callStage 0 .decode (one branched))
      (fun u => .next ((fetchStage 0 u).modifyCore 0 applyRecoveryCore)) = .next t := by
  rw [callStage_eq]
  exact ⟨by decide, by decide, by decide, _, rfl⟩

theorem witness_ResetMeetsEveryInvariant : configAdmitted (Config.cfgT 1) = true ∧ configAdmitted (Config.cfgT 4) = true := by
  decide

/-! ### A busy machine, for the invariants -/

/-- A set with two valid blocks, one of them dirty. -/
def busySet : CacheSet :=
  [{ CacheBlock.reset with tag := 0x800000, state := .modified, dirty := true, lru := 1 },
   { CacheBlock.reset with tag := 0x800001, state := .exclusive, lru := 0 }]

/-- A core with an op in every slot, counters that fit, a D-cache with two blocks, and both its L1s waiting for the L2. -/
def busyCore : CoreState :=
  { fullCore with
    fetched := 9
    retired := 3
    squashed := 2
    multiplierStall := 32
    icache := { core0.icache with pendingMiss := true, pendingMissAddr := 0x00400004#32, pendingMissReady := none }
    dcache := { sets := [busySet], pendingMiss := true, pendingMissAddr := 0x10000044#32, pendingMissReady := none } }

/-- The L2 with both blocks awaited, one request in the DRAM and one on its way back. -/
def busyL2 : L2 where
  sets := [busySet ++ [CacheBlock.reset, CacheBlock.reset]]
  mshrs :=
    [{ valid := true, addr := 0x00400000#32, isWrite := false, requesters := [0], done := false, readyCycle := 0 },
     { valid := true, addr := 0x10000040#32, isWrite := false, requesters := [0], done := false, readyCycle := 0 }]
  reqQueue := []
  retQueue := [{ addr := 0x10000040#32, readyCycle := 0 }]

/-- The machine with that core and L2. -/
def busy : State :=
  { one busyCore with
    mem := section8
    l2 := busyL2
    dram := { (Dram.reset (Config.cfgT 1)) with
      queue := [{ isWrite := false, addr := 0x00400000#32, coreId := 0, source := .memory, arrivalCycle := 0,
                  loc := { channel := 0, rank := 0, bank := 0, row := 0 }, dispatched := false, dataEnd := 0 }] } }

theorem busy_cores : busy.cores = [busyCore] := by decide

/-- The busy machine steps. -/
theorem busy_steps : ∃ t, step busy = .next t := ⟨_, step_eq_next.mpr ⟨by decide, rfl⟩⟩

theorem everyCore_busy {P : Nat → CoreState → Prop} (h : P 0 busyCore) : EveryCore P busy := by
  intro k core hk
  rw [busy_cores] at hk
  cases k with
  | zero => simp only [List.getElem?_cons_zero, Option.some.injEq] at hk; exact hk ▸ h
  | succ k => simp at hk

theorem setInv_busy : SetInv busySet :=
  { lruPerm := by decide, dirtyValid := by decide, neverShared := by decide, tagsDistinct := by decide }

theorem setInv_busyL2 : SetInv (busySet ++ [CacheBlock.reset, CacheBlock.reset]) :=
  { lruPerm := by decide, dirtyValid := by decide, neverShared := by decide, tagsDistinct := by decide }

theorem setInv_empty : SetInv [CacheBlock.reset, CacheBlock.reset] :=
  { lruPerm := by decide, dirtyValid := by decide, neverShared := by decide, tagsDistinct := by decide }

theorem witness_StepKeepsMemoryCanonical : busy.mem.wf = true ∧ ∃ t, step busy = .next t := ⟨by decide, busy_steps⟩

theorem witness_StepKeepsCoreBasics : EveryCore CoreBasics busy ∧ ∃ t, step busy = .next t :=
  ⟨everyCore_busy { regZero := by decide, stallRange := by decide, noRecovery := by decide, idIsPlace := by decide }, busy_steps⟩

theorem busyCore_counterBounds : CounterBounds busyCore :=
  { noRecovery := by decide, retiredBound := by decide, squashedBound := by decide }

theorem witness_StepKeepsCounterBounds :
    EveryCore (fun _ => CounterBounds) busy ∧ CounterBounds busyCore ∧ ∃ t, step busy = .next t :=
  ⟨everyCore_busy busyCore_counterBounds, busyCore_counterBounds, busy_steps⟩

theorem opDecoded_addiu (op : Op) (h : op = addiuDecoded ∨ op = addiuExecuted) : OpDecoded op := by
  rcases h with rfl | rfl
  · exact { dst := by decide, mem := by decide, store := by decide, link := by decide }
  · exact { dst := by decide, mem := by decide, store := by decide, link := by decide }

theorem witness_StepKeepsSlotsInOrder : EveryCore (fun _ => SlotsInOrder) busy ∧ ∃ t, step busy = .next t := by
  refine ⟨everyCore_busy ?_, busy_steps⟩
  refine { decodeFresh := ?_, executeDecoded := ?_, memExecuted := ?_, wbReady := ?_ } <;>
    (intro op h; injection h with h; subst h)
  · decide
  · exact opDecoded_addiu _ (.inl rfl)
  · exact ⟨opDecoded_addiu _ (.inr rfl), fun _ => .inl (by decide)⟩
  · exact ⟨opDecoded_addiu _ (.inr rfl), fun _ => by decide⟩

theorem witness_StepKeepsCacheInvariants : CachesInv busy ∧ ∃ t, step busy = .next t := by
  refine ⟨{ l1s := ?_, l2 := ?_ }, busy_steps⟩
  · rw [busy_cores]
    intro core h
    obtain rfl := List.mem_singleton.mp h
    exact ⟨{ cache := fun ways h => (List.mem_singleton.mp h) ▸ setInv_empty, pendingAbsent := by decide },
      { cache := fun ways h => (List.mem_singleton.mp h) ▸ setInv_busy, pendingAbsent := by decide }⟩
  · exact { cache := fun ways h => (List.mem_singleton.mp h) ▸ setInv_busyL2, mshrsDistinct := by decide,
            missAbsent := by decide, mshrsAligned := by decide }

theorem witness_StepKeepsRequestsMatched : RequestsMatchMshrs busy ∧ ∃ t, step busy = .next t :=
  ⟨{ inFlight := by decide, distinct := by decide, aligned := by decide, queueBound := by decide, neverWriteback := by decide },
    busy_steps⟩

theorem witness_StepKeepsWaitersServed : WaitersAreServed busy ∧ ∃ t, step busy = .next t := by
  refine ⟨{ places := everyCore_busy (P := fun k core => core.id = k) (by decide), distinct := by decide, aligned := by decide,
            icaches := ?_, dcaches := ?_ }, busy_steps⟩ <;> rw [busy_cores] <;> intro core h
    <;> obtain rfl := List.mem_singleton.mp h <;> intro _ _
  · exact ⟨_, .head _, by decide, by decide, by decide⟩
  · exact ⟨_, .tail _ (.head _), by decide, by decide, by decide⟩

theorem witness_StepKeepsShape : ShapeInv busy ∧ ∃ t, step busy = .next t :=
  ⟨{ cores := by decide, icaches := by decide, dcaches := by decide, l2 := by decide, mshrs := by decide, banks := by decide,
     channels := by decide }, busy_steps⟩

/-! ### The whole machine -/

theorem witness_OnlyAConfigurationIsRefused :
    configAdmitted (one core0).cfg = true ∧
    configAdmitted ({ one core0 with cfg := { Config.cfgT 1 with l1iSets := 3 } } : State).cfg = false := by decide

theorem witness_StepCountsOneCycle : (∃ t, step busy = .next t) ∧ busy.cores[0]? = some busyCore :=
  ⟨busy_steps, by rw [busy_cores]; rfl⟩

/-- The op of a spawn of core 1 that has reached writeback. -/
def spawning : CoreState :=
  { core0 with wbOp := some { decoded .syscall with regSrc1Value := 1#32, regSrc2Value := 7#32 } }

theorem witness_OneCoreReachesAnotherOnlyBySpawn :
    (two spawning idle1).cores[0]? = some spawning ∧ (two spawning idle1).cores[1]? = some idle1 ∧ (1 : Nat) ≠ 0 ∧
    ∃ t, pipelineCycle 0 (two spawning idle1) = .next t :=
  ⟨by decide, by decide, by decide, _, pipelineCycle_next _ _⟩

theorem witness_MemoryHierarchyTouchesOnlyTiming : busy.cores[0]? = some busyCore := by rw [busy_cores]; rfl

/-! ### Memory -/

/-- CFG-T with only the words 0x00400000 to 0x00400FFC in MAPPED. -/
def narrow : Config := { Config.cfgT 1 with mapped := [{ first := 0x00400000#32, last := 0x00400FFC#32 }] }

theorem witness_WordAccessorsAreLittleEndian :
    (0x00400FFF#32).toNat / 4 = (0x00400FFC#32).toNat / 4 ∧
    isMapped narrow 0x00400000#32 = true ∧ isMapped narrow 0x00400FFF#32 = true ∧ isMapped narrow 0x003FFFFF#32 = false ∧
    isMapped narrow 0x00401000#32 = false ∧ section8.wf = true := by decide

theorem witness_NarrowAccessesTakeTheirBytes :
    (0 < 4 ∧ 3 < 4) ∧ (0x10000002#32).toNat % 4 ≤ 2 ∧ (0x10000003#32).toNat % 4 = 3 := by decide

theorem witness_LoadsReturnWhatStoresWrote :
    section8.wf = true ∧ isMapped (Config.cfgT 1) 0x10000000#32 = true ∧ alignWord 0x10000000#32 = 0x10000000#32 ∧
    (3#32 ≤ 3#32 ∧ 2#32 ≤ 2#32 ∧ 0 ≠ (3#32 : Word).toNat ∧ 0 ≠ (3#32 : Word).toNat + 1) ∧
    isMapped narrow 0x10000000#32 = false := by decide

/-! ### Caches, L2, DRAM -/

/-- An empty L2. -/
def emptyL2 : L2 := L2.reset (Config.cfgT 1)

theorem witness_L1AccessFollowsItsFourSteps :
    (let l1 : L1 := { core0.icache with pendingMiss := true, pendingMissAddr := 0#32, pendingMissReady := some 5 }
     l1.pendingMiss = true ∧ l1.pendingMissReady = some 5 ∧ 5 ≤ 5 ∧ 4 < 5) ∧
    (busyCore.icache.pendingMiss = true ∧ busyCore.icache.pendingMissReady = none) ∧
    (warmDcache.pendingMiss = false ∧ probe warmDcache.sets 0x1000001F#32 = some 0) ∧
    (core0.icache.pendingMiss = false ∧ probe core0.icache.sets 0#32 = none) ∧
    (l2Access (Config.cfgT 1) 0 0x10000000#32 false 0 busyL2).1 = .hit ∧
    (l2Access (Config.cfgT 1) 0 0x00400004#32 false 0 busyL2).1 = .miss ∧
    (l2Access (Config.cfgT 1) 0 0x00400020#32 false 0 busyL2).1 = .busy := by decide

theorem witness_MissesToOneBlockShareOneRequest :
    probe busyL2.sets 0x10000000#32 = some 0 ∧
    (probe busyL2.sets 0x10000044#32 = none ∧ ∃ m, busyL2.mshrs[1]? = some m ∧ m.valid = true ∧
      m.addr = blockAddr 0x10000044#32 ∧ ∀ m', busyL2.mshrs[0]? = some m' → m'.addr ≠ blockAddr 0x10000044#32) ∧
    (probe emptyL2.sets 0x10000000#32 = none ∧ (∀ m ∈ emptyL2.mshrs, m.valid = false) ∧
      (∃ free, emptyL2.mshrs[0]? = some free ∧ free.valid = false) ∧ blockAddr 0x1000001F#32 = blockAddr 0x10000000#32) ∧
    (probe busyL2.sets 0x00400020#32 = none ∧ (∀ m ∈ busyL2.mshrs, m.addr ≠ blockAddr 0x00400020#32) ∧
      ∀ m ∈ busyL2.mshrs, m.valid = true) := by
  refine ⟨by decide, ⟨by decide, _, rfl, rfl, by decide, ?_⟩, ⟨by decide, by decide, ⟨_, rfl, rfl⟩, by decide⟩,
    by decide, by decide, by decide⟩
  rintro m' h
  obtain rfl := Option.some.inj h
  decide

theorem witness_DeliveryFillsEveryRequester :
    findMshr busy.l2.mshrs (blockAddr 0x10000040#32) = some 1 ∧
    (busy.l2.mshrs[1]?).map (·.requesters) = some [0] ∧ [0].Nodup ∧
    findMshr busy.l2.mshrs (blockAddr 0x20000000#32) = none := by decide

theorem witness_InstallReplacesTheVictimOnly :
    ([busySet] : CacheSets)[setIndex [busySet] 0x00400000#32]? = some busySet ∧ SetInv busySet ∧ busySet ≠ [] ∧
    probe [busySet] 0x00400000#32 = none ∧
    SetInv [CacheBlock.reset, CacheBlock.reset] ∧
    probe [[CacheBlock.reset, CacheBlock.reset]] 0x00400000#32 = none :=
  ⟨by decide, setInv_busy, by decide, by decide, setInv_empty, by decide⟩

theorem witness_DramQueuesDispatchesAndCompletes :
    (∃ e, busy.dram.queue[0]? = some e ∧ e.dispatched = false ∧ busy.dram.banks[bankIndex (Config.cfgT 1) e.loc]? =
      some { openRow := none, busyUntil := 0 } ∧ busy.dram.channels[e.loc.channel]? = some { cmdFreeAt := 0, dataFreeAt := 0 } ∧
      dramExecute (Config.cfgT 1) 0 busy.dram = (none, dramDispatch (Config.cfgT 1) 0 busy.dram)) ∧
    busy.dram.queue.length < (Config.cfgT 1).dramReqQueueSize ∧
    (dramDispatch (Config.cfgT 1) 0 busy.dram).queue.map (fun e => (e.dispatched, e.dataEnd)) = [(true, 7)] ∧
    (∀ e ∈ (dramDispatch (Config.cfgT 1) 0 busy.dram).queue,
      dispatchable (Config.cfgT 1) 7 (dramDispatch (Config.cfgT 1) 0 busy.dram) e = false) ∧
    ({ Config.cfgT 1 with dramReqQueueSize := 1 } : Config).dramReqQueueSize ≤ busy.dram.queue.length :=
  ⟨⟨_, rfl, by decide, by decide, by decide, by decide⟩, by decide, by decide, by decide, by decide⟩

/-! ### The instructions: each stage's hypotheses, with an op of each shape -/

/-- The state of one core in a call of a stage, its slots as given. -/
def inDecode (i : Instr) : State :=
  (one { core0 with decodeOp := some (Op.fresh 0x00400020#32 (encode i)) }).focusOn 0 .decode
def inExecute (op : Op) : State := (one { core0 with executeOp := some op }).focusOn 0 .execute
def inMem (op : Op) : State := (one { core0 with memOp := some op }).focusOn 0 .mem
def inWb (op : Op) : State := (one { core0 with wbOp := some op }).focusOn 0 .wb

/-- In these states every stage's slots are as the instruction statements ask. -/
theorem witness_stages (i : Instr) (op : Op) :
    InStage (inDecode i) 0 .decode { core0 with decodeOp := some (Op.fresh 0x00400020#32 (encode i)) } ∧
    InStage (inExecute op) 0 .execute { core0 with executeOp := some op } ∧
    InStage (inMem op) 0 .mem { core0 with memOp := some op } ∧ InStage (inWb op) 0 .wb { core0 with wbOp := some op } ∧
    core0.executeOp = none ∧ core0.memOp = none :=
  ⟨⟨rfl, rfl⟩, ⟨rfl, rfl⟩, ⟨rfl, rfl⟩, ⟨rfl, rfl⟩, rfl, rfl⟩

theorem witness_ThreeRegisterInstructions :
    (decoded (.sltu 3#5 31#5 0#5)).regSrc1 = some 31#5 ∧ (decoded (.sltu 3#5 31#5 0#5)).regSrc2 = some 0#5 ∧
    (decoded (.sltu 3#5 31#5 0#5)).isBranch = false ∧ (decoded (.sltu 3#5 31#5 0#5)).isMem = false := by decide

theorem witness_ImmediateInstructions :
    (decoded (.lui 3#5 0x8000#16)).regSrc1 = none ∧ (decoded (.lui 3#5 0x8000#16)).regSrc2 = none ∧
    (decoded (.slti 3#5 1#5 0x8000#16)).regSrc1 = some 1#5 ∧ (decoded (.slti 3#5 1#5 0x8000#16)).isBranch = false := by decide

theorem witness_ShiftInstructions :
    (decoded (.sra 3#5 2#5 31)).regSrc1 = none ∧ (decoded (.sra 3#5 2#5 31)).regSrc2 = some 2#5 ∧
    (decoded (.srav 3#5 2#5 1#5)).regSrc1 = some 1#5 ∧ (decoded (.srav 3#5 2#5 1#5)).regSrc2 = some 2#5 ∧
    (decoded (.srav 3#5 2#5 1#5)).isBranch = false := by decide

theorem witness_MultiplyDivideInstructions :
    (decoded (.div 1#5 2#5)).regSrc1 = some 1#5 ∧ (decoded (.div 1#5 2#5)).regSrc2 = some 2#5 ∧
    (decoded (.div 1#5 2#5)).isBranch = false := by decide

theorem witness_HiLoMoveInstructions :
    (decoded (.mfhi 3#5)).regSrc1 = none ∧ (decoded (.mfhi 3#5)).regSrc2 = none ∧ (decoded (.mfhi 3#5)).isBranch = false ∧
    core0.multiplierStall = 0 ∧ 0 < ({ core0 with multiplierStall := 1 } : CoreState).multiplierStall ∧
    (decoded (.mtlo 1#5)).regSrc1 = some 1#5 ∧ (decoded (.mtlo 1#5)).regSrc2 = none := by decide

theorem witness_ConditionalBranchInstructions :
    (decoded (.bne 1#5 2#5 3#16)).regSrc1 = some 1#5 ∧ (decoded (.bne 1#5 2#5 3#16)).regSrc2 = some 2#5 ∧
    (decoded (.bgtz 1#5 3#16)).regSrc2 = none ∧ (decoded (.bgtz 1#5 3#16)).isBranch = true ∧
    core0.branchRecover.pending = false := by decide

theorem witness_LinkBranchInstructions :
    (decoded (.bltzal 31#5 3#16)).regSrc1 = some 31#5 ∧ (decoded (.bltzal 31#5 3#16)).regSrc2 = none ∧
    (decoded (.bltzal 31#5 3#16)).isBranch = true := by decide

theorem witness_JumpInstructions :
    (decoded (.jal 0x3FFFFFF#26)).regSrc1 = none ∧ (decoded (.jal 0x3FFFFFF#26)).regSrc2 = none ∧
    (decoded (.jal 0x3FFFFFF#26)).isBranch = true ∧ (decoded (.jal 0x3FFFFFF#26)).branchTaken = true ∧
    (decoded (.jalr 0#5 9#5)).regSrc1 = some 9#5 ∧ (decoded (.jalr 0#5 9#5)).regSrc2 = none ∧
    (decoded (.jalr 0#5 9#5)).isBranch = true := by decide

/-- A load and a store of 0x10000003 that have left execute, and what the D-cache answers, cold and warm. -/
theorem witness_LoadInstructions :
    (decoded (.lh 5#5 4#5 3#16)).regSrc1 = some 4#5 ∧ (decoded (.lh 5#5 4#5 3#16)).regSrc2 = none ∧
    (decoded (.lh 5#5 4#5 3#16)).isMem = true ∧ (decoded (.lh 5#5 4#5 3#16)).memWrite = false ∧
    (l1Access (Config.cfgT 1) 0 0 0x10000003#32 false true core0.dcache emptyL2).1 = false ∧
    (l1Access (Config.cfgT 1) 0 0 0x10000003#32 false true warmDcache emptyL2).1 = true := by decide

theorem witness_StoreInstructions :
    (decoded (.sh 9#5 4#5 3#16)).regSrc1 = some 4#5 ∧ (decoded (.sh 9#5 4#5 3#16)).regSrc2 = some 9#5 ∧
    (decoded (.sh 9#5 4#5 3#16)).isMem = true ∧ (decoded (.sh 9#5 4#5 3#16)).memWrite = true ∧
    (l1Access (Config.cfgT 1) 0 0 0x10000003#32 true true core0.dcache emptyL2).1 = false ∧
    (l1Access (Config.cfgT 1) 0 0 0x10000003#32 true true warmDcache emptyL2).1 = true ∧ section8.wf = true := by decide

theorem witness_SyscallInstruction :
    (decoded .syscall).regSrc1 = some 2#5 ∧ (decoded .syscall).regSrc2 = some 3#5 ∧ (decoded .syscall).isBranch = false ∧
    (decoded .syscall).isMem = false := by decide

theorem witness_SyscallServices :
    InStage ((two spawning idle1).focusOn 0 .wb) 0 .wb spawning ∧ (decoded .syscall).regDst = none ∧ spawning.id = 0 ∧
    (1#32 ∈ [0x01#32, 0x02#32, 0x03#32] ∧ (1#32).toNat ≠ 0 ∧ (1#32).toNat < (two spawning idle1).cfg.numCores ∧
      (two spawning idle1).cores[(1#32).toNat]? = some idle1 ∧ idle1.running = false) ∧
    (3#32 ∈ [0x01#32, 0x02#32, 0x03#32] ∧ (two spawning idle1).cfg.numCores ≤ (3#32).toNat) ∧
    ((one core0).cores[0]? = some core0 ∧ core0.running = true) ∧
    0x010A#32 ∉ [0x0A#32, 0x0B#32, 0x01#32, 0x02#32, 0x03#32] ∧ 0#32 ∉ [0x0A#32, 0x0B#32, 0x01#32, 0x02#32, 0x03#32] := by
  decide

/-- The op of an unknown word, as decode leaves it. -/
def unknownDecoded : Op := blocksUnknown.decodeBlock (extractFields (Op.fresh 0x00400020#32 0x0000000D#32))

theorem witness_UnknownWordsDoNothing :
    decode unknownDecoded.instruction = .error (.unknown 0x0000000D#32) ∧ unknownDecoded.regSrc1 = none ∧
    unknownDecoded.regSrc2 = none ∧ unknownDecoded.isBranch = false ∧ unknownDecoded.isMem = false ∧
    unknownDecoded.regDst = none ∧ core0.executeOp = none ∧ core0.memOp = none := by decide

/-- A core with the instruction just fetched and nothing else in its slots. -/
def alone (i : Instr) (core : CoreState) : CoreState := { core with decodeOp := some (Op.fresh 0x00400020#32 (encode i)) }

theorem witness_AluInstructionsComplete :
    (one (alone (.add 3#5 1#5 2#5) core0)).cores[0]? = some (alone (.add 3#5 1#5 2#5) core0) ∧
    FreshlyFetchedAlone (alone (.add 3#5 1#5 2#5) core0) 0x00400020#32 (encode (.add 3#5 1#5 2#5)) := by decide

theorem witness_MulDivInstructionsComplete :
    (one (alone (.div 1#5 2#5) core0)).cores[0]? = some (alone (.div 1#5 2#5) core0) ∧
    FreshlyFetchedAlone (alone (.div 1#5 2#5) core0) 0x00400020#32 (encode (.div 1#5 2#5)) := by decide

theorem witness_BranchInstructionsComplete :
    (one (alone (.jalr 31#5 9#5) core0)).cores[0]? = some (alone (.jalr 31#5 9#5) core0) ∧
    FreshlyFetchedAlone (alone (.jalr 31#5 9#5) core0) 0x00400020#32 (encode (.jalr 31#5 9#5)) := by decide

theorem witness_LoadsAndStoresComplete :
    (let core := alone (.sh 9#5 4#5 0#16) { withRegs [(4#5, 0x10000003#32)] with dcache := warmDcache }
     (one core).cores[0]? = some core ∧ FreshlyFetchedAlone core 0x00400020#32 (encode (.sh 9#5 4#5 0#16)) ∧
     (l1Access (one core).cfg (one core).cycles core.id (core.regs.read 4#5 + (0#16).signExtend 32) true true core.dcache
       (one core).l2).1 = true ∧
     (l1Access (one core).cfg (one core).cycles core.id (core.regs.read 4#5 + (0#16).signExtend 32) false true core.dcache
       (one core).l2).1 = true) := by decide

theorem witness_SyscallCompletes :
    (let core := alone .syscall (withRegs [(2#5, 1#32)])
     (two core idle1).cores[0]? = some core ∧ core.id = 0 ∧ FreshlyFetchedAlone core 0x00400020#32 (encode .syscall) ∧
     core.regs.read 2#5 ∈ [0x01#32, 0x02#32, 0x03#32] ∧ (core.regs.read 2#5).toNat ≠ 0 ∧
     (core.regs.read 2#5).toNat < (two core idle1).cfg.numCores ∧
     (two core idle1).cores[(core.regs.read 2#5).toNat]? = some idle1 ∧ idle1.running = false) ∧
    (withRegs [(2#5, 0x0A#32)]).regs.read 2#5 = 0x0A#32 ∧ (withRegs [(2#5, 0x0B#32)]).regs.read 2#5 = 0x0B#32 ∧
    core0.regs.read 2#5 ∉ [0x0A#32, 0x0B#32, 0x01#32, 0x02#32, 0x03#32] := by decide

theorem witness_ProductsAndQuotientsAreExact :
    (2#32 : Word) ≠ 0#32 ∧ ¬((0x80000000#32 : Word) = 0x80000000#32 ∧ (2#32 : Word) = 0xFFFFFFFF#32) ∧
    ¬((0x80000001#32 : Word) = 0x80000000#32 ∧ (0xFFFFFFFF#32 : Word) = 0xFFFFFFFF#32) := by decide

/-- A held HI/LO move: MULT one instruction before (k = 1, the counter at 4), four before (k = 4, at 1), long before. -/
theorem witness_HiLoMoveIsHeldForTheRemainingLatency :
    ∀ n ∈ [(1, 4), (4, 1), (5, 0)],
      (let core := { core0 with executeOp := some (decoded (.mfhi 3#5)), multiplierStall := n.2 }
       (one core).cores[0]? = some core ∧ core.executeOp = some (decoded (.mfhi 3#5)) ∧ core.memOp = none ∧
       decode (decoded (.mfhi 3#5)).instruction = .ok (.mfhi 3#5) ∧ 1 ≤ n.1 ∧ core.multiplierStall = 4 - (n.1 - 1)) := by
  intro n h
  simp only [List.mem_cons, List.not_mem_nil, or_false] at h
  rcases h with rfl | rfl | rfl <;> decide

theorem witness_LaunchLoadsTheImage :
    configAdmitted { Config.cfgT 1 with dramPagePolicy := .closedRow, l2Sets := 3 } = false ∧
    (configAdmitted narrow = true ∧ ∃ r ∈ ([(0x00401000#32, 1#32)] : Image), isMapped narrow r.1 = false) ∧
    (∀ r ∈ ([(0x00400000#32, 1#32), (0x00400FFC#32, 2#32), (0x00400002#32, 3#32)] : Image), isMapped narrow r.1 = true) ∧
    (∀ r ∈ ([(0x00400FFC#32, 2#32)] : Image), alignWord r.1 ≠ alignWord 0x00400002#32) ∧
    ∀ r ∈ ([(0x00400000#32, 1#32)] : Image), 0x00400004 / 4 ≠ r.1.toNat / 4 := by
  refine ⟨by decide, ⟨by decide, ⟨_, .head _, by decide⟩⟩, ?_, ?_, ?_⟩ <;> intro r h <;>
    simp only [List.mem_cons, List.not_mem_nil, or_false] at h
  · rcases h with rfl | rfl | rfl <;> decide
  · subst h; decide
  · subst h; decide

/-- A core whose halt has reached writeback: `go` takes one cycle. -/
def halting : State := one { core0 with wbOp := some { decoded .syscall with regSrc1Value := 0x0A#32 } }

theorem halting_steps : step halting = .next (cycleRun halting) := step_eq_next.mpr ⟨by decide, rfl⟩

theorem halting_stops : activeCoresCount (cycleRun halting) = 0 := by decide

theorem witness_GoStopsAtTheFirstIdleBoundary :
    goWithin 2 halting = .next (cycleRun halting) ∧ activeCoresCount (cycleRun halting) = 0 ∧
    GoEnds halting (cycleRun halting) := by
  have hrun : activeCoresCount halting ≠ 0 := by decide
  refine ⟨?_, halting_stops, 1, ?_, halting_stops, ?_⟩
  · simp [goWithin, hrun, halting_steps, halting_stops]
  · simp [runCycles, halting_steps]
  · intro k hk
    obtain rfl : k = 0 := by omega
    exact ⟨halting, rfl, hrun⟩

/-- A machine whose L2 has one ready request, one that is not, one ready return and one that is not. -/
def queued : State :=
  { one core0 with
    cycles := 5
    l2 := { emptyL2 with
      reqQueue :=
        [{ addr := 0x00#32, isWrite := false, coreId := 0, readyCycle := 5 },
         { addr := 0x20#32, isWrite := false, coreId := 0, readyCycle := 6 }]
      retQueue := [{ addr := 0x40#32, readyCycle := 5 }, { addr := 0x60#32, readyCycle := 6 }] } }

theorem witness_L2CycleDrainsThenDelivers :
    (∃ q rest, queued.l2.reqQueue = q :: rest ∧ q.readyCycle ≤ queued.cycles ∧
      ∃ q' rest', rest = q' :: rest' ∧ queued.cycles < q'.readyCycle) ∧
    ∃ r ∈ queued.l2.retQueue, r.readyCycle ≤ queued.cycles :=
  ⟨⟨_, _, rfl, by decide, _, _, rfl, by decide⟩, _, .head _, by decide⟩

end Sys2Proof.Tests
end

section
/-! SUPPORT. The laws of multiplication and division (R505–R508, R513). -/

namespace Sys2Proof.Machine

/-! ## Products (R505, R506) -/

/-- HI || LO is the whole product. -/
@[simp] theorem highWord_append_lowWord (p : BitVec 64) : highWord p ++ lowWord p = p := by
  have h : p.extractLsb' 32 32 ++ p.extractLsb' 0 32 = p.extractLsb' 0 (32 + 32) :=
    BitVec.extractLsb'_append_extractLsb'_eq_extractLsb' rfl
  exact h.trans BitVec.extractLsb'_eq_self

/-- A product of two signed words fits into 64 bits. -/
theorem signedProduct_toInt (a b : Word) : (signedProduct a b).toInt = a.toInt * b.toInt := by
  have hle : a.toInt * b.toInt ≤ 2 ^ 62 := BitVec.toInt_mul_toInt_le
  have hge : -2 ^ 62 ≤ a.toInt * b.toInt := BitVec.le_toInt_mul_toInt
  unfold signedProduct
  rw [BitVec.toInt_mul, BitVec.toInt_signExtend_of_le (by decide), BitVec.toInt_signExtend_of_le (by decide)]
  exact Int.bmod_eq_of_le_mul_two (by omega) (by omega)

/-- A product of two unsigned words fits into 64 bits. -/
theorem unsignedProduct_toNat (a b : Word) : (unsignedProduct a b).toNat = a.toNat * b.toNat := by
  have hlt : a.toNat * b.toNat < 2 ^ 32 * 2 ^ 32 := Nat.mul_lt_mul'' a.isLt b.isLt
  unfold unsignedProduct
  rw [BitVec.toNat_mul, BitVec.toNat_setWidth_of_le (by decide), BitVec.toNat_setWidth_of_le (by decide)]
  exact Nat.mod_eq_of_lt hlt

/-! ## Quotients and remainders (R507, R508) -/

@[simp] theorem signedDivide_zero (a : Word) : signedDivide a 0#32 = (0#32, 0#32) := rfl

@[simp] theorem unsignedDivide_zero (a : Word) : unsignedDivide a 0#32 = (0#32, 0#32) := rfl

/-- Outside the zero divisor and the overflow case, DIV leaves the truncated remainder and quotient, and neither wraps. -/
theorem signedDivide_toInt {a b : Word} (hb : b ≠ 0#32) (ho : ¬(a = 0x80000000#32 ∧ b = 0xFFFFFFFF#32)) :
    (signedDivide a b).1.toInt = a.toInt.tmod b.toInt ∧ (signedDivide a b).2.toInt = a.toInt.tdiv b.toInt := by
  have hr : (a.srem b).toInt = a.toInt.tmod b.toInt := BitVec.toInt_srem a b
  have hq : (a.sdiv b).toInt = a.toInt.tdiv b.toInt := BitVec.toInt_sdiv_of_ne_or_ne a b (not_and_or.mp ho)
  simp only [signedDivide, hb, ho, if_false, ← hr, ← hq, BitVec.ofInt_toInt, and_self]

/-- A remainder of truncating division has no other sign than its dividend (R13). -/
theorem tmod_nonpos_of_nonpos {a : Int} (b : Int) (h : a ≤ 0) : a.tmod b ≤ 0 := by
  have := Int.tmod_nonneg b (Int.neg_nonneg.mpr h)
  rw [Int.neg_tmod] at this
  omega

/-- The laws of DIV where it divides (R513). -/
theorem signedDivide_laws {a b : Word} (hb : b ≠ 0#32) (ho : ¬(a = 0x80000000#32 ∧ b = 0xFFFFFFFF#32)) :
    (signedDivide a b).2.toInt * b.toInt + (signedDivide a b).1.toInt = a.toInt ∧
      (signedDivide a b).1.toInt.natAbs < b.toInt.natAbs ∧
      (0 ≤ a.toInt → 0 ≤ (signedDivide a b).1.toInt) ∧ (a.toInt ≤ 0 → (signedDivide a b).1.toInt ≤ 0) := by
  obtain ⟨hr, hq⟩ := signedDivide_toInt hb ho
  have hpos : 0 < b.toInt.natAbs := Int.natAbs_pos.mpr fun e => hb (BitVec.eq_of_toInt_eq e)
  rw [hr, hq]
  refine ⟨Int.tdiv_mul_add_tmod _ _, ?_, Int.tmod_nonneg _, tmod_nonpos_of_nonpos _⟩
  rw [Int.natAbs_tmod]
  exact Nat.mod_lt _ hpos

/-- DIVU leaves remainder and quotient of the unsigned values. -/
theorem unsignedDivide_toNat {a b : Word} (hb : b ≠ 0#32) :
    (unsignedDivide a b).1.toNat = a.toNat % b.toNat ∧ (unsignedDivide a b).2.toNat = a.toNat / b.toNat := by
  have hr : a.toNat % b.toNat < 2 ^ 32 := (Nat.mod_le _ _).trans_lt a.isLt
  have hq : a.toNat / b.toNat < 2 ^ 32 := (Nat.div_le_self _ _).trans_lt a.isLt
  simp only [unsignedDivide, hb, if_false, BitVec.toNat_ofNat, Nat.mod_eq_of_lt hr, Nat.mod_eq_of_lt hq, and_self]

/-- The laws of DIVU where it divides (R513). -/
theorem unsignedDivide_laws {a b : Word} (hb : b ≠ 0#32) :
    (unsignedDivide a b).2.toNat * b.toNat + (unsignedDivide a b).1.toNat = a.toNat ∧
      (unsignedDivide a b).1.toNat < b.toNat := by
  obtain ⟨hr, hq⟩ := unsignedDivide_toNat (a := a) hb
  have hpos : 0 < b.toNat := Nat.pos_of_ne_zero fun e => hb (BitVec.eq_of_toNat_eq e)
  rw [hr, hq]
  exact ⟨Nat.div_add_mod' _ _, Nat.mod_lt _ hpos⟩

/-- Settles O55: the 64-bit products do not wrap, and the quotients and remainders are those of the integers. -/
theorem productsAndQuotientsAreExact : Obligations.ProductsAndQuotientsAreExact := by
  unfold Obligations.ProductsAndQuotientsAreExact
  intro a b
  refine ⟨?_, ?_, signedDivide_zero a, unsignedDivide_zero a, by decide, signedDivide_laws, unsignedDivide_laws⟩
  · rw [highWord_append_lowWord]
    exact signedProduct_toInt a b
  · rw [highWord_append_lowWord]
    exact unsignedProduct_toNat a b

end Sys2Proof.Machine
end

section
/-! SUPPORT. Which fields of a core each stage of a pipeline cycle can change (R401–R424), what the DRAM's and the L2's own cycle
leave (R201), and what a tick leaves (R740, R741). -/

namespace Sys2Proof.Machine

/-! ## The fields a stage changes -/

/-- Writeback changes registers, PC, `running`, its slot and `retired` (R420, R654–R656). -/
theorem WbEffect.frame {core core' : CoreState} (h : WbEffect core core') :
    ∃ (regs : RegFile) (pc : Word) (running : Bool) (wb : Option Op) (retired : Nat),
      core' = { core with regs := regs, pc := pc, running := running, wbOp := wb, retired := retired } ∧
      (retired = core.retired ∨ retired = core.retired + 1) := by
  rcases h with ⟨-, rfl⟩ | ⟨op, regs, pc, running, -, -, rfl⟩
  · exact ⟨_, _, _, _, _, rfl, .inl rfl⟩
  · exact ⟨_, _, _, _, _, rfl, .inr rfl⟩

/-- Mem changes the D-cache and the slots on both its sides (R416). -/
theorem MemEffect.frame {core core' : CoreState} (h : MemEffect core core') :
    ∃ (dcache : L1) (mem wb : Option Op), core' = { core with dcache := dcache, memOp := mem, wbOp := wb } := by
  rcases h with ⟨-, rfl⟩ | ⟨op, dcache, -, -, rfl⟩ | ⟨op, op', dcache, -, rfl, -⟩
  · exact ⟨_, _, _, rfl⟩
  · exact ⟨_, _, _, rfl⟩
  · exact ⟨_, _, _, rfl⟩

/-- The execute block of any word changes HI, LO and the counter of the core (R450, R500, R511, R512). -/
theorem executeBlock_core {w : Word} {core core' : CoreState} {op op' : Op}
    (h : (blocksOfWord w).executeBlock core op = some (core', op')) :
    ∃ (hi lo : Word) (n : Nat), core' = { core with hi := hi, lo := lo, multiplierStall := n } := by
  unfold blocksOfWord at h
  cases hw : decode w with
  | ok i =>
    rw [hw] at h
    obtain ⟨-, hi, lo, n, rfl, -⟩ := executeBlock_frame i core op core' op' h
    exact ⟨hi, lo, n, rfl⟩
  | error e =>
    rw [hw] at h
    obtain ⟨rfl, -⟩ := Prod.mk.inj (Option.some.inj h)
    exact ⟨_, _, _, rfl⟩

/-- The end of execute moves the op on and may schedule a recovery (R415, R423). -/
theorem leaveExecute_frame (core : CoreState) (op : Op) :
    ∃ recovery : BranchRecover,
      leaveExecute core op = { core with branchRecover := recovery, memOp := some op, executeOp := none } := by
  unfold leaveExecute recover
  split_ifs <;> exact ⟨_, rfl⟩

/-- Execute changes HI, LO, the counter, the recovery triple and the slots on both its sides (R411–R415). -/
theorem ExecuteEffect.frame {core core' : CoreState} (h : ExecuteEffect core core') :
    ∃ (hi lo : Word) (n : Nat) (recovery : BranchRecover) (exe mem : Option Op),
      core' = { core with
        hi := hi, lo := lo, multiplierStall := n, branchRecover := recovery, executeOp := exe, memOp := mem } := by
  rcases h with ⟨-, rfl⟩ | ⟨op, -, -, ⟨-, rfl⟩ | ⟨next, op', hblock, rfl⟩⟩
  · exact ⟨_, _, _, _, _, _, rfl⟩
  · exact ⟨_, _, _, _, _, _, rfl⟩
  · obtain ⟨hi, lo, n, rfl⟩ := executeBlock_core hblock
    obtain ⟨recovery, hleave⟩ := leaveExecute_frame { core with hi := hi, lo := lo, multiplierStall := n } op'
    exact ⟨_, _, _, _, _, _, hleave⟩

/-- Decode changes the slots on both its sides (R406, R407). -/
theorem DecodeEffect.frame {core core' : CoreState} (h : DecodeEffect core core') :
    ∃ dec exe : Option Op, core' = { core with decodeOp := dec, executeOp := exe } := by
  rcases h with ⟨-, rfl⟩ | ⟨op, -, -, rfl⟩
  · exact ⟨_, _, rfl⟩
  · exact ⟨_, _, rfl⟩

/-- Fetch changes the I-cache, its slot, PC and `fetched` (R403–R405). -/
theorem FetchEffect.frame {core core' : CoreState} (h : FetchEffect core core') :
    ∃ (icache : L1) (dec : Option Op) (pc : Word) (fetched : Nat),
      core' = { core with icache := icache, decodeOp := dec, pc := pc, fetched := fetched } ∧
      (fetched = core.fetched ∨ fetched = core.fetched + 1) := by
  rcases h with rfl | ⟨icache, -, rfl⟩ | ⟨icache, w, -, rfl⟩
  · exact ⟨_, _, _, _, rfl, .inl rfl⟩
  · exact ⟨_, _, _, _, rfl, .inl rfl⟩
  · exact ⟨_, _, _, _, rfl, .inr rfl⟩

/-- A recovery changes PC, the slots, its triple and `squashed` (R424). -/
theorem applyRecoveryCore_frame (core : CoreState) :
    ∃ (pc : Word) (dec exe mem wb : Option Op) (squashed : Nat) (recovery : BranchRecover),
      applyRecoveryCore core = { core with
        pc := pc, decodeOp := dec, executeOp := exe, memOp := mem, wbOp := wb, squashed := squashed,
        branchRecover := recovery } ∧
      (squashed = core.squashed ∨ squashed = core.squashed + 1) := by
  unfold applyRecoveryCore
  split
  · exact ⟨_, _, _, _, _, _, _, rfl, .inr rfl⟩
  · exact ⟨_, _, _, _, _, _, _, rfl, .inl rfl⟩

/-! ## What the memory hierarchy's own cycle leaves (R201) -/

/-- `t` is `s` but for the L2, the DRAM and the L1s of the cores. -/
structure OnlyTiming (s t : State) : Prop where
  cfg : t.cfg = s.cfg
  mem : t.mem = s.mem
  cycles : t.cycles = s.cycles
  output : t.output = s.output
  length : t.cores.length = s.cores.length
  cores : ∀ (k : Nat) (core : CoreState), s.cores[k]? = some core → ∃ icache dcache : L1,
    t.cores[k]? = some { core with icache := icache, dcache := dcache }

/-- A new L2 and a new DRAM touch nothing else. -/
theorem OnlyTiming.hierarchy (s : State) (l2 : L2) (dram : Dram) : OnlyTiming s { s with l2 := l2, dram := dram } :=
  { cfg := rfl, mem := rfl, cycles := rfl, output := rfl, length := rfl,
    cores := fun _ core h => ⟨core.icache, core.dcache, h⟩ }

theorem OnlyTiming.trans {s t u : State} (h : OnlyTiming s t) (h' : OnlyTiming t u) : OnlyTiming s u where
  cfg := h'.cfg.trans h.cfg
  mem := h'.mem.trans h.mem
  cycles := h'.cycles.trans h.cycles
  output := h'.output.trans h.output
  length := h'.length.trans h.length
  cores k core hk := by
    obtain ⟨icache, dcache, hk'⟩ := h.cores k core hk
    obtain ⟨icache', dcache', hk''⟩ := h'.cores k _ hk'
    exact ⟨icache', dcache', hk''⟩

theorem dramPhase_onlyTiming (s : State) : OnlyTiming s (dramPhase s) := by
  unfold dramPhase
  split
  · exact .hierarchy s _ _
  · exact .hierarchy s s.l2 _

/-- A delivery changes the L2 and fills L1s (R243). -/
theorem deliver_eq (s : State) (r : RetItem) :
    ∃ (l2 : L2) (requesters : List Nat),
      deliver s r = { s with l2 := l2, cores := fillRequesters r.addr requesters s.cores } := by
  unfold deliver
  split
  · exact ⟨s.l2, [], rfl⟩
  · exact ⟨_, _, rfl⟩

theorem fillRequesters_onlyTiming (addr : Word) (requesters : List Nat) (s : State) :
    OnlyTiming s { s with cores := fillRequesters addr requesters s.cores } := by
  induction requesters generalizing s with
  | nil => exact .hierarchy s s.l2 s.dram
  | cons c rest ih =>
    refine OnlyTiming.trans (t := s.modifyCore c (fillCore addr)) ?_ (ih _)
    refine { cfg := rfl, mem := rfl, cycles := rfl, output := rfl, length := by simp, cores := fun k core hk => ?_ }
    by_cases hc : k = c
    · subst hc
      exact ⟨_, _, State.modifyCore_same _ hk⟩
    · exact ⟨core.icache, core.dcache, by rw [State.modifyCore_other _ hc, hk]⟩

theorem deliver_onlyTiming (s : State) (r : RetItem) : OnlyTiming s (deliver s r) := by
  obtain ⟨l2, requesters, h⟩ := deliver_eq s r
  rw [h]
  exact (OnlyTiming.hierarchy s l2 s.dram).trans (fillRequesters_onlyTiming r.addr requesters _)

theorem foldl_deliver_onlyTiming (items : List RetItem) (s : State) : OnlyTiming s (items.foldl deliver s) := by
  induction items generalizing s with
  | nil => exact .hierarchy s s.l2 s.dram
  | cons r rest ih => exact (deliver_onlyTiming s r).trans (ih _)

theorem l2Phase_onlyTiming (s : State) : OnlyTiming s (l2Phase s) := by
  unfold l2Phase
  exact (OnlyTiming.hierarchy s _ _).trans (foldl_deliver_onlyTiming _ _)

/-! ## What a tick leaves -/

/-- A tick of core `c` leaves the core as it is or takes it through one pipeline cycle (R741); elsewhere a spawn happens at
most. -/
theorem tickRun_effect {s : State} {c : Nat} {core : CoreState} (h : s.cores[c]? = some core) :
    (∃ core', (tickRun c s).cores[c]? = some core' ∧ (core' = core ∨ CoreCycle core core')) ∧
      Elsewhere c s (tickRun c s) := by
  unfold tickRun
  simp only [h]
  split
  · obtain ⟨⟨core', hcore', hcycle⟩, helse, -⟩ := pipelineRun_effect h
    exact ⟨⟨core', hcore', .inr hcycle⟩, helse⟩
  · exact ⟨⟨core, h, .inl rfl⟩, .refl c s⟩

theorem tickRun_elsewhere (c : Nat) (s : State) : Elsewhere c s (tickRun c s) := by
  cases h : s.cores[c]? with
  | none => simpa only [tickRun, h] using .refl c s
  | some core => exact (tickRun_effect h).2

/-- The ticks of a cycle keep the parameters and `stat_cycles`, and only append to the output (R135, R740). -/
theorem ticksRun_shared (cs : List Nat) (s : State) :
    (ticksRun cs s).cfg = s.cfg ∧ (ticksRun cs s).cycles = s.cycles ∧ s.output <+: (ticksRun cs s).output := by
  refine ticksRun_induct (P := fun u => u.cfg = s.cfg ∧ u.cycles = s.cycles ∧ s.output <+: u.output)
    ⟨rfl, rfl, List.prefix_refl _⟩ fun c u ⟨hcfg, hcycles, houtput⟩ => ?_
  have helse := tickRun_elsewhere c u
  exact ⟨helse.cfg.trans hcfg, helse.cycles.trans hcycles, houtput.trans helse.output⟩

end Sys2Proof.Machine
end

section
/-! SUPPORT. The counters of the cores and of the machine over one step (R15, R134, R135, R721). -/

namespace Sys2Proof.Machine

/-- What a core counts, and its id. -/
def countsOf (core : CoreState) : Nat × Nat × Nat × Nat := (core.fetched, core.retired, core.squashed, core.id)

/-- Each counter of the core stays or grows by one, and the id stays. -/
def CountsGrow (core core' : CoreState) : Prop :=
  (core'.fetched = core.fetched ∨ core'.fetched = core.fetched + 1) ∧
  (core'.retired = core.retired ∨ core'.retired = core.retired + 1) ∧
  (core'.squashed = core.squashed ∨ core'.squashed = core.squashed + 1) ∧ core'.id = core.id

/-- Only the counts matter to their growth. -/
theorem CountsGrow.congr {a a' b b' : CoreState} (h : CountsGrow a b) (ha : countsOf a = countsOf a')
    (hb : countsOf b = countsOf b') : CountsGrow a' b' := by
  simp only [countsOf, Prod.mk.injEq] at ha hb
  obtain ⟨hf, hr, hq, hi⟩ := ha
  obtain ⟨hf', hr', hq', hi'⟩ := hb
  unfold CountsGrow at h ⊢
  rwa [← hf, ← hr, ← hq, ← hi, ← hf', ← hr', ← hq', ← hi']

theorem CountsGrow.refl (core : CoreState) : CountsGrow core core := ⟨.inl rfl, .inl rfl, .inl rfl, rfl⟩

/-- A pipeline cycle counts at most one op retired, one fetched and one recovery. -/
theorem CoreCycle.countsGrow {core core' : CoreState} (h : CoreCycle core core') : CountsGrow core core' := by
  obtain ⟨wb, mem, exe, dec, fet, hwb, hmem, hexe, hdec, hfet, rfl⟩ := h
  obtain ⟨_, _, _, _, retired, rfl, hretired⟩ := hwb.frame
  obtain ⟨_, _, _, rfl⟩ := hmem.frame
  obtain ⟨_, _, _, _, _, _, rfl⟩ := hexe.frame
  obtain ⟨_, _, rfl⟩ := hdec.frame
  obtain ⟨_, _, _, fetched, rfl, hfetched⟩ := hfet.frame
  obtain ⟨_, _, _, _, _, squashed, _, hrecovered, hsquashed⟩ := applyRecoveryCore_frame _
  rw [hrecovered]
  exact ⟨hfetched, hretired, hsquashed, rfl⟩

/-- A spawn counts nothing (R656). -/
theorem SpawnEffect.counts_eq {core core' : CoreState} (h : SpawnEffect core core') : countsOf core' = countsOf core := by
  rcases h with rfl | ⟨pc, -, rfl⟩
  · rfl
  · rfl

/-- Ticks of distinct cores: a core's counts grow by one at most, and not at all without a tick of its own. -/
theorem ticksRun_counts {cs : List Nat} (hcs : cs.Nodup) {s : State} {k : Nat} {core : CoreState}
    (h : s.cores[k]? = some core) :
    ∃ core', (ticksRun cs s).cores[k]? = some core' ∧ CountsGrow core core' ∧
      (k ∉ cs → countsOf core' = countsOf core) := by
  induction cs generalizing s core with
  | nil => exact ⟨core, h, .refl core, fun _ => rfl⟩
  | cons c rest ih =>
    obtain ⟨hc, hrest⟩ := List.nodup_cons.mp hcs
    by_cases hk : k = c
    · subst hk
      obtain ⟨⟨ticked, hticked, hown⟩, -⟩ := tickRun_effect h
      obtain ⟨core', hcore', -, hsame⟩ := ih hrest hticked
      have hgrow : CountsGrow core ticked := by
        rcases hown with rfl | hcycle
        · exact .refl _
        · exact hcycle.countsGrow
      exact ⟨core', hcore', hgrow.congr rfl (hsame hc).symm, fun hn => absurd List.mem_cons_self hn⟩
    · obtain ⟨spawned, hspawned, hspawn⟩ := (tickRun_elsewhere c s).others k core hk h
      obtain ⟨core', hcore', hgrow, hsame⟩ := ih hrest hspawned
      refine ⟨core', hcore', hgrow.congr hspawn.counts_eq rfl, fun hn => ?_⟩
      exact (hsame fun hmem => hn (List.mem_cons_of_mem c hmem)).trans hspawn.counts_eq

/-- Settles O25: a cycle ticks every core once, and a tick makes one pipeline cycle at most. -/
theorem stepCountsOneCycle : Obligations.StepCountsOneCycle := by
  unfold Obligations.StepCountsOneCycle
  intro s t hstep
  obtain ⟨-, rfl⟩ := step_eq_next.mp hstep
  have htiming := (dramPhase_onlyTiming s).trans (l2Phase_onlyTiming (dramPhase s))
  obtain ⟨hcfg, hcycles, houtput⟩ := ticksRun_shared (List.range s.cfg.numCores) (l2Phase (dramPhase s))
  refine ⟨?_, ?_, hcfg.trans htiming.cfg, rfl, fun k core hk => ?_⟩
  · exact congrArg (· + 1) (hcycles.trans htiming.cycles)
  · exact htiming.output ▸ houtput
  · obtain ⟨icache, dcache, hk'⟩ := htiming.cores k core hk
    obtain ⟨core', hcore', hgrow, -⟩ := ticksRun_counts List.nodup_range hk'
    exact ⟨core', hcore', hgrow⟩

end Sys2Proof.Machine
end

section
/-! SUPPORT. The sizes of the arrays (R10, R210, R240, R260): what each operation of the caches, the DRAM and the pipeline keeps of
them. -/

namespace Sys2Proof.Machine

/-- What all elements of a list meet, they still meet after a change that keeps it. -/
theorem forall_mem_modify {α : Type} {P : α → Prop} {l : List α} {f : α → α} (k : Nat) (h : ∀ x ∈ l, P x)
    (hf : ∀ x, P x → P (f x)) : ∀ x ∈ l.modify k f, P x := by
  induction l generalizing k with
  | nil => simp
  | cons a rest ih =>
    obtain ⟨ha, hrest⟩ := List.forall_mem_cons.mp h
    cases k with
    | zero => exact List.forall_mem_cons.mpr ⟨hf a ha, hrest⟩
    | succ k => exact List.forall_mem_cons.mpr ⟨ha, ih k hrest⟩

/-! ## Caches -/

/-- The array has `sets` sets of `assoc` ways (R210). -/
def Shaped (sets assoc : Nat) (array : CacheSets) : Prop := array.length = sets ∧ ∀ ways ∈ array, ways.length = assoc

theorem Shaped.modify {sets assoc : Nat} {array : CacheSets} {f : CacheSet → CacheSet} (h : Shaped sets assoc array) (k : Nat)
    (hf : ∀ ways, (f ways).length = ways.length) : Shaped sets assoc (array.modify k f) :=
  ⟨(List.length_modify _ _ _).trans h.1, forall_mem_modify k h.2 fun ways hw => (hf ways).trans hw⟩

@[simp] theorem length_touchWays (w : Nat) (ways : CacheSet) : (touchWays w ways).length = ways.length :=
  List.length_mapIdx

@[simp] theorem length_dirtyWay (w : Nat) (ways : CacheSet) : (dirtyWay w ways).length = ways.length :=
  List.length_modify _ _ _

@[simp] theorem length_installWays (tag : Nat) (ways : CacheSet) : (installWays tag ways).length = ways.length :=
  List.length_mapIdx

theorem Shaped.hit {sets assoc : Nat} {array : CacheSets} (h : Shaped sets assoc array) (addr : Word) (w : Nat)
    (isWrite : Bool) : Shaped sets assoc (hitBlock array addr w isWrite) := by
  refine h.modify _ fun ways => ?_
  cases isWrite <;> simp

theorem Shaped.install {sets assoc : Nat} {array : CacheSets} (h : Shaped sets assoc array) (addr : Word) :
    Shaped sets assoc (install array addr) :=
  h.modify _ fun ways => length_installWays _ ways

/-- The L2 and its MSHR pool have the sizes of the parameters (R240). -/
def L2Shaped (cfg : Config) (l2 : L2) : Prop :=
  Shaped cfg.l2Sets cfg.l2Assoc l2.sets ∧ l2.mshrs.length = cfg.l2MshrSize

theorem L2Shaped.access {cfg : Config} {l2 : L2} (h : L2Shaped cfg l2) (t : Nat) (addr : Word) (isWrite : Bool) (id : Nat) :
    L2Shaped cfg (l2Access cfg t addr isWrite id l2).2 := by
  obtain ⟨hsets, hmshrs⟩ := h
  unfold l2Access
  split
  · exact ⟨hsets.hit _ _ _, hmshrs⟩
  · split
    · exact ⟨hsets, (List.length_modify _ _ _).trans hmshrs⟩
    · split
      · exact ⟨hsets, List.length_set.trans hmshrs⟩
      · exact ⟨hsets, hmshrs⟩

theorem Shaped.fill {sets assoc : Nat} {l1 : L1} (h : Shaped sets assoc l1.sets) (addr : Word) :
    Shaped sets assoc (l1Fill addr l1).sets := by
  unfold l1Fill
  split
  · exact h.install _
  · exact h

theorem Shaped.fillIfReady {sets assoc : Nat} {l1 : L1} (h : Shaped sets assoc l1.sets) (t : Nat) :
    Shaped sets assoc (l1FillIfReady t l1).sets := by
  unfold l1FillIfReady
  split
  · exact h.fill _
  · exact h

/-- An access keeps the shape of the L1 and of the L2 (R223). -/
theorem l1Access_shaped {cfg : Config} {sets assoc t id : Nat} {addr : Word} {isWrite isData done : Bool} {l1 l1' : L1}
    {l2 l2' : L2} (h1 : Shaped sets assoc l1.sets) (h2 : L2Shaped cfg l2)
    (h : l1Access cfg t id addr isWrite isData l1 l2 = (done, l1', l2')) :
    Shaped sets assoc l1'.sets ∧ L2Shaped cfg l2' := by
  have hfill := h1.fillIfReady t
  have haccess := h2.access t addr isWrite id
  unfold l1Access at h
  dsimp only at h
  split at h
  · cases h
    exact ⟨hfill, h2⟩
  · split at h
    · cases h
      exact ⟨hfill.hit _ _ _, h2⟩
    · rcases hanswer : l2Access cfg t addr isWrite id l2 with ⟨answer, after⟩
      rw [hanswer] at h haccess
      cases answer <;> cases h <;> exact ⟨hfill, haccess⟩

/-! ## Cores, DRAM and the whole machine -/

/-- The L1s of a core have the sizes of the parameters (R210). -/
def CoreShaped (cfg : Config) (core : CoreState) : Prop :=
  Shaped cfg.l1iSets cfg.l1iAssoc core.icache.sets ∧ Shaped cfg.l1dSets cfg.l1dAssoc core.dcache.sets

/-- The DRAM has the banks and channels of the parameters (R260). -/
def DramShaped (cfg : Config) (d : Dram) : Prop :=
  d.banks.length = cfg.dramChannels * cfg.dramRanks * cfg.dramBanks ∧ d.channels.length = cfg.dramChannels

theorem shapeInv_iff {s : State} :
    ShapeInv s ↔ s.cores.length = s.cfg.numCores ∧ (∀ core ∈ s.cores, CoreShaped s.cfg core) ∧ L2Shaped s.cfg s.l2 ∧
      DramShaped s.cfg s.dram := by
  constructor
  · intro h
    exact ⟨h.cores, fun core hc => ⟨h.icaches core hc, h.dcaches core hc⟩, ⟨h.l2, h.mshrs⟩, h.banks, h.channels⟩
  · rintro ⟨hlength, hcores, ⟨hl2, hmshrs⟩, hbanks, hchannels⟩
    exact ⟨hlength, fun core hc => (hcores core hc).1, fun core hc => (hcores core hc).2, hl2, hmshrs, hbanks, hchannels⟩

/-! ## DRAM and L2 in the processor cycle -/

theorem DramShaped.dispatch {cfg : Config} {d : Dram} (h : DramShaped cfg d) (t : Nat) :
    DramShaped cfg (dramDispatch cfg t d) := by
  unfold dramDispatch
  split
  · split
    · exact ⟨(List.length_modify _ _ _).trans h.1, (List.length_modify _ _ _).trans h.2⟩
    · exact h
  · exact h

theorem DramShaped.complete {cfg : Config} {d : Dram} (h : DramShaped cfg d) (t : Nat) :
    DramShaped cfg (dramComplete t d).2 := by
  unfold dramComplete
  split <;> exact h

theorem DramShaped.execute {cfg : Config} {d : Dram} (h : DramShaped cfg d) (t : Nat) :
    DramShaped cfg (dramExecute cfg t d).2 :=
  (h.complete t).dispatch t

theorem dramPhase_shape {s : State} (h : ShapeInv s) : ShapeInv (dramPhase s) := by
  obtain ⟨hlength, hcores, hl2, hdram⟩ := shapeInv_iff.mp h
  have hexecute := hdram.execute s.cycles
  unfold dramPhase
  rcases hanswer : dramExecute s.cfg s.cycles s.dram with ⟨done, after⟩
  rw [hanswer] at hexecute
  cases done <;> exact shapeInv_iff.mpr ⟨hlength, hcores, hl2, hexecute⟩

theorem CoreShaped.fill {cfg : Config} {core : CoreState} (h : CoreShaped cfg core) (addr : Word) :
    CoreShaped cfg (fillCore addr core) :=
  ⟨h.1.fill addr, h.2.fill addr⟩

theorem fillRequesters_shaped {cfg : Config} (addr : Word) (requesters : List Nat) {cores : List CoreState}
    (h : ∀ core ∈ cores, CoreShaped cfg core) : ∀ core ∈ fillRequesters addr requesters cores, CoreShaped cfg core := by
  induction requesters generalizing cores with
  | nil => exact h
  | cons c rest ih => exact ih (forall_mem_modify c h fun core hcore => hcore.fill addr)

theorem deliver_shape {s : State} (r : RetItem) (h : ShapeInv s) : ShapeInv (deliver s r) := by
  obtain ⟨hlength, hcores, ⟨hsets, hmshrs⟩, hdram⟩ := shapeInv_iff.mp h
  unfold deliver
  split
  · exact h
  · exact shapeInv_iff.mpr ⟨(fillRequesters_onlyTiming _ _ s).length.trans hlength, fillRequesters_shaped _ _ hcores,
      ⟨hsets.install _, (List.length_modify _ _ _).trans hmshrs⟩, hdram⟩

theorem l2Phase_shape {s : State} (h : ShapeInv s) : ShapeInv (l2Phase s) := by
  obtain ⟨hlength, hcores, hl2, hdram⟩ := shapeInv_iff.mp h
  obtain ⟨sent, held, -, -, -, -, hdrain⟩ := drainRequests_split s.cfg s.cycles s.l2.reqQueue s.dram
  unfold l2Phase
  rw [hdrain]
  exact List.foldlRecOn _ deliver (shapeInv_iff.mpr ⟨hlength, hcores, hl2, hdram⟩) fun u hu r _ => deliver_shape r hu

/-! ## The stages of a pipeline cycle -/

/-- A spawn does not touch the L1s (R656). -/
theorem SpawnEffect.shaped {cfg : Config} {core core' : CoreState} (h : SpawnEffect core core') (hs : CoreShaped cfg core) :
    CoreShaped cfg core' := by
  rcases h with rfl | ⟨pc, -, rfl⟩
  · exact hs
  · exact hs

/-- A stage of core `c` keeps every size if it keeps those of the core and of the L2. -/
theorem ShapeInv.of_elsewhere {s t : State} {c : Nat} {core' : CoreState} (h : ShapeInv s) (he : Elsewhere c s t)
    (hc : t.cores[c]? = some core') (hcore : CoreShaped s.cfg core') (hl2 : L2Shaped s.cfg t.l2) : ShapeInv t := by
  obtain ⟨hlength, hcores, -, hdram⟩ := shapeInv_iff.mp h
  refine shapeInv_iff.mpr ⟨?_, fun core hmem => ?_, he.cfg ▸ hl2, ?_⟩
  · rw [he.length, he.cfg, hlength]
  · rw [he.cfg]
    obtain ⟨k, hk⟩ := List.mem_iff_getElem?.mp hmem
    by_cases hkc : k = c
    · subst hkc
      obtain rfl : core' = core := Option.some.inj (hc.symm.trans hk)
      exact hcore
    · have hlt : k < s.cores.length := he.length ▸ (List.getElem?_eq_some_iff.mp hk).1
      obtain ⟨other', hother, hspawn⟩ := he.others k _ hkc (List.getElem?_eq_getElem hlt)
      obtain rfl : other' = core := Option.some.inj (hother.symm.trans hk)
      exact hspawn.shaped (hcores _ (List.getElem_mem hlt))
  · rw [he.cfg, he.dram]
    exact hdram

/-- A stage call on a number that names no core does nothing. -/
theorem callRun_of_no_core {s : State} {c : Nat} (stage : Stage) (h : s.cores[c]? = none) : callRun c stage s = s := by
  unfold callRun
  rw [h]
  rfl

theorem callRun_shape (c : Nat) (stage : Stage) {s : State} (h : ShapeInv s) : ShapeInv (callRun c stage s) := by
  cases hc : s.cores[c]? with
  | none => exact (callRun_of_no_core stage hc).symm ▸ h
  | some core =>
    obtain ⟨-, hcores, hl2, -⟩ := shapeInv_iff.mp h
    have hcore : CoreShaped s.cfg core := hcores core (List.mem_of_getElem? hc)
    cases stage with
    | wb =>
      obtain ⟨⟨core', hc', heffect⟩, helse, -, hl2'⟩ := callRun_wb hc
      obtain ⟨_, _, _, _, _, rfl, -⟩ := heffect.frame
      exact h.of_elsewhere helse hc' hcore (hl2' ▸ hl2)
    | mem =>
      obtain ⟨core', hc', heffect, helse, -, hcaches⟩ := callRun_mem hc
      have hshaped : Shaped s.cfg.l1dSets s.cfg.l1dAssoc core'.dcache.sets ∧ L2Shaped s.cfg (callRun c .mem s).l2 := by
        rcases hcaches with ⟨hl2', hdcache⟩ | ⟨_, _, _, haccess⟩
        · rw [hl2', hdcache]
          exact ⟨hcore.2, hl2⟩
        · exact l1Access_shaped hcore.2 hl2 haccess
      obtain ⟨_, _, _, rfl⟩ := heffect.frame
      exact h.of_elsewhere helse hc' ⟨hcore.1, hshaped.1⟩ hshaped.2
    | execute =>
      obtain ⟨⟨core', hc', heffect⟩, helse, -, hl2'⟩ := callRun_execute hc
      obtain ⟨_, _, _, _, _, _, rfl⟩ := heffect.frame
      exact h.of_elsewhere helse hc' hcore (hl2' ▸ hl2)
    | decode =>
      obtain ⟨⟨core', hc', heffect⟩, helse, -, hl2'⟩ := callRun_decode hc
      obtain ⟨_, _, rfl⟩ := heffect.frame
      exact h.of_elsewhere helse hc' hcore (hl2' ▸ hl2)

theorem fetchStage_shape (c : Nat) {s : State} (h : ShapeInv s) : ShapeInv (fetchStage c s) := by
  cases hc : s.cores[c]? with
  | none => simpa only [fetchStage, hc] using h
  | some core =>
    obtain ⟨-, hcores, hl2, -⟩ := shapeInv_iff.mp h
    have hcore : CoreShaped s.cfg core := hcores core (List.mem_of_getElem? hc)
    obtain ⟨core', hc', heffect, helse, -, hcaches⟩ := fetchStage_effect hc
    have hshaped : Shaped s.cfg.l1iSets s.cfg.l1iAssoc core'.icache.sets ∧ L2Shaped s.cfg (fetchStage c s).l2 := by
      rcases hcaches with ⟨hl2', hicache⟩ | ⟨_, haccess⟩
      · rw [hl2', hicache]
        exact ⟨hcore.1, hl2⟩
      · exact l1Access_shaped hcore.1 hl2 haccess
    obtain ⟨_, _, _, _, rfl, -⟩ := heffect.frame
    exact h.of_elsewhere helse hc' ⟨hshaped.1, hcore.2⟩ hshaped.2

/-- A change of a core that keeps its L1s keeps every size. -/
theorem ShapeInv.modifyCore {s : State} {f : CoreState → CoreState} (h : ShapeInv s) (c : Nat)
    (hf : ∀ core, CoreShaped s.cfg core → CoreShaped s.cfg (f core)) : ShapeInv (s.modifyCore c f) := by
  obtain ⟨hlength, hcores, hl2, hdram⟩ := shapeInv_iff.mp h
  exact shapeInv_iff.mpr ⟨(List.length_modify _ _ _).trans hlength, forall_mem_modify c hcores hf, hl2, hdram⟩

theorem applyRecoveryCore_shaped {cfg : Config} {core : CoreState} (h : CoreShaped cfg core) :
    CoreShaped cfg (applyRecoveryCore core) := by
  obtain ⟨_, _, _, _, _, _, _, hrecovered, -⟩ := applyRecoveryCore_frame core
  rw [hrecovered]
  exact h

theorem tickRun_shape (c : Nat) {s : State} (h : ShapeInv s) : ShapeInv (tickRun c s) :=
  tickRun_induct h fun _ _ _ => pipelineRun_induct h (fun stage _ hu => callRun_shape c stage hu)
    (fun _ hu => hu.modifyCore c fun _ hcore => hcore) (fun _ hu => fetchStage_shape c hu)
    (fun _ hu => hu.modifyCore c fun _ hcore => applyRecoveryCore_shaped hcore)

theorem countCycle_shape {s : State} (h : ShapeInv s) : ShapeInv (countCycle s) := by
  obtain ⟨hlength, hcores, hl2, hdram⟩ := shapeInv_iff.mp h
  exact shapeInv_iff.mpr ⟨hlength, hcores, hl2, hdram⟩

/-- Settles O23: every part of a cycle keeps the sizes, so the step does. -/
theorem stepKeepsShape : Obligations.StepKeepsShape := by
  unfold Obligations.StepKeepsShape
  intro s t hs hstep
  exact step_induct hstep hs (fun _ => dramPhase_shape) (fun _ => l2Phase_shape) (fun c _ => tickRun_shape c)
    (fun _ => countCycle_shape)

end Sys2Proof.Machine
end

section
/-! SUPPORT. Invariants of memory and of the cores over a step: functional memory's canonical form (R131, R202), the basics of a
core (R101, R113, R114, R116) and the bounds of its counters (R117, R402). -/

namespace Sys2Proof.Machine

/-! ## Functional memory -/

/-- A tick makes one store at most. -/
theorem tickRun_mem (c : Nat) (s : State) :
    (tickRun c s).mem = s.mem ∨ ∃ a v, (tickRun c s).mem = memWrite32 s.cfg s.mem a v :=
  tickRun_induct (P := fun u => u.mem = s.mem ∨ ∃ a v, u.mem = memWrite32 s.cfg s.mem a v) (.inl rfl)
    fun _ hcore _ => (pipelineRun_effect hcore).2.2

/-- Settles O16: only a store writes memory in a step, and `mem_write_32` keeps the canonical form. -/
theorem stepKeepsMemoryCanonical : Obligations.StepKeepsMemoryCanonical := by
  unfold Obligations.StepKeepsMemoryCanonical
  intro s t hs hstep
  refine step_induct (P := fun u => u.mem.wf = true) hstep hs (fun u hu => ?_) (fun u hu => ?_) (fun c u hu => ?_)
    (fun _ hu => hu)
  · rw [(dramPhase_onlyTiming u).mem]
    exact hu
  · rw [(l2Phase_onlyTiming u).mem]
    exact hu
  · rcases tickRun_mem c u with hmem | ⟨a, v, hmem⟩
    · rw [hmem]
      exact hu
    · rw [hmem]
      exact memWrite32_wf u.cfg a v hu

/-! ## From what one core does to every core of the machine -/

/-- A property of every core of `t`, from what becomes of each core of `s`. -/
theorem EveryCore.of_cores {P : Nat → CoreState → Prop} {s t : State} (hlength : t.cores.length = s.cores.length)
    (h : ∀ (k : Nat) (core : CoreState), s.cores[k]? = some core → ∃ core', t.cores[k]? = some core' ∧ P k core') :
    EveryCore P t := by
  intro k core' hk
  have hlt : k < s.cores.length := hlength ▸ (List.getElem?_eq_some_iff.mp hk).1
  obtain ⟨found, hfound, hP⟩ := h k _ (List.getElem?_eq_getElem hlt)
  obtain rfl : found = core' := Option.some.inj (hfound.symm.trans hk)
  exact hP

/-- A property of cores that new L1s keep is kept by the memory hierarchy's own cycle (R201). -/
theorem EveryCore.onlyTiming {P : Nat → CoreState → Prop}
    (htiming : ∀ (k : Nat) (core : CoreState) (icache dcache : L1),
      P k core → P k { core with icache := icache, dcache := dcache })
    {s t : State} (hs : EveryCore P s) (h : OnlyTiming s t) : EveryCore P t := by
  refine .of_cores h.length fun k core hk => ?_
  obtain ⟨icache, dcache, hk'⟩ := h.cores k core hk
  exact ⟨_, hk', htiming k core icache dcache (hs k core hk)⟩

/-- A property of cores that new L1s, a pipeline cycle and a spawn keep is kept by every step (R201, R401, R656, R740). -/
theorem step_everyCore {P : Nat → CoreState → Prop}
    (htiming : ∀ (k : Nat) (core : CoreState) (icache dcache : L1),
      P k core → P k { core with icache := icache, dcache := dcache })
    (hcycle : ∀ (k : Nat) (core core' : CoreState), P k core → CoreCycle core core' → P k core')
    (hspawn : ∀ (k : Nat) (core core' : CoreState), P k core → SpawnEffect core core' → P k core')
    {s t : State} (hs : EveryCore P s) (hstep : step s = .next t) : EveryCore P t := by
  refine step_induct hstep hs (fun u hu => hu.onlyTiming htiming (dramPhase_onlyTiming u))
    (fun u hu => hu.onlyTiming htiming (l2Phase_onlyTiming u)) (fun c u hu => ?_) (fun _ hu => hu)
  have helse := tickRun_elsewhere c u
  refine .of_cores helse.length fun k core hk => ?_
  by_cases hkc : k = c
  · subst hkc
    obtain ⟨⟨core', hk', hown⟩, -⟩ := tickRun_effect hk
    refine ⟨core', hk', ?_⟩
    rcases hown with rfl | hown
    · exact hu k _ hk
    · exact hcycle k core core' (hu k core hk) hown
  · obtain ⟨core', hk', hspawned⟩ := helse.others k core hkc hk
    exact ⟨core', hk', hspawn k core core' (hu k core hk) hspawned⟩

/-! ## The recovery triple within a pipeline cycle (R114, R415, R423, R424) -/

/-- The recovery triple is clear, or the pending one of a branch taken in this cycle. -/
def RecoveryFits (core : CoreState) : Prop :=
  core.branchRecover = BranchRecover.clear ∨
    (core.branchRecover.pending = true ∧ core.branchRecover.flushDepth = branchFlushDepth)

theorem RecoveryFits.leaveExecute {core : CoreState} (h : RecoveryFits core) (op : Op) :
    RecoveryFits (leaveExecute core op) := by
  unfold Machine.leaveExecute recover
  split_ifs
  · exact h
  · exact .inr ⟨rfl, rfl⟩
  · exact h

theorem ExecuteEffect.recoveryFits {core core' : CoreState} (h : ExecuteEffect core core') (hr : RecoveryFits core) :
    RecoveryFits core' := by
  rcases h with ⟨-, rfl⟩ | ⟨op, -, -, ⟨-, rfl⟩ | ⟨next, op', hblock, rfl⟩⟩
  · exact hr
  · exact hr
  · obtain ⟨hi, lo, n, rfl⟩ := executeBlock_core hblock
    exact RecoveryFits.leaveExecute (core := { core with hi := hi, lo := lo, multiplierStall := n }) hr op'

/-- A recovery that fits is cleared by being applied. -/
theorem RecoveryFits.applied {core : CoreState} (h : RecoveryFits core) :
    (applyRecoveryCore core).branchRecover = BranchRecover.clear := by
  unfold applyRecoveryCore
  rcases h with hclear | ⟨hpending, -⟩
  · rw [hclear]
    exact hclear
  · rw [if_pos hpending]

/-- No recovery is pending after a pipeline cycle that began with none (R114). -/
theorem CoreCycle.noRecovery {core core' : CoreState} (h : CoreCycle core core')
    (hr : core.branchRecover = BranchRecover.clear) : core'.branchRecover = BranchRecover.clear := by
  obtain ⟨wb, mem, exe, dec, fet, hwb, hmem, hexe, hdec, hfet, rfl⟩ := h
  obtain ⟨_, _, _, _, _, rfl, -⟩ := hwb.frame
  obtain ⟨_, _, _, rfl⟩ := hmem.frame
  have hfits : RecoveryFits exe := hexe.recoveryFits (.inl hr)
  obtain ⟨_, _, rfl⟩ := hdec.frame
  obtain ⟨_, _, _, _, rfl, -⟩ := hfet.frame
  exact RecoveryFits.applied hfits

/-! ## The basics of a core -/

/-- A multiply or divide sets the counter to its latency (R500). -/
theorem mulDiv_stall {rs rt : Reg} {f : Word → Word → Word × Word} {latency : Nat} {core core' : CoreState} {op op' : Op}
    (h : (Blocks.mulDiv rs rt f latency).executeBlock core op = some (core', op')) : core'.multiplierStall = latency := by
  obtain ⟨rfl, -⟩ := Prod.mk.inj (Option.some.inj h)
  rfl

/-- No execute block takes the counter above 32: a multiply sets it to 4, a divide to 32, and no other changes it (R113). -/
theorem executeBlock_stall_le {i : Instr} {core core' : CoreState} {op op' : Op}
    (h : (blocksOf i).executeBlock core op = some (core', op')) (hs : core.multiplierStall ≤ 32) :
    core'.multiplierStall ≤ 32 := by
  by_cases hother : ∀ rs rt, i ≠ .mult rs rt ∧ i ≠ .multu rs rt ∧ i ≠ .div rs rt ∧ i ≠ .divu rs rt
  · obtain ⟨-, hi, lo, n, rfl, hframe⟩ := executeBlock_frame i core op core' op' h
    exact (hframe hother).1.trans_le hs
  · cases i with
    | mult rs rt => exact (mulDiv_stall h).trans_le (by decide)
    | multu rs rt => exact (mulDiv_stall h).trans_le (by decide)
    | div rs rt => exact (mulDiv_stall h).trans_le (by decide)
    | divu rs rt => exact (mulDiv_stall h).trans_le (by decide)
    | _ => exact absurd (by simp) hother

theorem ExecuteEffect.stall_le {core core' : CoreState} (h : ExecuteEffect core core')
    (hs : core.multiplierStall ≤ 32) : core'.multiplierStall ≤ 32 := by
  rcases h with ⟨-, rfl⟩ | ⟨op, -, -, ⟨-, rfl⟩ | ⟨next, op', hblock, rfl⟩⟩
  · exact hs
  · exact hs
  · have hnext : next.multiplierStall ≤ 32 := by
      unfold blocksOfWord at hblock
      cases hw : decode op.instruction with
      | ok i =>
        rw [hw] at hblock
        exact executeBlock_stall_le hblock hs
      | error e =>
        rw [hw] at hblock
        obtain ⟨rfl, -⟩ := Prod.mk.inj (Option.some.inj hblock)
        exact hs
    obtain ⟨recovery, hleave⟩ := leaveExecute_frame next op'
    rw [hleave]
    exact hnext

/-- Slot 0 is never written at writeback (R101). -/
theorem WbEffect.slotZero {core core' : CoreState} (h : WbEffect core core') : core'.regs[0] = core.regs[0] := by
  rcases h with ⟨-, rfl⟩ | ⟨op, regs, pc, running, -, hzero, rfl⟩
  · rfl
  · exact hzero

theorem CoreBasics.cycle {k : Nat} {core core' : CoreState} (h : CoreBasics k core) (hc : CoreCycle core core') :
    CoreBasics k core' := by
  have hrecovery := hc.noRecovery h.noRecovery
  obtain ⟨wb, mem, exe, dec, fet, hwb, hmem, hexe, hdec, hfet, rfl⟩ := hc
  have hzero := hwb.slotZero.trans h.regZero
  obtain ⟨_, _, _, _, _, rfl, -⟩ := hwb.frame
  obtain ⟨_, _, _, rfl⟩ := hmem.frame
  have hstall : exe.multiplierStall ≤ 32 := hexe.stall_le ((Nat.sub_le _ 1).trans h.stallRange)
  obtain ⟨_, _, _, _, _, _, rfl⟩ := hexe.frame
  obtain ⟨_, _, rfl⟩ := hdec.frame
  obtain ⟨_, _, _, _, rfl, -⟩ := hfet.frame
  obtain ⟨_, _, _, _, _, _, _, hrecovered, -⟩ := applyRecoveryCore_frame _
  rw [hrecovered] at hrecovery ⊢
  exact { regZero := hzero, stallRange := hstall, noRecovery := hrecovery, idIsPlace := h.idIsPlace }

/-- A spawn writes register 3, PC and `running` only (R656). -/
theorem CoreBasics.spawned {k : Nat} {core core' : CoreState} (h : CoreBasics k core) (hs : SpawnEffect core core') :
    CoreBasics k core' := by
  rcases hs with rfl | ⟨pc, -, rfl⟩
  · exact h
  · exact { regZero := (RegFile.write_slotZero _ _ _).trans h.regZero, stallRange := h.stallRange,
            noRecovery := h.noRecovery, idIsPlace := h.idIsPlace }

/-- Settles O17: a pipeline cycle and a spawn keep the basics of a core, and nothing else in a step touches them. -/
theorem stepKeepsCoreBasics : Obligations.StepKeepsCoreBasics := by
  unfold Obligations.StepKeepsCoreBasics
  intro s t hs hstep
  refine step_everyCore (fun k core icache dcache h => ?_) (fun k core core' h => h.cycle)
    (fun k core core' h => h.spawned) hs hstep
  exact { regZero := h.regZero, stallRange := h.stallRange, noRecovery := h.noRecovery, idIsPlace := h.idIsPlace }

/-! ## The bounds of the counters -/

/-- The bounds of R402 at a boundary between two stages of a cycle: every op in a slot is fetched and not retired, and the branch
of every recovery, a pending one too, has gone past execute. -/
structure CountsFit (core : CoreState) : Prop where
  recovery : RecoveryFits core
  retiredBound :
    core.retired + occupied [core.decodeOp, core.executeOp, core.memOp, core.wbOp] ≤ core.fetched
  squashedBound :
    core.squashed + core.branchRecover.pending.toNat ≤ core.retired + occupied [core.memOp, core.wbOp]

theorem CounterBounds.countsFit {core : CoreState} (h : CounterBounds core) : CountsFit core :=
  { recovery := .inl h.noRecovery, retiredBound := h.retiredBound, squashedBound := h.noRecovery ▸ h.squashedBound }

/-- Of the listed slots, the first counts for its op. -/
theorem occupied_cons (slot : Option Op) (slots : List (Option Op)) :
    occupied (slot :: slots) = occupied slots + slot.isSome.toNat := by
  cases slot <;> simp [occupied]

/-- Writeback takes an op out of its slot and counts it. -/
theorem CountsFit.wb {core core' : CoreState} (h : CountsFit core) (he : WbEffect core core') : CountsFit core' := by
  obtain ⟨hr, hretired, hsquashed⟩ := h
  rcases he with ⟨-, rfl⟩ | ⟨op, regs, pc, running, hop, -, rfl⟩
  · exact ⟨hr, hretired, hsquashed⟩
  · simp only [hop, occupied_cons, Option.isSome_some, Bool.toNat_true] at hretired hsquashed
    refine ⟨hr, ?_, ?_⟩ <;> simp only [occupied_cons, Option.isSome_none, Bool.toNat_false] <;> omega

/-- The wb slot is empty after writeback (R420). -/
theorem WbEffect.slotEmpty {core core' : CoreState} (h : WbEffect core core') : core'.wbOp = none := by
  rcases h with ⟨hop, rfl⟩ | ⟨op, regs, pc, running, -, -, rfl⟩
  · exact hop
  · rfl

/-- Mem moves an op into the wb slot, which writeback has emptied (R417). -/
theorem CountsFit.mem {core core' : CoreState} (h : CountsFit core) (hwb : core.wbOp = none) (he : MemEffect core core') :
    CountsFit core' := by
  obtain ⟨hr, hretired, hsquashed⟩ := h
  rcases he with ⟨-, rfl⟩ | ⟨op, dcache, -, -, rfl⟩ | ⟨op, op', dcache, hop, rfl, -⟩
  · exact ⟨hr, hretired, hsquashed⟩
  · exact ⟨hr, hretired, hsquashed⟩
  · rw [hop, hwb] at hretired hsquashed
    exact ⟨hr, hretired, hsquashed⟩

/-- Execute moves an op from one counted slot to the next, and a recovery becomes pending only with the branch that moves
(R415). -/
theorem CountsFit.execute {core core' : CoreState} (h : CountsFit core) (he : ExecuteEffect core core') : CountsFit core' := by
  have hr' := he.recoveryFits h.recovery
  obtain ⟨hr, hretired, hsquashed⟩ := h
  rcases he with ⟨-, rfl⟩ | ⟨op, hop, hmem, ⟨-, rfl⟩ | ⟨next, op', hblock, rfl⟩⟩
  · exact ⟨hr, hretired, hsquashed⟩
  · rw [hop] at hretired
    exact ⟨hr, hretired, hsquashed⟩
  · obtain ⟨hi, lo, n, rfl⟩ := executeBlock_core hblock
    obtain ⟨recovery, hleave⟩ := leaveExecute_frame { core with hi := hi, lo := lo, multiplierStall := n } op'
    rw [hleave] at hr' ⊢
    have hpending := recovery.pending.toNat_le
    simp only [hop, hmem, occupied_cons, Option.isSome_some, Option.isSome_none, Bool.toNat_true, Bool.toNat_false]
      at hretired hsquashed
    refine ⟨hr', ?_, ?_⟩ <;>
      simp only [occupied_cons, Option.isSome_some, Option.isSome_none, Bool.toNat_true, Bool.toNat_false] <;> omega

/-- Decode moves an op from one counted slot to the next. -/
theorem CountsFit.decode {core core' : CoreState} (h : CountsFit core) (he : DecodeEffect core core') : CountsFit core' := by
  obtain ⟨hr, hretired, hsquashed⟩ := h
  rcases he with ⟨-, rfl⟩ | ⟨op, hop, hexe, rfl⟩
  · exact ⟨hr, hretired, hsquashed⟩
  · rw [hop, hexe] at hretired
    exact ⟨hr, hretired, hsquashed⟩

/-- Fetch counts the op it puts into its slot. -/
theorem CountsFit.fetch {core core' : CoreState} (h : CountsFit core) (he : FetchEffect core core') : CountsFit core' := by
  obtain ⟨hr, hretired, hsquashed⟩ := h
  rcases he with rfl | ⟨icache, -, rfl⟩ | ⟨icache, w, hdec, rfl⟩
  · exact ⟨hr, hretired, hsquashed⟩
  · exact ⟨hr, hretired, hsquashed⟩
  · simp only [hdec, occupied_cons, Option.isSome_none, Bool.toNat_false] at hretired
    refine ⟨hr, ?_, hsquashed⟩
    simp only [fetchInto, occupied_cons, Option.isSome_some, Bool.toNat_true]
    omega

/-- A recovery empties the decode and execute slots only, and counts the branch that mem or writeback holds (R424). -/
theorem CountsFit.applied {core : CoreState} (h : CountsFit core) : CounterBounds (applyRecoveryCore core) := by
  obtain ⟨hr, hretired, hsquashed⟩ := h
  rcases hr with hnone | ⟨hpending, hdepth⟩
  · rw [applyRecoveryCore_of_clear (by rw [hnone]; rfl)]
    rw [hnone] at hsquashed
    exact ⟨hnone, hretired, hsquashed⟩
  · rw [hpending] at hsquashed
    simp only [occupied_cons] at hretired
    simp only [applyRecoveryCore, hpending, hdepth, if_true]
    refine ⟨rfl, ?_, hsquashed⟩
    show core.retired + occupied [none, none, core.memOp, core.wbOp] ≤ core.fetched
    simp only [occupied_cons, Option.isSome_none, Bool.toNat_false]
    omega

theorem CounterBounds.cycle {core core' : CoreState} (h : CounterBounds core) (hc : CoreCycle core core') :
    CounterBounds core' := by
  obtain ⟨wb, mem, exe, dec, fet, hwb, hmem, hexe, hdec, hfet, rfl⟩ := hc
  have hfits : CountsFit mem := (h.countsFit.wb hwb).mem hwb.slotEmpty hmem
  have hdecremented : CountsFit (decrementMultiplier mem) := ⟨hfits.recovery, hfits.retiredBound, hfits.squashedBound⟩
  exact (((hdecremented.execute hexe).decode hdec).fetch hfet).applied

/-- A spawn writes register 3, PC and `running` only (R656). -/
theorem CounterBounds.spawned {core core' : CoreState} (h : CounterBounds core) (hs : SpawnEffect core core') :
    CounterBounds core' := by
  rcases hs with rfl | ⟨pc, -, rfl⟩
  · exact h
  · exact ⟨h.noRecovery, h.retiredBound, h.squashedBound⟩

theorem CounterBounds.le_fetched {core : CoreState} (h : CounterBounds core) :
    core.retired ≤ core.fetched ∧ core.squashed ≤ core.fetched := by
  obtain ⟨-, hretired, hsquashed⟩ := h
  simp only [occupied_cons] at hretired hsquashed
  omega

/-- Settles O18: every part of a pipeline cycle keeps the bounds, counting a pending recovery with its branch. -/
theorem stepKeepsCounterBounds : Obligations.StepKeepsCounterBounds := by
  unfold Obligations.StepKeepsCounterBounds
  refine ⟨fun s t hs hstep => ?_, fun core => CounterBounds.le_fetched⟩
  refine step_everyCore (fun k core icache dcache h => ?_) (fun k core core' h => h.cycle)
    (fun k core core' h => h.spawned) hs hstep
  exact ⟨h.noRecovery, h.retiredBound, h.squashedBound⟩

end Sys2Proof.Machine
end

section
/-! SUPPORT. The stage calls of an instruction: what passes mem and what writeback commits (R101, R416, R420), and the frame of each
call (R103, R106, R110, R205, R407, R414). -/

namespace Sys2Proof.Machine

/-! ## Mem and writeback -/

/-- An op that accesses no memory passes mem, whatever its instruction (R416). -/
theorem passesMem (i : Instr) : PassesMem i := by
  rintro s c core op ⟨hfocus, hcore⟩ hop hmem
  rw [exec_eq_run, Blocks.run_mem _ hfocus, memStage_passes _ _ hcore hop hmem]
  rfl

/-- Every instruction without a service commits, and is counted (R420). -/
theorem retires_of_not_syscall {i : Instr} (h : i ≠ .syscall) : Retires i := by
  rintro s c core op ⟨hfocus, hcore⟩ hop
  rw [exec_eq_run, Blocks.run_wb _ hfocus, service_none_of_not_syscall i h, wbStage_retires hcore hop]
  rfl

/-- Settles O11: the mem and wb stages under a known core, and the reads of a written register file. -/
theorem memPassesAndWritebackCommits : Obligations.MemPassesAndWritebackCommits := by
  unfold Obligations.MemPassesAndWritebackCommits
  refine ⟨fun i _ => passesMem i, fun i => retires_of_not_syscall, fun rf r q v => ?_⟩
  exact ⟨rf.read_zero, rf.commit_none v, rf.write_zero v, rf.read_write_same v, rf.read_write_other v⟩

/-! ## Frames -/

/-- A commit leaves every register but its destination (R101, R420). -/
theorem RegFile.read_commit_other {dst : Option Reg} {r : Reg} (rf : RegFile) (v : Word) (h : dst ≠ some r) :
    (rf.commit dst v).read r = rf.read r := by
  cases dst with
  | none => rfl
  | some d => exact rf.read_write_other v fun e => h (congrArg some e.symm)

section
variable {s : State} {c : Nat} {core : CoreState}

/-- A decode call changes the slots on both its sides (R406, R407). -/
theorem decodeStage_frame (block : Op → Op) (h : s.cores[c]? = some core) :
    ∃ d e : Option Op, decodeStage block c s = s.setCore c { core with decodeOp := d, executeOp := e } := by
  by_cases hw : core.decodeOp = none ∨ core.executeOp ≠ none
  · rw [decodeStage_holds block h hw]
    exact ⟨core.decodeOp, core.executeOp, (setCore_self h).symm⟩
  · obtain ⟨hdec, hexe⟩ := not_or.mp hw
    obtain ⟨op, hop⟩ := Option.ne_none_iff_exists'.mp hdec
    rw [decodeStage_moves block h hop (not_not.mp hexe)]
    exact ⟨_, _, rfl⟩

/-- The end of execute leaves the recovery triple of an op that is no branch (R415). -/
theorem leaveExecute_recovery (core : CoreState) (op : Op) :
    ∃ br : BranchRecover,
      leaveExecute core op = { core with branchRecover := br, memOp := some op, executeOp := none } ∧
      (op.isBranch = false → br = core.branchRecover) := by
  cases hbranch : op.isBranch with
  | false => exact ⟨core.branchRecover, leaveExecute_of_not_taken (by simp [hbranch]), fun _ => rfl⟩
  | true =>
    obtain ⟨br, hleave⟩ := leaveExecute_frame core op
    exact ⟨br, hleave, nofun⟩

/-- An execute call changes the slots on both its sides, the recovery triple only for a branch, and HI, LO and the counter only
for the instructions of 42_muldiv.md that write them (R103, R106, R414, R415). -/
theorem executeStage_frame (i : Instr) (h : s.cores[c]? = some core) :
    ∃ (e m : Option Op) (br : BranchRecover) (hi lo : Word) (n : Nat),
      executeStage (blocksOf i).executeBlock c s = s.setCore c
        { core with executeOp := e, memOp := m, branchRecover := br, hi := hi, lo := lo, multiplierStall := n } ∧
      ((∀ rs rt, i ≠ .mult rs rt ∧ i ≠ .multu rs rt ∧ i ≠ .div rs rt ∧ i ≠ .divu rs rt) →
        n = core.multiplierStall ∧ ((∀ rs, i ≠ .mthi rs) → hi = core.hi) ∧ ((∀ rs, i ≠ .mtlo rs) → lo = core.lo)) ∧
      ((∀ op, core.executeOp = some op → op.isBranch = false) → br = core.branchRecover) := by
  by_cases hw : core.executeOp = none ∨ core.memOp ≠ none
  · rw [executeStage_holds _ h hw]
    exact ⟨core.executeOp, core.memOp, core.branchRecover, core.hi, core.lo, core.multiplierStall, (setCore_self h).symm,
      fun _ => ⟨rfl, fun _ => rfl, fun _ => rfl⟩, fun _ => rfl⟩
  · obtain ⟨hexe, hmem⟩ := not_or.mp hw
    obtain ⟨op, hop⟩ := Option.ne_none_iff_exists'.mp hexe
    rw [executeStage_runs _ h hop (not_not.mp hmem)]
    cases hblock : (blocksOf i).executeBlock core (resolveSources core op) with
    | none =>
      exact ⟨_, core.memOp, core.branchRecover, core.hi, core.lo, core.multiplierStall, rfl,
        fun _ => ⟨rfl, fun _ => rfl, fun _ => rfl⟩, fun _ => rfl⟩
    | some answer =>
      obtain ⟨next, op'⟩ := answer
      obtain ⟨hbranch, hi, lo, n, rfl, hhilo⟩ := executeBlock_frame i core _ next op' hblock
      obtain ⟨br, hleave, hbr⟩ := leaveExecute_recovery { core with hi := hi, lo := lo, multiplierStall := n } op'
      exact ⟨_, _, br, hi, lo, n, congrArg (s.setCore c) hleave, hhilo, fun hno => hbr (hbranch.trans (hno op hop))⟩

/-- A mem call changes the slots on both its sides, the D-cache and the L2, and of memory at most the word of a store
(R110, R205, R416). -/
theorem memStage_frame (extract : Word → Word → Word) (merge : Word → Word → Word → Word) (h : s.cores[c]? = some core) :
    ∃ (m w : Option Op) (dcache : L1) (l2 : L2) (mem : Memory),
      memStage extract merge c s =
        State.setCore { s with l2 := l2, mem := mem } c { core with memOp := m, wbOp := w, dcache := dcache } ∧
      ((∀ op, core.memOp = some op → (op.isMem && op.memWrite) = false) → mem = s.mem) ∧
      ∀ b : Nat, (∀ op, core.memOp = some op → b / 4 ≠ op.memAddr.toNat / 4) → mem.readByte b = s.mem.readByte b := by
  cases hop : core.memOp with
  | none =>
    have hstays : memStage extract merge c s = s := by simp [memStage, h, hop]
    rw [hstays]
    exact ⟨core.memOp, core.wbOp, core.dcache, s.l2, s.mem, (setCore_self h).symm, fun _ => rfl, fun _ _ => rfl⟩
  | some op =>
    cases hmem : op.isMem with
    | false =>
      rw [memStage_passes _ _ h hop hmem]
      exact ⟨_, _, core.dcache, s.l2, s.mem, rfl, fun _ => rfl, fun _ _ => rfl⟩
    | true =>
      rcases haccess : l1Access s.cfg s.cycles core.id op.memAddr op.memWrite true core.dcache s.l2 with ⟨done, dcache, l2⟩
      cases done with
      | false =>
        rw [memStage_waits _ _ h hop hmem haccess]
        exact ⟨core.memOp, core.wbOp, dcache, l2, s.mem, rfl, fun _ => rfl, fun _ _ => rfl⟩
      | true =>
        cases hstore : op.memWrite with
        | false =>
          rw [hstore] at haccess
          rw [memStage_loads _ _ h hop hmem hstore haccess]
          exact ⟨_, _, dcache, l2, s.mem, rfl, fun _ => rfl, fun _ _ => rfl⟩
        | true =>
          rw [hstore] at haccess
          rw [memStage_stores _ _ h hop hmem hstore haccess]
          refine ⟨_, _, dcache, l2, _, rfl, fun hno => ?_, fun b hb => memWrite32_readByte_other _ b (hb op rfl)⟩
          exact absurd (hno op rfl) (by simp [hmem, hstore])

/-- A wb call without a service changes the wb slot, the retired count and the op's destination (R420). -/
theorem wbStage_frame (h : s.cores[c]? = some core) :
    ∃ (w : Option Op) (regs : RegFile) (n : Nat),
      wbStage noService c s = s.setCore c { core with wbOp := w, regs := regs, retired := n } ∧
      ∀ r : Reg, (∀ op, core.wbOp = some op → op.regDst ≠ some r) → regs.read r = core.regs.read r := by
  cases hop : core.wbOp with
  | none =>
    have hstays : wbStage noService c s = s := by simp [wbStage, h, hop]
    rw [hstays]
    exact ⟨core.wbOp, core.regs, core.retired, (setCore_self h).symm, fun _ _ => rfl⟩
  | some op =>
    rw [wbStage_retires h hop]
    refine ⟨_, _, _, rfl, fun r hr => ?_⟩
    exact RegFile.read_commit_other _ _ (hr op rfl)

end

/-- Settles O12: each of the four calls runs the instruction's block in its stage, and each stage has its frame. -/
theorem everyStageHasItsFrame : Obligations.EveryStageHasItsFrame := by
  unfold Obligations.EveryStageHasItsFrame
  intro i s t c core hexec
  obtain rfl : (blocksOf i).run s = t := by
    rw [exec_eq_run] at hexec
    exact Host.Outcome.next.inj hexec
  refine ⟨?_, ?_, ?_, ?_⟩
  · rintro ⟨hfocus, hcore⟩
    rw [Blocks.run_decode _ hfocus]
    exact decodeStage_frame _ hcore
  · rintro ⟨hfocus, hcore⟩
    rw [Blocks.run_execute _ hfocus]
    exact executeStage_frame i hcore
  · rintro ⟨hfocus, hcore⟩
    rw [Blocks.run_mem _ hfocus]
    exact memStage_frame _ _ hcore
  · rintro ⟨hfocus, hcore⟩ hi
    rw [Blocks.run_wb _ hfocus, service_none_of_not_syscall i hi]
    exact wbStage_frame hcore

end Sys2Proof.Machine
end

section
/-! SUPPORT. The state after reset (R136): the value of every field, and the invariants it meets. -/

namespace Sys2Proof.Machine

/-! ## The cores at reset -/

/-- Core `k` at reset stands at place `k`. -/
theorem resetWith_core {cfg : Config} {k : Nat} {core : CoreState} (h : (State.resetWith cfg).cores[k]? = some core) :
    core = CoreState.reset cfg k := by
  obtain ⟨hlt, rfl⟩ := List.getElem?_eq_some_iff.mp h
  simp [State.resetWith]

theorem mem_resetWith_cores {cfg : Config} {core : CoreState} (h : core ∈ (State.resetWith cfg).cores) :
    ∃ k, core = CoreState.reset cfg k := by
  obtain ⟨k, hk⟩ := List.mem_iff_getElem?.mp h
  exact ⟨k, resetWith_core hk⟩

@[simp] theorem length_resetWith_cores (cfg : Config) : (State.resetWith cfg).cores.length = cfg.numCores := by
  simp [State.resetWith]

theorem everyCore_resetWith {P : Nat → CoreState → Prop} {cfg : Config} (h : ∀ k, P k (CoreState.reset cfg k)) :
    EveryCore P (State.resetWith cfg) := fun k _ hcore => resetWith_core hcore ▸ h k

theorem coreBasics_reset (cfg : Config) (k : Nat) : CoreBasics k (CoreState.reset cfg k) :=
  { regZero := by simp [CoreState.reset], stallRange := Nat.zero_le _, noRecovery := rfl, idIsPlace := rfl }

theorem counterBounds_reset (cfg : Config) (k : Nat) : CounterBounds (CoreState.reset cfg k) :=
  { noRecovery := rfl, retiredBound := Nat.le_refl 0, squashedBound := Nat.le_refl 0 }

/-- An empty slot meets any condition on its op. -/
theorem slotAll_none (P : Op → Prop) : SlotAll P none := fun _ h => nomatch h

theorem slotsInOrder_reset (cfg : Config) (k : Nat) : SlotsInOrder (CoreState.reset cfg k) :=
  { decodeFresh := slotAll_none _, executeDecoded := slotAll_none _, memExecuted := slotAll_none _, wbReady := slotAll_none _ }

/-- Every register reads 0 at reset (R104). -/
theorem read_reset (cfg : Config) (k : Nat) (r : Reg) : (CoreState.reset cfg k).regs.read r = 0#32 := by
  simp [CoreState.reset, RegFile.read]

/-! ## The caches at reset -/

theorem ways_of_mem_cacheSetsReset {sets assoc : Nat} {ways : CacheSet} (h : ways ∈ cacheSetsReset sets assoc) :
    ways = List.replicate assoc CacheBlock.reset :=
  List.eq_of_mem_replicate h

/-- Every block of a reset cache is the reset block. -/
theorem block_of_mem_cacheSetsReset {sets assoc : Nat} {ways : CacheSet} {b : CacheBlock}
    (h : ways ∈ cacheSetsReset sets assoc) (hb : b ∈ ways) : b = CacheBlock.reset :=
  List.eq_of_mem_replicate (ways_of_mem_cacheSetsReset h ▸ hb)

theorem cacheInv_reset (sets assoc : Nat) : CacheInv (cacheSetsReset sets assoc) := by
  intro ways hways
  have hnone : validBlocks ways = [] := by
    rw [ways_of_mem_cacheSetsReset hways]
    simp [validBlocks, blockValid, CacheBlock.reset]
  refine { lruPerm := ?_, dirtyValid := fun b hb => ?_, neverShared := fun b hb => ?_, tagsDistinct := ?_ }
  · rw [hnone]
    exact .refl _
  · rw [block_of_mem_cacheSetsReset hways hb]
    exact nofun
  · rw [block_of_mem_cacheSetsReset hways hb]
    exact nofun
  · rw [hnone]
    exact .nil

theorem l1Inv_reset (sets assoc : Nat) : L1Inv (L1.reset sets assoc) :=
  { cache := cacheInv_reset sets assoc, pendingAbsent := nofun }

theorem shaped_reset (sets assoc : Nat) : Shaped sets assoc (cacheSetsReset sets assoc) :=
  ⟨List.length_replicate, fun ways hways => by rw [ways_of_mem_cacheSetsReset hways, List.length_replicate]⟩

/-! ## The L2 and the DRAM at reset -/

/-- No MSHR is valid at reset. -/
theorem mshr_invalid_of_reset {cfg : Config} {m : Mshr} (h : m ∈ (L2.reset cfg).mshrs) : m.valid = false :=
  List.eq_of_mem_replicate h ▸ rfl

theorem validMshrAddrs_reset (cfg : Config) : validMshrAddrs (L2.reset cfg).mshrs = [] := by
  simp [validMshrAddrs, L2.reset, Mshr.reset]

theorem l2Inv_reset (cfg : Config) : L2Inv (L2.reset cfg) :=
  { cache := cacheInv_reset _ _
    mshrsDistinct := validMshrAddrs_reset cfg ▸ .nil
    missAbsent := fun m hm hv => absurd hv (by simp [mshr_invalid_of_reset hm])
    mshrsAligned := fun m hm hv => absurd hv (by simp [mshr_invalid_of_reset hm]) }

theorem cachesInv_resetWith (cfg : Config) : CachesInv (State.resetWith cfg) where
  l1s core hcore := by
    obtain ⟨k, rfl⟩ := mem_resetWith_cores hcore
    exact ⟨l1Inv_reset _ _, l1Inv_reset _ _⟩
  l2 := l2Inv_reset cfg

theorem requestsMatchMshrs_resetWith (cfg : Config) : RequestsMatchMshrs (State.resetWith cfg) where
  inFlight := by
    rw [show (State.resetWith cfg).l2.mshrs = (L2.reset cfg).mshrs from rfl, validMshrAddrs_reset]
    exact .refl []
  distinct := (l2Inv_reset cfg).mshrsDistinct
  aligned := (l2Inv_reset cfg).mshrsAligned
  queueBound := Nat.zero_le _
  neverWriteback := nofun

theorem waitersAreServed_resetWith (cfg : Config) : WaitersAreServed (State.resetWith cfg) where
  places k core hcore := by
    rw [resetWith_core hcore]
    rfl
  distinct := (l2Inv_reset cfg).mshrsDistinct
  aligned := (l2Inv_reset cfg).mshrsAligned
  icaches core hcore := by
    obtain ⟨k, rfl⟩ := mem_resetWith_cores hcore
    exact nofun
  dcaches core hcore := by
    obtain ⟨k, rfl⟩ := mem_resetWith_cores hcore
    exact nofun

theorem shapeInv_resetWith (cfg : Config) : ShapeInv (State.resetWith cfg) := by
  refine shapeInv_iff.mpr ⟨length_resetWith_cores cfg, fun core hcore => ?_, ⟨shaped_reset _ _, List.length_replicate⟩,
    List.length_replicate, List.length_replicate⟩
  obtain ⟨k, rfl⟩ := mem_resetWith_cores hcore
  exact ⟨shaped_reset _ _, shaped_reset _ _⟩

/-- Settles O15: at reset every slot, queue and MSHR is empty and every block invalid, so each invariant holds. -/
theorem resetMeetsEveryInvariant : Obligations.ResetMeetsEveryInvariant := by
  unfold Obligations.ResetMeetsEveryInvariant
  refine ⟨rfl, by decide, fun cfg _ => ?_⟩
  exact ⟨State.resetWith_mem_wf cfg, everyCore_resetWith (coreBasics_reset cfg),
    everyCore_resetWith (counterBounds_reset cfg), everyCore_resetWith (slotsInOrder_reset cfg), cachesInv_resetWith cfg,
    requestsMatchMshrs_resetWith cfg, waitersAreServed_resetWith cfg, shapeInv_resetWith cfg⟩

/-- Every block of a reset cache is invalid, clean, and has LRU counter and tag 0 (R136). -/
theorem cacheSetsReset_clear (sets assoc : Nat) : ∀ ways ∈ cacheSetsReset sets assoc, ∀ b ∈ ways,
    b.state = .invalid ∧ b.dirty = false ∧ b.lru = 0 ∧ b.tag = 0 := by
  intro ways hways b hb
  rw [block_of_mem_cacheSetsReset hways hb]
  exact ⟨rfl, rfl, rfl, rfl⟩

/-- Settles O58: the reset values of a core, of the L2 and of the DRAM, field by field. -/
theorem resetValues : Obligations.ResetValues := by
  unfold Obligations.ResetValues
  intro cfg clearCache s
  refine ⟨length_resetWith_cores cfg, fun k core hcore => ?_, cacheSetsReset_clear _ _, fun m => mshr_invalid_of_reset,
    rfl, rfl, rfl, fun b hb => ?_, fun ch hch => ?_, rfl, rfl, fun a => rfl⟩
  · rw [resetWith_core hcore]
    exact ⟨rfl, by simp [CoreState.reset], read_reset cfg k, rfl, rfl, rfl, rfl, rfl, rfl, rfl, rfl, rfl, rfl, rfl, rfl,
      rfl, rfl, cacheSetsReset_clear _ _, cacheSetsReset_clear _ _⟩
  · rw [List.eq_of_mem_replicate hb]
    exact ⟨rfl, rfl⟩
  · rw [List.eq_of_mem_replicate hch]
    exact ⟨rfl, rfl⟩

end Sys2Proof.Machine
end

section
/-! SUPPORT. The decoder against the encoder and the opcode table (R301–R311, R320): the round trip, the bits an instruction uses,
and the one row of each word. -/

namespace Sys2Proof

/-! ## The fields of a literal word -/

section
variable (n : Nat)

@[simp] theorem fieldOpcode_ofNat : fieldOpcode (BitVec.ofNat 32 n) = (BitVec.ofNat 32 n).extractLsb' 26 6 := rfl
@[simp] theorem fieldRs_ofNat : fieldRs (BitVec.ofNat 32 n) = (BitVec.ofNat 32 n).extractLsb' 21 5 := rfl
@[simp] theorem fieldRt_ofNat : fieldRt (BitVec.ofNat 32 n) = (BitVec.ofNat 32 n).extractLsb' 16 5 := rfl
@[simp] theorem fieldRd_ofNat : fieldRd (BitVec.ofNat 32 n) = (BitVec.ofNat 32 n).extractLsb' 11 5 := rfl
@[simp] theorem fieldShamt_ofNat : fieldShamt (BitVec.ofNat 32 n) = (BitVec.ofNat 32 n).extractLsb' 6 5 := rfl
@[simp] theorem fieldFunct_ofNat : fieldFunct (BitVec.ofNat 32 n) = (BitVec.ofNat 32 n).extractLsb' 0 6 := rfl
@[simp] theorem fieldImm16_ofNat : fieldImm16 (BitVec.ofNat 32 n) = (BitVec.ofNat 32 n).extractLsb' 0 16 := rfl
@[simp] theorem fieldTarget_ofNat : fieldTarget (BitVec.ofNat 32 n) = (BitVec.ofNat 32 n).extractLsb' 0 26 := rfl

end

/-! ## Masked words, format by format (R301–R303, R307) -/

theorem and_eq_rWord_iff {w m : Word} {rs rt rd : Reg} {shamt : BitVec 5} {funct : BitVec 6} :
    w &&& m = rWord rs rt rd shamt funct ↔
      fieldOpcode w &&& fieldOpcode m = 0#6 ∧ fieldRs w &&& fieldRs m = rs ∧ fieldRt w &&& fieldRt m = rt ∧
        fieldRd w &&& fieldRd m = rd ∧ fieldShamt w &&& fieldShamt m = shamt ∧ fieldFunct w &&& fieldFunct m = funct := by
  simp only [← fieldOpcode_and, ← fieldRs_and, ← fieldRt_and, ← fieldRd_and, ← fieldShamt_and, ← fieldFunct_and]
  constructor
  · intro h
    simp [h]
  · rintro ⟨hop, rfl, rfl, rfl, rfl, rfl⟩
    exact eq_of_fields (by simpa using hop) (by simp) (by simp) (by simp) (by simp) (by simp)

theorem and_eq_iWord_iff {w m : Word} {opcode : BitVec 6} {rs rt : Reg} {imm : BitVec 16} :
    w &&& m = iWord opcode rs rt imm ↔
      fieldOpcode w &&& fieldOpcode m = opcode ∧ fieldRs w &&& fieldRs m = rs ∧ fieldRt w &&& fieldRt m = rt ∧
        fieldImm16 w &&& fieldImm16 m = imm := by
  simp only [← fieldOpcode_and, ← fieldRs_and, ← fieldRt_and, ← fieldImm16_and]
  constructor
  · intro h
    simp [h]
  · rintro ⟨rfl, rfl, rfl, rfl⟩
    exact eq_of_fieldsI (by simp) (by simp) (by simp) (by simp)

theorem and_eq_jWord_iff {w m : Word} {opcode : BitVec 6} {target : BitVec 26} :
    w &&& m = jWord opcode target ↔
      fieldOpcode w &&& fieldOpcode m = opcode ∧ fieldTarget w &&& fieldTarget m = target := by
  simp only [← fieldOpcode_and, ← fieldTarget_and]
  constructor
  · intro h
    simp [h]
  · rintro ⟨rfl, rfl⟩
    exact eq_of_fieldsJ (by simp) (by simp)

/-! ## A field under a mask that keeps it whole -/

@[simp] theorem and_ones5 (x : BitVec 5) : x &&& 31#5 = x := BitVec.and_allOnes
@[simp] theorem and_ones6 (x : BitVec 6) : x &&& 63#6 = x := BitVec.and_allOnes
@[simp] theorem and_ones16 (x : BitVec 16) : x &&& 65535#16 = x := BitVec.and_allOnes
@[simp] theorem and_ones26 (x : BitVec 26) : x &&& 67108863#26 = x := BitVec.and_allOnes

theorem fieldShamt_lt (w : Word) : (fieldShamt w).toNat < 32 := (fieldShamt w).isLt

/-- A field whose value a `match` has found is that literal. -/
theorem eq_ofNat_of_toNat_eq {k n : Nat} {x : BitVec k} (h : x.toNat = n) : x = BitVec.ofNat k n := by
  rw [← h, BitVec.ofNat_toNat, BitVec.setWidth_eq]

/-! ## Decoding an encoding -/

theorem decode_encode {i : Instr} (h : i.WellFormed) : decode (encode i) = .ok i := by
  cases i with
  | sll rd rt shamt | srl rd rt shamt | sra rd rt shamt =>
    have hlt : shamt < 32 := by simpa [Instr.WellFormed, Instr.wellFormed] using h
    simp [encode, decode, decodeSpecial, Nat.mod_eq_of_lt hlt]
  | bltz rs offset | bgez rs offset | bltzal rs offset | bgezal rs offset => simp [encode, decode, decodeRegimm]
  | _ => simp [encode, decode, decodeSpecial]

/-- Decoding the four bytes of an encoding is decoding its word (R202, R300). -/
theorem decodeBytes_encodeBytes (i : Instr) (rest : List Byte) :
    decodeBytes (encodeBytes i ++ rest) = (decode (encode i)).map fun j => (j, rest) := by
  simp only [encodeBytes, List.cons_append, List.nil_append, decodeBytes, Machine.wordOfBytes_byteOfWord]
  cases decode (encode i) <;> rfl

/-- Settles O1: each format gives its fields back, and the four bytes of a word are that word. -/
theorem decodeInvertsEncode : Obligations.DecodeInvertsEncode := by
  unfold Obligations.DecodeInvertsEncode
  intro i hi
  refine ⟨decode_encode hi, fun rest => ?_⟩
  rw [decodeBytes_encodeBytes, decode_encode hi]
  rfl

/-! ## From the decoder to the used bits (R307) -/

theorem usedBits_of_decodeSpecial {w : Word} {i : Instr} (hop : fieldOpcode w = 0#6) (h : decodeSpecial w = .ok i) :
    i.WellFormed ∧ w &&& usedBits i = encode i := by
  unfold decodeSpecial at h
  simp only at h
  split at h <;> rename_i hfunct <;> cases h
  all_goals
    replace hfunct := eq_ofNat_of_toNat_eq hfunct
    simp [Instr.WellFormed, Instr.wellFormed, fieldShamt_lt, usedBits, encode, and_eq_rWord_iff, hop, hfunct]

theorem usedBits_of_decodeRegimm {w : Word} {i : Instr} (hop : fieldOpcode w = 1#6) (h : decodeRegimm w = .ok i) :
    i.WellFormed ∧ w &&& usedBits i = encode i := by
  unfold decodeRegimm at h
  split at h <;> rename_i hrt <;> cases h
  all_goals
    replace hrt := eq_ofNat_of_toNat_eq hrt
    simp only [usedBits, encode, and_eq_iWord_iff]
    simp [Instr.WellFormed, Instr.wellFormed, hop, hrt]

theorem usedBits_of_decode {w : Word} {i : Instr} (h : decode w = .ok i) :
    i.WellFormed ∧ w &&& usedBits i = encode i := by
  unfold decode at h
  simp only at h
  split at h <;> rename_i hop
  case h_1 => exact usedBits_of_decodeSpecial (eq_ofNat_of_toNat_eq hop) h
  case h_2 => exact usedBits_of_decodeRegimm (eq_ofNat_of_toNat_eq hop) h
  all_goals cases h
  all_goals
    replace hop := eq_ofNat_of_toNat_eq hop
    simp only [usedBits, encode, and_eq_iWord_iff, and_eq_jWord_iff]
    simp [Instr.WellFormed, Instr.wellFormed, hop]

/-! ## The rows of the opcode table (R307–R311) -/

open Laws.EncodesIntoRow in
theorem encode_and_mask (i : Instr) : encode i &&& (tableRow i).mask = (tableRow i).bits := by
  cases i
  case bltz | bgez | bltzal | bgezal => exact regimm _ _ _ _
  case j | jal => exact jump _ _
  case addi | addiu | slti | sltiu | andi | ori | xori | lui | beq | bne | blez | bgtz | lb | lbu | lh | lhu | lw | sb | sh
      | sw => exact byOpcode _ _ _ _
  all_goals exact special _ _ _ _ _

/-- The bits that select an instruction's row are among the bits it uses. -/
theorem usedBits_and_mask (i : Instr) : usedBits i &&& (tableRow i).mask = (tableRow i).mask := by
  cases i <;> simp only [usedBits, tableRow] <;> decide

theorem row_of_usedBits {w : Word} {i : Instr} (h : w &&& usedBits i = encode i) :
    w &&& (tableRow i).mask = (tableRow i).bits := by
  rw [← usedBits_and_mask, ← BitVec.and_assoc, h, encode_and_mask]

theorem row_of_decode {w : Word} {i : Instr} (h : decode w = .ok i) : w &&& (tableRow i).mask = (tableRow i).bits :=
  row_of_usedBits (usedBits_of_decode h).2

theorem fields_of_maskOpcode {w b : Word} (h : w &&& maskOpcode = b) : fieldOpcode w = fieldOpcode b := by
  simp [← h, fieldOpcode_and, maskOpcode]

theorem fields_of_maskSpecial {w b : Word} (h : w &&& maskSpecial = b) :
    fieldOpcode w = fieldOpcode b ∧ fieldFunct w = fieldFunct b := by
  simp [← h, fieldOpcode_and, fieldFunct_and, maskSpecial]

theorem fields_of_maskRegimm {w b : Word} (h : w &&& maskRegimm = b) :
    fieldOpcode w = fieldOpcode b ∧ fieldRt w = fieldRt b := by
  simp [← h, fieldOpcode_and, fieldRt_and, maskRegimm]

theorem decode_special {w : Word} (h : fieldOpcode w = 0#6) : decode w = decodeSpecial w := by
  rw [decode, h]
  rfl

theorem decode_regimm {w : Word} (h : fieldOpcode w = 1#6) : decode w = decodeRegimm w := by
  rw [decode, h]
  rfl

/-- A word of an instruction's row is an instruction of that row, which uses the same bits: the fields that the row's mask keeps
are those the decoder branches on. -/
theorem decode_of_row {w : Word} {i : Instr} (h : w &&& (tableRow i).mask = (tableRow i).bits) :
    ∃ j, decode w = .ok j ∧ tableRow j = tableRow i ∧ usedBits j = usedBits i := by
  cases i
  case bltz | bgez | bltzal | bgezal =>
    obtain ⟨hop, hrt⟩ := fields_of_maskRegimm h
    simp only [tableRow, fieldOpcode_ofNat, fieldRt_ofNat, BitVec.reduceExtractLsb'] at hop hrt
    exact ⟨_, by rw [decode_regimm hop, decodeRegimm, hrt]; rfl, by rfl, by rfl⟩
  case addi | addiu | slti | sltiu | andi | ori | xori | lui | beq | bne | blez | bgtz | j | jal | lb | lbu | lh | lhu | lw
      | sb | sh | sw =>
    have hop := fields_of_maskOpcode h
    simp only [tableRow, fieldOpcode_ofNat, BitVec.reduceExtractLsb'] at hop
    exact ⟨_, by rw [decode, hop]; rfl, by rfl, by rfl⟩
  all_goals
    obtain ⟨hop, hfunct⟩ := fields_of_maskSpecial h
    simp only [tableRow, fieldOpcode_ofNat, fieldFunct_ofNat, BitVec.reduceExtractLsb'] at hop hfunct
    exact ⟨_, by rw [decode_special hop, decodeSpecial, hfunct]; rfl, by rfl, by rfl⟩

/-- Settles O2: a word that agrees with `i` on its used bits lies in `i`'s row, so it decodes to an instruction with the same used
bits and the same encoding, which by the round trip is `i`. -/
theorem decodeReadsExactlyTheUsedBits : Obligations.DecodeReadsExactlyTheUsedBits := by
  unfold Obligations.DecodeReadsExactlyTheUsedBits
  refine fun w i => ⟨usedBits_of_decode, fun ⟨hi, hw⟩ => ?_⟩
  obtain ⟨j, hdecode, -, hused⟩ := decode_of_row (row_of_usedBits hw)
  obtain ⟨hj, hwj⟩ := usedBits_of_decode hdecode
  have hword : encode j = encode i := by rw [← hwj, hused, hw]
  rw [hdecode, ← decode_encode hi, ← hword, decode_encode hj]

/-! ## The whole table -/

theorem tableRow_mem (i : Instr) : tableRow i ∈ opcodeTable := by
  cases i <;> simp [opcodeTable, tableInstrs, tableRow]

theorem exists_tableRow_of_mem {r : OpcodeRow} (h : r ∈ opcodeTable) : ∃ i, tableRow i = r := by
  obtain ⟨i, -, hi⟩ := List.mem_map.mp h
  exact ⟨i, hi⟩

theorem nodup_opcodeTable : opcodeTable.Nodup := .of_map OpcodeRow.bits (by decide)

/-- A word lies in at most one row: the one it decodes into. -/
theorem tableRow_eq_of_shared {w : Word} {i j : Instr} (hi : w &&& (tableRow i).mask = (tableRow i).bits)
    (hj : w &&& (tableRow j).mask = (tableRow j).bits) : tableRow i = tableRow j := by
  obtain ⟨i', hdecode, hrow, -⟩ := decode_of_row hi
  obtain ⟨j', hdecode', hrow', -⟩ := decode_of_row hj
  cases hdecode.symm.trans hdecode'
  exact hrow.symm.trans hrow'

/-! ## Rejected words (R320) -/

theorem eq_unknown_of_decodeSpecial {w : Word} {e : DecodeReject} (h : decodeSpecial w = .error e) : e = .unknown w := by
  unfold decodeSpecial at h
  simp only at h
  split at h <;> cases h
  rfl

theorem eq_unknown_of_decodeRegimm {w : Word} {e : DecodeReject} (h : decodeRegimm w = .error e) : e = .unknown w := by
  unfold decodeRegimm at h
  split at h <;> cases h
  rfl

theorem eq_unknown_of_decode {w : Word} {e : DecodeReject} (h : decode w = .error e) : e = .unknown w := by
  unfold decode at h
  simp only at h
  split at h
  case h_1 => exact eq_unknown_of_decodeSpecial h
  case h_2 => exact eq_unknown_of_decodeRegimm h
  all_goals cases h
  rfl

/-- A rejected word lies in no row: a word of a row decodes. -/
theorem not_row_of_error {w : Word} {e : DecodeReject} (h : decode w = .error e) :
    ∀ r ∈ opcodeTable, w &&& r.mask ≠ r.bits := by
  intro r hr hw
  obtain ⟨i, rfl⟩ := exists_tableRow_of_mem hr
  obtain ⟨j, hdecode, -, -⟩ := decode_of_row hw
  cases h.symm.trans hdecode

/-- Settles O3: a word's row is the one it decodes into, and the 53 rows are distinct. -/
theorem decodeFollowsTheOpcodeTable : Obligations.DecodeFollowsTheOpcodeTable := by
  unfold Obligations.DecodeFollowsTheOpcodeTable
  refine ⟨fun w => ?_, ?_, rfl, by decide, by decide, by decide⟩
  · cases h : decode w with
    | ok i => exact ⟨row_of_decode h, tableRow_mem i⟩
    | error e => exact ⟨eq_unknown_of_decode h, not_row_of_error h⟩
  · refine nodup_opcodeTable.imp_of_mem fun {r r'} hr hr' hne w ⟨hw, hw'⟩ => hne ?_
    obtain ⟨i, rfl⟩ := exists_tableRow_of_mem hr
    obtain ⟨j, rfl⟩ := exists_tableRow_of_mem hr'
    exact tableRow_eq_of_shared hw hw'

/-- Settles O4: each of the spec's sample words, decoded. -/
theorem sampleWordsDecode : Obligations.SampleWordsDecode := by
  unfold Obligations.SampleWordsDecode
  decide

end Sys2Proof
end

section
/-! SUPPORT. The stage call as the dispatch on its op's word (R407, R414, R416, R420), and the four stage calls of an unknown word
(R320). -/

namespace Sys2Proof.Machine

/-! ## The dispatch of a stage call -/

section
variable {s : State} {c : Nat} {stage : Stage} {core : CoreState} {op : Op}

theorem callStage_of_empty (h : s.cores[c]? = some core) (hop : slotOf stage core = none) :
    callStage c stage s = .next s := by
  simp [callStage, h, hop]

theorem callStage_of_op (h : s.cores[c]? = some core) (hop : slotOf stage core = some op) :
    callStage c stage s = runWord op.instruction (s.focusOn c stage) := by
  simp [callStage, h, hop]

theorem runWord_of_ok {w : Word} {i : Instr} (h : decode w = .ok i) (s : State) : runWord w s = exec i s := by
  rw [runWord, h]

theorem runWord_of_error {w : Word} {e : DecodeReject} (h : decode w = .error e) (s : State) :
    runWord w s = execUnknown s := by
  rw [runWord, h]

/-- The stage call of an unknown word runs the blocks that do nothing (R320). -/
theorem callStage_of_unknown {e : DecodeReject} (h : s.cores[c]? = some core) (hop : slotOf stage core = some op)
    (hdecode : decode op.instruction = .error e) :
    callStage c stage s = .next (blocksUnknown.run (s.focusOn c stage)) := by
  rw [callStage_of_op h hop, runWord_of_error hdecode, execUnknown_eq_run]

end

/-- Settles O6: a stage call runs the decoded word of its op; the fields are extracted as R304 writes them. -/
theorem stageCallRunsTheDecodedInstruction : Obligations.StageCallRunsTheDecodedInstruction := by
  unfold Obligations.StageCallRunsTheDecodedInstruction
  intro s c stage core hcore
  refine ⟨fun op i hop hdecode => ?_, fun op e hop hdecode => ?_, callStage_of_empty hcore, fun op => rfl⟩
  · rw [callStage_of_op hcore hop, runWord_of_ok hdecode]
    rfl
  · rw [callStage_of_op hcore hop, runWord_of_error hdecode]
    rfl

/-! ## An unknown word in each stage -/

/-- Settles O49: the do-nothing blocks, stage by stage, under a known core. -/
theorem unknownWordsDoNothing : Obligations.UnknownWordsDoNothing := by
  unfold Obligations.UnknownWordsDoNothing
  intro s c core op e hcore hdecode
  have hfocused (stage : Stage) : (s.focusOn c stage).cores[c]? = some core := hcore
  refine ⟨fun hop hexecute => ?_, fun hop hmem hsrc1 hsrc2 hbranch => ?_, fun hop hmem => ?_, fun hop hdst => ?_⟩
  · rw [callStage_of_unknown (stage := .decode) hcore hop hdecode, Blocks.run_decode _ rfl,
      decodeStage_moves _ (hfocused _) hop hexecute]
    rfl
  · rw [callStage_of_unknown (stage := .execute) hcore hop hdecode, Blocks.run_execute _ rfl,
      executeStage_runs _ (hfocused _) hop hmem, resolveSources_neither core hsrc1 hsrc2]
    show Host.Outcome.next (State.setCore _ c (leaveExecute core op)) = _
    rw [leaveExecute_of_not_taken (by rw [hbranch]; rfl)]
  · rw [callStage_of_unknown (stage := .mem) hcore hop hdecode, Blocks.run_mem _ rfl,
      memStage_passes _ _ (hfocused _) hop hmem]
    rfl
  · rw [callStage_of_unknown (stage := .wb) hcore hop hdecode, Blocks.run_wb _ rfl, blocksUnknown,
      wbStage_retires (hfocused _) hop, retire, commitDst, hdst]
    rfl

end Sys2Proof.Machine
end

section
/-! SUPPORT. The op an instruction's blocks make, and the slots of a core in order over a step (R407, R409, R413). -/

namespace Sys2Proof.Machine

/-! ## The op after decode -/

/-- The destination, the memory flags and the readiness that decode gives a fresh op are those its instruction names
(R130, R407–R409). -/
theorem decodeBlock_fields (i : Instr) (pc w : Word) :
    let op := (blocksOf i).decodeBlock (extractFields (Op.fresh pc w))
    op.pc = pc ∧ op.instruction = w ∧ op.regDst = destOf i ∧ op.isMem = isMemInstr i ∧
      op.memWrite = isStoreInstr i ∧ op.regDstValueReady = isLinkInstr i := by
  cases i <;> exact ⟨rfl, rfl, rfl, rfl, rfl, rfl⟩

theorem blocksOfWord_of_ok {w : Word} {i : Instr} (h : decode w = .ok i) : blocksOfWord w = blocksOf i := by
  rw [blocksOfWord, h]

theorem blocksOfWord_of_error {w : Word} {e : DecodeReject} (h : decode w = .error e) : blocksOfWord w = blocksUnknown := by
  rw [blocksOfWord, h]

theorem opDecoded_iff {op : Op} :
    OpDecoded op ↔ op.regDst = destOfWord op.instruction ∧ op.isMem = isMemWord op.instruction ∧
      op.memWrite = isStoreWord op.instruction ∧ (isLinkWord op.instruction = true → op.regDstValueReady = true) :=
  ⟨fun h => ⟨h.dst, h.mem, h.store, h.link⟩, fun ⟨hdst, hmem, hstore, hlink⟩ => ⟨hdst, hmem, hstore, hlink⟩⟩

theorem opDecoded_iff_of_ok {op : Op} {i : Instr} (h : decode op.instruction = .ok i) :
    OpDecoded op ↔ op.regDst = destOf i ∧ op.isMem = isMemInstr i ∧ op.memWrite = isStoreInstr i ∧
      (isLinkInstr i = true → op.regDstValueReady = true) := by
  simp only [opDecoded_iff, destOfWord, isMemWord, isStoreWord, isLinkWord, h]

/-- An unknown word's op has no destination and accesses no memory (R320). -/
theorem opDecoded_iff_of_error {op : Op} {e : DecodeReject} (h : decode op.instruction = .error e) :
    OpDecoded op ↔ op.regDst = none ∧ op.isMem = false ∧ op.memWrite = false := by
  simp [opDecoded_iff, destOfWord, isMemWord, isStoreWord, isLinkWord, h]

/-- Decode makes a decoded op of a fresh one (R407). -/
theorem opDecoded_decodeBlock (pc w : Word) :
    OpDecoded ((blocksOfWord w).decodeBlock (extractFields (Op.fresh pc w))) := by
  cases hw : decode w with
  | ok i =>
    rw [blocksOfWord_of_ok hw]
    obtain ⟨-, hword, hdst, hmem, hstore, hready⟩ := decodeBlock_fields i pc w
    exact (opDecoded_iff_of_ok (by rw [hword, hw])).mpr ⟨hdst, hmem, hstore, hready.trans⟩
  | error e =>
    rw [blocksOfWord_of_error hw]
    exact (opDecoded_iff_of_error (by exact hw)).mpr ⟨rfl, rfl, rfl⟩

/-! ## The op after execute -/

/-- A HI/LO move leaves execute exactly at counter 0 (R501). -/
theorem hiLo_executeBlock_eq_some {src1 dst : Option Reg} {block : CoreState → Op → CoreState × Op} {core : CoreState}
    {op : Op} {p : CoreState × Op} :
    (Blocks.hiLo src1 dst block).executeBlock core op = some p ↔ core.multiplierStall = 0 ∧ block core op = p := by
  show hiLoGuard block core op = some p ↔ _
  unfold hiLoGuard
  split_ifs with h
  · simp [Nat.pos_iff_ne_zero.mp h]
  · simp [Nat.eq_zero_of_not_pos h]

/-- Execute keeps the op's word, destination and memory flags and takes no readiness away; it makes the destination's value
ready but for a link's, which decode has made, and a load's (R413). -/
theorem executeBlock_fields {i : Instr} {core core' : CoreState} {op op' : Op}
    (h : (blocksOf i).executeBlock core op = some (core', op')) :
    op'.instruction = op.instruction ∧ op'.regDst = op.regDst ∧ op'.isMem = op.isMem ∧ op'.memWrite = op.memWrite ∧
      (op.regDstValueReady = true → op'.regDstValueReady = true) ∧
      (op'.regDstValueReady = true ∨ destOf i = none ∨ isLinkInstr i = true ∨
        (isMemInstr i = true ∧ isStoreInstr i = false)) := by
  cases i
  case mfhi | mflo =>
    obtain ⟨-, hblock⟩ := hiLo_executeBlock_eq_some.mp h
    cases hblock
    exact ⟨rfl, rfl, rfl, rfl, fun _ => rfl, .inl rfl⟩
  case mthi | mtlo =>
    obtain ⟨-, hblock⟩ := hiLo_executeBlock_eq_some.mp h
    cases hblock
    exact ⟨rfl, rfl, rfl, rfl, id, .inr (.inl rfl)⟩
  case mult | multu | div | divu | beq | bne | blez | bgtz | bltz | bgez | j | jr | sb | sh | sw | syscall =>
    cases h
    exact ⟨rfl, rfl, rfl, rfl, id, .inr (.inl rfl)⟩
  case bltzal | bgezal | jal | jalr =>
    cases h
    exact ⟨rfl, rfl, rfl, rfl, id, .inr (.inr (.inl rfl))⟩
  case lb | lbu | lh | lhu | lw =>
    cases h
    exact ⟨rfl, rfl, rfl, rfl, id, .inr (.inr (.inr ⟨rfl, rfl⟩))⟩
  all_goals
    cases h
    exact ⟨rfl, rfl, rfl, rfl, fun _ => rfl, .inl rfl⟩

/-- What is decoded stays so under a change of other fields than the word, the destination and the memory flags. -/
theorem OpDecoded.congr {op op' : Op} (h : OpDecoded op) (hword : op'.instruction = op.instruction)
    (hdst : op'.regDst = op.regDst) (hmem : op'.isMem = op.isMem) (hstore : op'.memWrite = op.memWrite)
    (hready : op.regDstValueReady = true → op'.regDstValueReady = true) : OpDecoded op' where
  dst := by rw [hdst, hword, h.dst]
  mem := by rw [hmem, hword, h.mem]
  store := by rw [hstore, hword, h.store]
  link := fun hlink => hready (h.link (hword ▸ hlink))

/-- Resolving sources changes value fields only (R412). -/
theorem OpDecoded.resolved {op : Op} (h : OpDecoded op) (core : CoreState) : OpDecoded (resolveSources core op) :=
  h.congr rfl rfl rfl rfl id

/-- The execute block of a decoded op's word makes an executed op of it (R413). -/
theorem OpDecoded.executed {core core' : CoreState} {op op' : Op} (h : OpDecoded op)
    (hblock : (blocksOfWord op.instruction).executeBlock core op = some (core', op')) : OpExecuted op' := by
  cases hw : decode op.instruction with
  | ok i =>
    rw [blocksOfWord_of_ok hw] at hblock
    obtain ⟨hdst, hmem, hstore, hlink⟩ := (opDecoded_iff_of_ok hw).mp h
    obtain ⟨hword, hdst', hmem', hstore', hready, hgives⟩ := executeBlock_fields hblock
    refine ⟨h.congr hword hdst' hmem' hstore' hready, fun hsome => ?_⟩
    rw [hdst', hdst] at hsome
    rw [hmem', hmem, hstore', hstore]
    rcases hgives with hgiven | hnone | hlinks | hload
    · exact .inl hgiven
    · exact absurd hnone hsome
    · exact .inl (hready (hlink hlinks))
    · exact .inr hload
  | error e =>
    rw [blocksOfWord_of_error hw] at hblock
    cases hblock
    obtain ⟨hdst, -, -⟩ := (opDecoded_iff_of_error hw).mp h
    exact ⟨h, fun hsome => absurd hdst hsome⟩

/-! ## The op after mem -/

/-- A load gets its value in mem, and any other executed op has it (R413, R416). -/
theorem OpExecuted.ready {op op' : Op} (h : OpExecuted op)
    (hleaves : ((op.isMem = false ∨ op.memWrite = true) ∧ op' = op) ∨
      (op.isMem = true ∧ op.memWrite = false ∧ ∃ v, op' = { op with regDstValue := v, regDstValueReady := true })) :
    OpReady op' := by
  obtain ⟨hdecoded, hready⟩ := h
  rcases hleaves with ⟨hother, rfl⟩ | ⟨-, -, v, rfl⟩
  · refine ⟨hdecoded, fun hsome => (hready hsome).resolve_right ?_⟩
    rintro ⟨hmem, hload⟩
    simp [hmem, hload] at hother
  · exact ⟨hdecoded.congr rfl rfl rfl rfl fun _ => rfl, fun _ => rfl⟩

/-! ## The slots over a pipeline cycle -/

theorem slotAll_some {P : Op → Prop} {op : Op} (h : P op) : SlotAll P (some op) := fun _ hop => Option.some.inj hop ▸ h

/-- A flush keeps what a slot's op has (R424). -/
theorem SlotAll.flushed {P : Op → Prop} {slot : Option Op} (h : SlotAll P slot) (least depth : Nat) :
    SlotAll P (flushSlot least depth slot) := by
  unfold flushSlot
  split
  · exact slotAll_none P
  · exact h

section
variable {core core' : CoreState}

theorem SlotsInOrder.wb (h : SlotsInOrder core) (he : WbEffect core core') : SlotsInOrder core' := by
  obtain ⟨hdec, hexe, hmem, hwb⟩ := h
  rcases he with ⟨-, rfl⟩ | ⟨op, regs, pc, running, -, -, rfl⟩
  · exact ⟨hdec, hexe, hmem, hwb⟩
  · exact ⟨hdec, hexe, hmem, slotAll_none _⟩

theorem SlotsInOrder.mem (h : SlotsInOrder core) (he : MemEffect core core') : SlotsInOrder core' := by
  obtain ⟨hdec, hexe, hmem, hwb⟩ := h
  rcases he with ⟨-, rfl⟩ | ⟨op, dcache, -, -, rfl⟩ | ⟨op, op', dcache, hop, rfl, hleaves⟩
  · exact ⟨hdec, hexe, hmem, hwb⟩
  · exact ⟨hdec, hexe, hmem, hwb⟩
  · exact ⟨hdec, hexe, slotAll_none _, slotAll_some ((hmem op hop).ready hleaves)⟩

theorem SlotsInOrder.execute (h : SlotsInOrder core) (he : ExecuteEffect core core') : SlotsInOrder core' := by
  obtain ⟨hdec, hexe, hmem, hwb⟩ := h
  rcases he with ⟨-, rfl⟩ | ⟨op, hop, -, ⟨-, rfl⟩ | ⟨next, op', hblock, rfl⟩⟩
  · exact ⟨hdec, hexe, hmem, hwb⟩
  · exact ⟨hdec, slotAll_some ((hexe op hop).resolved core), hmem, hwb⟩
  · have hexecuted : OpExecuted op' := ((hexe op hop).resolved core).executed hblock
    obtain ⟨hi, lo, n, rfl⟩ := executeBlock_core hblock
    obtain ⟨recovery, hleave⟩ := leaveExecute_frame { core with hi := hi, lo := lo, multiplierStall := n } op'
    rw [hleave]
    exact ⟨hdec, slotAll_none _, slotAll_some hexecuted, hwb⟩

theorem SlotsInOrder.decode (h : SlotsInOrder core) (he : DecodeEffect core core') : SlotsInOrder core' := by
  obtain ⟨hdec, hexe, hmem, hwb⟩ := h
  rcases he with ⟨-, rfl⟩ | ⟨op, hop, -, rfl⟩
  · exact ⟨hdec, hexe, hmem, hwb⟩
  · have hdecoded := opDecoded_decodeBlock op.pc op.instruction
    rw [← hdec op hop] at hdecoded
    exact ⟨slotAll_none _, slotAll_some hdecoded, hmem, hwb⟩

theorem SlotsInOrder.fetch (h : SlotsInOrder core) (he : FetchEffect core core') : SlotsInOrder core' := by
  obtain ⟨hdec, hexe, hmem, hwb⟩ := h
  rcases he with rfl | ⟨icache, -, rfl⟩ | ⟨icache, w, -, rfl⟩
  · exact ⟨hdec, hexe, hmem, hwb⟩
  · exact ⟨hdec, hexe, hmem, hwb⟩
  · exact ⟨slotAll_some rfl, hexe, hmem, hwb⟩

theorem SlotsInOrder.applied (h : SlotsInOrder core) : SlotsInOrder (applyRecoveryCore core) := by
  unfold applyRecoveryCore
  split
  · exact ⟨h.decodeFresh.flushed _ _, h.executeDecoded.flushed _ _, h.memExecuted.flushed _ _, h.wbReady.flushed _ _⟩
  · exact h

theorem SlotsInOrder.cycle (h : SlotsInOrder core) (hc : CoreCycle core core') : SlotsInOrder core' := by
  obtain ⟨wb, mem, exe, dec, fet, hwb, hmem, hexe, hdec, hfet, rfl⟩ := hc
  obtain ⟨hdecode, hexecute, hinMem, hinWb⟩ := (h.wb hwb).mem hmem
  have hdecremented : SlotsInOrder (decrementMultiplier mem) := ⟨hdecode, hexecute, hinMem, hinWb⟩
  exact (((hdecremented.execute hexe).decode hdec).fetch hfet).applied

/-- A spawn writes register 3, PC and `running` only (R656). -/
theorem SlotsInOrder.spawned (h : SlotsInOrder core) (hs : SpawnEffect core core') : SlotsInOrder core' := by
  rcases hs with rfl | ⟨pc, -, rfl⟩
  · exact h
  · exact ⟨h.decodeFresh, h.executeDecoded, h.memExecuted, h.wbReady⟩

end

/-- Settles O19: each stage moves an op on with what the next slot asks of it, and nothing else in a step touches a slot. -/
theorem stepKeepsSlotsInOrder : Obligations.StepKeepsSlotsInOrder := by
  unfold Obligations.StepKeepsSlotsInOrder
  intro s t hs hstep
  refine step_everyCore (fun k core icache dcache h => ?_) (fun k core core' h => h.cycle)
    (fun k core core' h => h.spawned) hs hstep
  exact ⟨h.decodeFresh, h.executeDecoded, h.memExecuted, h.wbReady⟩

end Sys2Proof.Machine
end

section
/-! SUPPORT. Resolution, empty and blocked stages, fetch and recovery under a known core (R403–R406, R411–R413,
R416, R420–R427). -/

namespace Sys2Proof.Machine

/-! ## The writers of a register in the slots (R412) -/

theorem writerOf_eq_some {slot : Option Op} {r : Reg} {op : Op} (h : slot = some op) (hdst : op.regDst = some r) :
    writerOf slot r = some op := by
  simp [writerOf, h, hdst]

theorem writerOf_eq_none {slot : Option Op} {r : Reg} (h : ∀ op, slot = some op → op.regDst ≠ some r) :
    writerOf slot r = none := by
  cases slot with
  | none => rfl
  | some op => exact if_neg (h op rfl)

section
variable {core : CoreState} {r : Reg} (hr : r ≠ 0#5)
include hr

/-- Tier 1 of R412: the op in mem. -/
theorem resolveSource_of_mem {op : Op} (h : writerOf core.memOp r = some op) :
    resolveSource core (some r) = if op.regDstValueReady then .value op.regDstValue else .stall := by
  simp [resolveSource, hr, h]

/-- Tier 2 of R412: the op in wb. -/
theorem resolveSource_of_wb {op : Op} (hm : writerOf core.memOp r = none) (h : writerOf core.wbOp r = some op) :
    resolveSource core (some r) = .value op.regDstValue := by
  simp [resolveSource, hr, hm, h]

/-- Tier 3 of R412: the register file. -/
theorem resolveSource_of_regs (hm : writerOf core.memOp r = none) (h : writerOf core.wbOp r = none) :
    resolveSource core (some r) = .value (core.regs.read r) := by
  simp [resolveSource, hr, hm, h]

end

/-- Settles O9: one tier after the other, and the program-order value under an empty mem slot. -/
theorem sourcesHaveProgramOrderValues : Obligations.SourcesHaveProgramOrderValues := by
  unfold Obligations.SourcesHaveProgramOrderValues
  refine fun core => ⟨resolveSource_none core, rfl, fun r hr => ⟨fun op hop hdst => ?_, fun hmem => ?_⟩, fun hmem => ?_⟩
  · exact resolveSource_of_mem hr (writerOf_eq_some hop hdst)
  · refine ⟨fun op hop hdst => ?_, fun hwb => ?_⟩
    · exact resolveSource_of_wb hr (writerOf_eq_none hmem) (writerOf_eq_some hop hdst)
    · exact resolveSource_of_regs hr (writerOf_eq_none hmem) (writerOf_eq_none hwb)
  · exact ⟨sourcesStall_eq_false hmem, resolveSource_eq hmem⟩

/-! ## Empty and blocked stages -/

/-- Mem does nothing without an op (R416). -/
theorem memStage_holds (extract : Word → Word → Word) (merge : Word → Word → Word → Word) {s : State} {c : Nat}
    {core : CoreState} (h : s.cores[c]? = some core) (hm : core.memOp = none) : memStage extract merge c s = s := by
  simp [memStage, h, hm]

/-- Writeback does nothing without an op (R420). -/
theorem wbStage_holds (service : Nat → Op → State → State) {s : State} {c : Nat} {core : CoreState}
    (h : s.cores[c]? = some core) (hw : core.wbOp = none) : wbStage service c s = s := by
  simp [wbStage, h, hw]

/-- Settles O10: an instruction's call runs its block in the stage, which waits for an op and for the slot after it. -/
theorem emptyOrBlockedStagesDoNothing : Obligations.EmptyOrBlockedStagesDoNothing := by
  unfold Obligations.EmptyOrBlockedStagesDoNothing
  refine fun i s c core => ⟨?_, ?_, ?_, ?_⟩
  · rintro ⟨hfocus, hcore⟩ hwaits
    rw [exec_eq_run, Blocks.run_decode _ hfocus, decodeStage_holds _ hcore hwaits]
  · rintro ⟨hfocus, hcore⟩ hwaits
    rw [exec_eq_run, Blocks.run_execute _ hfocus, executeStage_holds _ hcore hwaits]
  · rintro ⟨hfocus, hcore⟩ hempty
    rw [exec_eq_run, Blocks.run_mem _ hfocus, memStage_holds _ _ hcore hempty]
  · rintro ⟨hfocus, hcore⟩ hempty
    rw [exec_eq_run, Blocks.run_wb _ hfocus, wbStage_holds _ hcore hempty]

/-! ## Fetch -/

/-- Fetch waits while the decode slot is full (R403). -/
theorem fetchStage_holds {s : State} {c : Nat} {core : CoreState} (h : s.cores[c]? = some core)
    (hd : core.decodeOp ≠ none) : fetchStage c s = s := by
  simp [fetchStage, h, Option.isSome_iff_ne_none.mpr hd]

/-- Settles O7: fetch waits, fetches or waits for its access. -/
theorem fetchReadsTheWordAtPc : Obligations.FetchReadsTheWordAtPc := by
  unfold Obligations.FetchReadsTheWordAtPc
  refine fun s c core hcore => ⟨fetchStage_holds hcore, fun hdec icache l2 => ⟨fun haccess => ?_, fun haccess => ?_⟩⟩
  · exact fetchStage_fetches hcore hdec haccess
  · exact fetchStage_waits hcore hdec haccess

/-- Fetch with an empty decode slot makes its I-cache access, and takes the word if the access completes (R404, R405). -/
theorem fetchStage_accesses {s : State} {c : Nat} {core : CoreState} {done : Bool} {icache : L1} {l2 : L2}
    (h : s.cores[c]? = some core) (hd : core.decodeOp = none)
    (ha : l1Access s.cfg s.cycles core.id core.pc false false core.icache s.l2 = (done, icache, l2)) :
    fetchStage c s = State.setCore { s with l2 := l2 } c
      (if done then fetchInto (memRead32 s.cfg s.mem core.pc) { core with icache := icache }
        else { core with icache := icache }) := by
  cases done with
  | false => exact fetchStage_waits h hd ha
  | true => exact fetchStage_fetches h hd ha

/-! ## Recovery -/

/-- A recovery stays pending once it is (R423). -/
theorem recover_pending (d : Nat) (a : Word) (core : CoreState) : (recover d a core).branchRecover.pending = true := by
  unfold recover
  split
  · assumption
  · rfl

/-- A pending recovery is applied whole (R424). -/
theorem applyRecoveryCore_of_pending {core : CoreState} {a : Word} {d : Nat}
    (h : core.branchRecover = { pending := true, dest := a, flushDepth := d }) :
    applyRecoveryCore core =
      { core with
        pc := a
        decodeOp := flushSlot 2 d core.decodeOp
        executeOp := flushSlot 3 d core.executeOp
        memOp := flushSlot 4 d core.memOp
        wbOp := flushSlot 5 d core.wbOp
        squashed := core.squashed + 1
        branchRecover := BranchRecover.clear } := by
  simp [applyRecoveryCore, h]

/-- Settles O13: the first recovery stands, and it is applied whole. -/
theorem recoveryKeepsTheFirstAndAppliesOnce : Obligations.RecoveryKeepsTheFirstAndAppliesOnce := by
  unfold Obligations.RecoveryKeepsTheFirstAndAppliesOnce
  refine fun core d d' a a' => ⟨recover_of_pending, recover_of_not_pending, ?_, applyRecoveryCore_of_clear,
    applyRecoveryCore_of_pending⟩
  exact recover_of_pending (recover_pending d a core)

/-- A decode call leaves its slot empty when the execute slot is, and changes only the slots on both its sides and the focus
(R406, R407). -/
theorem callStage_decode_empties {s : State} {c : Nat} {core : CoreState} (h : s.cores[c]? = some core)
    (he : core.executeOp = none) :
    ∃ (focus : Focus) (exe : Option Op), callStage c .decode s =
      .next (State.setCore { s with focus := focus } c { core with decodeOp := none, executeOp := exe }) := by
  cases hd : core.decodeOp with
  | none =>
    refine ⟨s.focus, core.executeOp, ?_⟩
    rw [callStage_of_empty (stage := .decode) h hd, ← hd]
    exact congrArg Host.Outcome.next (setCore_self h).symm
  | some op =>
    refine ⟨{ core := c, stage := .decode }, some ((blocksOfWord op.instruction).decodeBlock (extractFields op)), ?_⟩
    rw [callStage_of_op (stage := .decode) h hd, runWord_eq_run, Blocks.run_decode _ rfl,
      decodeStage_moves _ (by exact h) hd he]
    rfl

/-- Settles O14: decode empties its slot, so fetch makes its access; the recovery then flushes both younger slots and nothing
older. -/
theorem takenBranchSquashesOnlyTheYounger : Obligations.TakenBranchSquashesOnlyTheYounger := by
  unfold Obligations.TakenBranchSquashesOnlyTheYounger
  intro s t c core dest hcore hpending hexe hrest
  obtain ⟨focus, exe, hdecode⟩ := callStage_decode_empties hcore hexe
  rw [hdecode, andThen_next] at hrest
  obtain rfl := Host.Outcome.next.inj hrest
  have hdecoded := State.setCore_same { core with decodeOp := none, executeOp := exe }
    (s := { s with focus := focus }) hcore
  rcases haccess : l1Access s.cfg s.cycles core.id core.pc false false core.icache s.l2 with ⟨done, icache, l2⟩
  rw [fetchStage_accesses hdecoded rfl haccess]
  refine ⟨rfl, rfl, rfl, _, State.modifyCore_same _ (State.setCore_same _ hdecoded), ?_⟩
  cases done <;> simp [applyRecoveryCore, hpending, flushSlot]

end Sys2Proof.Machine
end

section
/-! SUPPORT. A placed word (log 5), and the moves from and to HI and LO: their stage calls and how long the counter holds them
(R410, R412, R414, R501, R503, R509–R512). -/

namespace Sys2Proof.Machine

/-- An execute call with an op: the counter falls, then the op's instruction runs (R410, R411). -/
theorem callExecute_of_op {s : State} {c : Nat} {core : CoreState} {op : Op} (h : s.cores[c]? = some core)
    (hop : core.executeOp = some op) :
    callExecute c s = runWord op.instruction ((s.modifyCore c decrementMultiplier).focusOn c .execute) :=
  callStage_of_op (stage := .execute) (State.modifyCore_same _ h) hop

section
variable {i : Instr} {s : State} {c : Nat} {core : CoreState} {op : Op} (h : InStage s c .execute core)
  (hop : core.executeOp = some op) (hmem : core.memOp = none)
include h hop hmem

/-- In an execute call whose block answers, the op moves on (R412, R415). -/
theorem exec_leaves {core' : CoreState} {op' : Op}
    (hblock : (blocksOf i).executeBlock core (resolveSources core op) = some (core', op')) :
    exec i s = .next (s.setCore c (leaveExecute core' op')) := by
  rw [exec_eq_run, Blocks.run_execute _ h.1, executeStage_runs _ h.2 hop hmem, hblock]

/-- In an execute call whose block stalls, the op stays with its sources resolved (R412, R414). -/
theorem exec_stalls (hblock : (blocksOf i).executeBlock core (resolveSources core op) = none) :
    exec i s = .next (s.setCore c { core with executeOp := some (resolveSources core op) }) := by
  rw [exec_eq_run, Blocks.run_execute _ h.1, executeStage_runs _ h.2 hop hmem, hblock]

end

/-! ## A placed word -/

/-- A decode call of an instruction moves its op into an empty execute slot (R407). -/
theorem decodesTo (i : Instr) : DecodesTo i (blocksOf i).decodeBlock := by
  rintro s c core op ⟨hfocus, hcore⟩ hop hexe
  rw [exec_eq_run, Blocks.run_decode _ hfocus, decodeStage_moves _ hcore hop hexe]

/-- A placed word stands in memory and, fetched and decoded, in the execute slot of the next core. -/
theorem placeWord_eq {s : State} {w : Word} {i : Instr} {core : CoreState} (hcore : s.cores[nextCore s]? = some core)
    (hdecode : decode w = .ok i) :
    placeWord w s = State.setCore { s with mem := memWrite32 s.cfg s.mem core.pc w } (nextCore s)
      { core with
        running := true
        pc := core.pc + 4#32
        fetched := core.fetched + 1
        decodeOp := none
        executeOp := some ((blocksOf i).decodeBlock (extractFields (Op.fresh core.pc w)))
        memOp := none
        wbOp := none } := by
  have hfresh := State.setCore_same (s := { s with mem := memWrite32 s.cfg s.mem core.pc w }) (freshlyFetched w core) hcore
  unfold placeWord
  simp only [hcore]
  rw [State.modifyCore_eq_setCore (freshlyFetched w) (by exact hcore), callStage_of_op (stage := .decode) hfresh rfl,
    runWord_of_ok (by exact hdecode), decodesTo i (State.focusOn _ _ _) _ _ _ ⟨rfl, hfresh⟩ rfl rfl]
  exact State.setCore_setCore { s with mem := memWrite32 s.cfg s.mem core.pc w } _ _ _

/-- Settles O8: the decode call that places the word is the one of the freshly fetched op. -/
theorem placedWordIsExecutedNext : Obligations.PlacedWordIsExecutedNext := by
  unfold Obligations.PlacedWordIsExecutedNext
  intro s w i core hcore hdecode c t
  have ht : t = placeWord w s := by simp [t, State.withFetchWord, Nat.mod_eq_of_lt w.isLt]
  rw [placeWord_eq hcore hdecode] at ht
  clear_value t
  subst ht
  obtain ⟨hpc, hword, -⟩ := decodeBlock_fields i core.pc w
  have hruns : decode ((blocksOf i).decodeBlock (extractFields (Op.fresh core.pc w))).instruction = .ok i := by
    rw [hword, hdecode]
  refine ⟨_, rfl, hword, hpc, fun u k fresh => decodesTo i u k fresh _, ?_, fun hwf hmapped => ?_⟩
  · exact (callExecute_of_op (State.setCore_same _ (by exact hcore)) rfl).trans (runWord_of_ok hruns _)
  · exact memRead32_memWrite32_same w hwf hmapped rfl

/-! ## The moves from and to HI and LO -/

/-- The guard holds a HI/LO move while the counter is positive (R501). -/
theorem hiLo_executeBlock_of_pos {src1 dst : Option Reg} {block : CoreState → Op → CoreState × Op} {core : CoreState}
    (op : Op) (h : 0 < core.multiplierStall) : (Blocks.hiLo src1 dst block).executeBlock core op = none := if_pos h

/-- The guard lets a HI/LO move go at counter 0 (R501). -/
theorem hiLo_executeBlock_of_zero {src1 dst : Option Reg} {block : CoreState → Op → CoreState × Op} {core : CoreState}
    (op : Op) (h : core.multiplierStall = 0) : (Blocks.hiLo src1 dst block).executeBlock core op = some (block core op) :=
  hiLo_executeBlock_eq_some.mpr ⟨h, rfl⟩

/-- The stage calls of a move from HI or LO, whose value is `value` (R509, R510). -/
theorem moveFrom_stages (i : Instr) {rd : Reg} (value : CoreState → Word) (hi : i ≠ .syscall)
    (hblocks : blocksOf i =
      .hiLo none (some rd) fun core op => (core, { op with regDstValue := value core, regDstValueReady := true })) :
    DecodesTo i (fun op => { op with regSrc1 := none, regSrc2 := none, regDst := some rd }) ∧
    ExecutesTo i
      (fun core op => op.regSrc1 = none ∧ op.regSrc2 = none ∧ op.isBranch = false ∧ core.multiplierStall = 0)
      (fun core op =>
        { core with executeOp := none, memOp := some { op with regDstValue := value core, regDstValueReady := true } }) ∧
    ExecutesTo i (fun core op => op.regSrc1 = none ∧ op.regSrc2 = none ∧ 0 < core.multiplierStall) (fun core _ => core) ∧
    PassesMem i ∧ Retires i := by
  refine ⟨?_, ?_, ?_, passesMem i, retires_of_not_syscall hi⟩
  · have hdecodes := decodesTo i
    rw [hblocks] at hdecodes
    exact hdecodes
  · rintro s c core op hstage hop hmem ⟨hsrc1, hsrc2, hbranch, hzero⟩
    rw [exec_leaves hstage hop hmem (by rw [hblocks, hiLo_executeBlock_of_zero _ hzero]),
      resolveSources_neither core hsrc1 hsrc2, leaveExecute_of_not_taken (by simp [hbranch])]
  · rintro s c core op hstage hop hmem ⟨hsrc1, hsrc2, hpos⟩
    rw [exec_stalls hstage hop hmem (by rw [hblocks, hiLo_executeBlock_of_pos _ hpos]),
      resolveSources_neither core hsrc1 hsrc2, ← hop]

/-- The stage calls of a move to HI or LO, which `put` writes (R511, R512). -/
theorem moveTo_stages (i : Instr) {rs : Reg} (put : Word → CoreState → CoreState) (hi : i ≠ .syscall)
    (hblocks : blocksOf i = .hiLo (some rs) none fun core op => (put op.regSrc1Value core, op)) :
    DecodesTo i (fun op => { op with regSrc1 := some rs, regSrc2 := none, regDst := none }) ∧
    ExecutesTo i
      (fun core op => op.regSrc1 = some rs ∧ op.regSrc2 = none ∧ op.isBranch = false ∧ core.multiplierStall = 0)
      (fun core op =>
        { put (sourceValue core rs) core with
          executeOp := none
          memOp := some { op with regSrc1Value := sourceValue core rs } }) ∧
    ExecutesTo i (fun core op => op.regSrc1 = some rs ∧ op.regSrc2 = none ∧ 0 < core.multiplierStall)
      (fun core op => { core with executeOp := some { op with regSrc1Value := sourceValue core rs } }) ∧
    PassesMem i ∧ Retires i := by
  refine ⟨?_, ?_, ?_, passesMem i, retires_of_not_syscall hi⟩
  · have hdecodes := decodesTo i
    rw [hblocks] at hdecodes
    exact hdecodes
  · rintro s c core op hstage hop hmem ⟨hsrc1, hsrc2, hbranch, hzero⟩
    rw [exec_leaves hstage hop hmem (by rw [hblocks, hiLo_executeBlock_of_zero _ hzero]),
      resolveSources_first hmem hsrc1 hsrc2, leaveExecute_of_not_taken (by simp [hbranch])]
  · rintro s c core op hstage hop hmem ⟨hsrc1, hsrc2, hpos⟩
    rw [exec_stalls hstage hop hmem (by rw [hblocks, hiLo_executeBlock_of_pos _ hpos]),
      resolveSources_first hmem hsrc1 hsrc2]

/-- Settles O41: the four moves are two shapes of blocks behind one guard. -/
theorem hiLoMoveInstructions : Obligations.HiLoMoveInstructions := by
  unfold Obligations.HiLoMoveInstructions
  refine ⟨fun rd => ?_, fun rs => ?_⟩
  · simp only [List.forall_mem_cons, List.not_mem_nil, false_implies, implies_true, and_true]
    constructor
    · refine ⟨fun rs rt shamt => by simp [decode, decodeSpecial], ?_⟩
      exact moveFrom_stages (.mfhi rd) (fun core => core.hi) nofun rfl
    · refine ⟨fun rs rt shamt => by simp [decode, decodeSpecial], ?_⟩
      exact moveFrom_stages (.mflo rd) (fun core => core.lo) nofun rfl
  · simp only [List.forall_mem_cons, List.not_mem_nil, false_implies, implies_true, and_true]
    constructor
    · refine ⟨fun rt rd shamt => by simp [decode, decodeSpecial], ?_⟩
      exact moveTo_stages (.mthi rs) (fun a core => { core with hi := a }) nofun rfl
    · refine ⟨fun rt rd shamt => by simp [decode, decodeSpecial], ?_⟩
      exact moveTo_stages (.mtlo rs) (fun a core => { core with lo := a }) nofun rfl

end Sys2Proof.Machine
end

section
/-! SUPPORT. How long the counter holds a HI/LO move in execute (R410, R501, R503). -/

namespace Sys2Proof.Machine

/-- An Execute block that leaves the counter and the op's word alone. -/
def KeepsCounterAndWord (block : CoreState → Op → CoreState × Op) : Prop :=
  ∀ (core : CoreState) (op : Op),
    (block core op).1.multiplierStall = core.multiplierStall ∧ (block core op).2.instruction = op.instruction

/-- The blocks of each of the four moves stand behind the guard, and leave the counter and the op's word alone (R501). -/
theorem hiLoMove_blocks {i : Instr} (h : ∃ r, i = .mfhi r ∨ i = .mflo r ∨ i = .mthi r ∨ i = .mtlo r) :
    ∃ (src1 dst : Option Reg) (block : CoreState → Op → CoreState × Op), blocksOf i = .hiLo src1 dst block ∧
      KeepsCounterAndWord block := by
  obtain ⟨r, rfl | rfl | rfl | rfl⟩ := h <;> exact ⟨_, _, _, rfl, fun _ _ => ⟨rfl, rfl⟩⟩

/-- Core `c` has an op of the word `w` in execute and none in mem, the counter is `n`, and HI and LO are `hi` and `lo`. -/
def WaitsAt (c : Nat) (w : Word) (n : Nat) (hi lo : Word) (s : State) : Prop :=
  ∃ (core : CoreState) (op : Op), s.cores[c]? = some core ∧ core.executeOp = some op ∧ op.instruction = w ∧
    core.memOp = none ∧ core.multiplierStall = n ∧ core.hi = hi ∧ core.lo = lo

section
variable {i : Instr} {src1 dst : Option Reg} {block : CoreState → Op → CoreState × Op} {c n : Nat} {w hi lo : Word}
  {s : State} (hdecode : decode w = .ok i) (hblocks : blocksOf i = .hiLo src1 dst block)
include hdecode hblocks

/-- A move that finds the counter above 1 is held by the call, which takes one from the counter (R410, R501). -/
theorem callExecute_holds (hn : 1 < n) (h : WaitsAt c w n hi lo s) :
    ∃ t, callExecute c s = .next t ∧ WaitsAt c w (n - 1) hi lo t := by
  obtain ⟨core, op, hcore, hop, hword, hmem, rfl, hhi, hlo⟩ := h
  have hcore' : ((s.modifyCore c decrementMultiplier).focusOn c .execute).cores[c]? = some (decrementMultiplier core) :=
    State.modifyCore_same _ hcore
  have hpos : 0 < (decrementMultiplier core).multiplierStall := Nat.sub_pos_of_lt hn
  rw [callExecute_of_op hcore hop, runWord_of_ok (hword ▸ hdecode),
    exec_stalls ⟨rfl, hcore'⟩ hop hmem (by rw [hblocks, hiLo_executeBlock_of_pos _ hpos])]
  exact ⟨_, rfl, _, _, State.setCore_same _ hcore', rfl, hword, hmem, rfl, hhi, hlo⟩

/-- A move that finds the counter at 1 or 0 leaves in the call (R410, R501). -/
theorem callExecute_leaves (hblock : KeepsCounterAndWord block) (hn : n ≤ 1) (h : WaitsAt c w n hi lo s) :
    ∃ (t : State) (left : CoreState) (op : Op), callExecute c s = .next t ∧ t.cores[c]? = some left ∧
      left.executeOp = none ∧ left.memOp = some op ∧ op.instruction = w ∧ left.multiplierStall = 0 := by
  obtain ⟨core, op, hcore, hop, hword, hmem, rfl, -, -⟩ := h
  have hcore' : ((s.modifyCore c decrementMultiplier).focusOn c .execute).cores[c]? = some (decrementMultiplier core) :=
    State.modifyCore_same _ hcore
  have hzero : (decrementMultiplier core).multiplierStall = 0 := Nat.sub_eq_zero_of_le hn
  obtain ⟨hstall, hword'⟩ := hblock (decrementMultiplier core) (resolveSources (decrementMultiplier core) op)
  rcases hanswer : block (decrementMultiplier core) (resolveSources (decrementMultiplier core) op) with ⟨left, op'⟩
  rw [hanswer] at hstall hword'
  obtain ⟨recovery, hleft⟩ := leaveExecute_frame left op'
  rw [callExecute_of_op hcore hop, runWord_of_ok (hword ▸ hdecode),
    exec_leaves ⟨rfl, hcore'⟩ hop hmem (by rw [hblocks, hiLo_executeBlock_of_zero _ hzero, hanswer]), hleft]
  exact ⟨_, _, _, rfl, State.setCore_same _ hcore', rfl, rfl, hword'.trans hword, hstall.trans hzero⟩

/-- The calls that find the counter above 1 hold the move, one after the other (R503). -/
theorem executeCalls_hold {j : Nat} (hj : j ≤ n - 1) (h : WaitsAt c w n hi lo s) :
    ∃ t, executeCalls c j s = .next t ∧ WaitsAt c w (n - j) hi lo t := by
  induction j generalizing n s with
  | zero => exact ⟨s, rfl, h⟩
  | succ j ih =>
    obtain ⟨u, hcall, hu⟩ := callExecute_holds hdecode hblocks (by omega) h
    obtain ⟨t, hcalls, ht⟩ := ih (by omega) hu
    refine ⟨t, ?_, by rwa [Nat.sub_sub, Nat.add_comm] at ht⟩
    rw [executeCalls, hcall, andThen_next, hcalls]

end

/-- The last of the calls comes after the others. -/
theorem executeCalls_succ {c j : Nat} {s t : State} (h : executeCalls c j s = .next t) :
    executeCalls c (j + 1) s = callExecute c t := by
  induction j generalizing s with
  | zero =>
    obtain rfl := Host.Outcome.next.inj h
    rw [executeCalls, callExecute, callStage_next]
    rfl
  | succ j ih =>
    obtain ⟨u, hcall, hcalls⟩ := andThen_eq_next.mp h
    rw [executeCalls, hcall, andThen_next, ih hcalls]

/-- Settles O56: the calls hold the move while they find the counter above 1, and the next call lets it go. -/
theorem hiLoMoveIsHeldForTheRemainingLatency : Obligations.HiLoMoveIsHeldForTheRemainingLatency := by
  unfold Obligations.HiLoMoveIsHeldForTheRemainingLatency
  intro s c core op i L k hcore hop hmem hdecode hmove hk hstall
  obtain ⟨src1, dst, block, hblocks, hblock⟩ := hiLoMove_blocks hmove
  have hwaits : WaitsAt c op.instruction (L - (k - 1)) core.hi core.lo s :=
    ⟨core, op, hcore, hop, rfl, hmem, hstall, rfl, rfl⟩
  constructor
  · intro j hj
    obtain ⟨t, hcalls, held, op', hheld⟩ := executeCalls_hold hdecode hblocks (j := j) (by omega) hwaits
    exact ⟨t, held, op', hcalls, hheld⟩
  · obtain ⟨t, hcalls, ht⟩ := executeCalls_hold hdecode hblocks (j := L - k) (by omega) hwaits
    rw [executeCalls_succ hcalls]
    exact callExecute_leaves hdecode hblocks hblock (by omega) ht

end Sys2Proof.Machine
end

section
/-! SUPPORT. One instruction alone in the pipeline, from its blocks (R450), and what each branch, jump, load and store leaves so
(R415, R416, R420, R550–R562, R602, R603). -/

namespace Sys2Proof.Machine

/-! ## The focus -/

@[simp] theorem State.focusOn_setCore (s : State) (c k : Nat) (core : CoreState) (stage : Stage) :
    (s.setCore c core).focusOn k stage = (s.focusOn k stage).setCore c core := rfl

@[simp] theorem State.focusOn_focusOn (s : State) (c k : Nat) (stage stage' : Stage) :
    (s.focusOn c stage).focusOn k stage' = s.focusOn k stage' := rfl

/-! ## Alone through decode and execute -/

/-- The op that decode makes of a freshly fetched word. -/
def decodedOp (i : Instr) (pc w : Word) : Op := (blocksOf i).decodeBlock (extractFields (Op.fresh pc w))

/-- What a source reads when nothing is in flight; a source that is −1 keeps its creation value (R130, R412). -/
def readSource (rf : RegFile) (src : Option Reg) : Word := src.elim 0#32 rf.read

/-- That op with its sources resolved, nothing else in flight (R412). -/
def resolvedOp (i : Instr) (rf : RegFile) (pc w : Word) : Op :=
  { decodedOp i pc w with
    regSrc1Value := readSource rf (decodedOp i pc w).regSrc1
    regSrc2Value := readSource rf (decodedOp i pc w).regSrc2 }

/-- A core that holds nothing younger than the op in execute. -/
def withExecuting (op : Op) (core : CoreState) : CoreState := { core with decodeOp := none, executeOp := some op }

/-- Decode writes no source's value (R407). -/
theorem decodedOp_values (i : Instr) (pc w : Word) :
    (decodedOp i pc w).regSrc1Value = 0#32 ∧ (decodedOp i pc w).regSrc2Value = 0#32 := by
  cases i <;> exact ⟨rfl, rfl⟩

/-- With nothing older in flight a source reads the register file (R412). -/
theorem resolvedValue_of_alone {core : CoreState} (hmem : core.memOp = none) (hwb : core.wbOp = none) (src : Option Reg) :
    resolvedValue 0#32 (resolveSource core src) = readSource core.regs src := by
  cases src with
  | none => rfl
  | some r =>
    rw [resolveSource_eq hmem, sourceValue, committedRegs, hwb]
    rfl

theorem resolveSources_of_alone {core : CoreState} (hmem : core.memOp = none) (hwb : core.wbOp = none) (i : Instr)
    (pc w : Word) : resolveSources core (decodedOp i pc w) = resolvedOp i core.regs pc w := by
  obtain ⟨hvalue1, hvalue2⟩ := decodedOp_values i pc w
  rw [resolveSources, hvalue1, hvalue2, resolvedValue_of_alone hmem hwb, resolvedValue_of_alone hmem hwb, resolvedOp]

/-- An instruction without a service retires its op in a wb call (R420). -/
theorem exec_retires {i : Instr} {s : State} {c : Nat} {core : CoreState} {op : Op}
    (hservice : (blocksOf i).service = noService) (hcore : s.cores[c]? = some core) (hop : core.wbOp = some op) :
    exec i (s.focusOn c .wb) = .next ((s.focusOn c .wb).setCore c (retire (commitDst op core))) := by
  rw [exec_eq_run, Blocks.run_wb _ rfl, hservice, wbStage_retires (by exact hcore) hop]

section
variable {i : Instr} {s : State} {c : Nat} {core core' : CoreState} {pc w : Word} {op : Op} (hcore : s.cores[c]? = some core)
  (halone : FreshlyFetchedAlone core pc w)
  (hblock : (blocksOf i).executeBlock (withExecuting (decodedOp i pc w) core) (resolvedOp i core.regs pc w) =
    some (core', op))
include hcore halone hblock

/-- A lone instruction passes decode and execute; mem and writeback are still to come (R450). -/
theorem lonePassage_executes :
    lonePassage i c s =
      andThen (exec i ((s.focusOn c .mem).setCore c (leaveExecute core' op))) fun s => exec i (s.focusOn c .wb) := by
  obtain ⟨hdec, hexe, hmem, hwb, -, -⟩ := halone
  have hdecode := decodesTo i (s.focusOn c .decode) c core _ ⟨rfl, hcore⟩ hdec hexe
  have hblock' : (blocksOf i).executeBlock (withExecuting (decodedOp i pc w) core)
      (resolveSources (withExecuting (decodedOp i pc w) core) (decodedOp i pc w)) = some (core', op) := by
    rw [resolveSources_of_alone (by exact hmem) (by exact hwb)]
    exact hblock
  have hexecute := exec_leaves (s := (s.focusOn c .execute).setCore c (withExecuting (decodedOp i pc w) core))
    ⟨rfl, State.setCore_same _ hcore⟩ rfl hmem hblock'
  unfold lonePassage
  rw [hdecode, andThen_next, State.focusOn_setCore, State.focusOn_focusOn]
  refine (congrArg (andThen · _) hexecute).trans ?_
  rw [andThen_next, State.setCore_setCore, State.focusOn_setCore, State.focusOn_focusOn]

/-- What mem leaves of a lone instruction's op, writeback commits and counts (R416, R420). -/
theorem lonePassage_retires (hservice : (blocksOf i).service = noService) {op' : Op} {dcache : L1} {l2 : L2} {mem : Memory}
    (hmem : memStage (blocksOf i).extract (blocksOf i).merge c ((s.focusOn c .mem).setCore c (leaveExecute core' op)) =
      State.setCore { s.focusOn c .mem with l2 := l2, mem := mem } c
        (leaveMem op' { leaveExecute core' op with dcache := dcache })) :
    lonePassage i c s = .next (State.setCore { s.focusOn c .wb with l2 := l2, mem := mem } c
      (retire (commitDst op' (leaveMem op' { leaveExecute core' op with dcache := dcache })))) := by
  have hleft := State.setCore_same (s := { s.focusOn c .mem with l2 := l2, mem := mem })
    (leaveMem op' { leaveExecute core' op with dcache := dcache }) hcore
  rw [lonePassage_executes hcore halone hblock, exec_eq_run, Blocks.run_mem _ rfl, hmem, andThen_next,
    exec_retires hservice hleft rfl, State.focusOn_setCore, State.setCore_setCore]
  rfl

/-- A lone instruction that accesses no memory (R416). -/
theorem lonePassage_passes (hservice : (blocksOf i).service = noService) (hmem : op.isMem = false) :
    lonePassage i c s =
      .next ((s.focusOn c .wb).setCore c (retire (commitDst op (leaveMem op (leaveExecute core' op))))) := by
  have hexecuted := State.setCore_same (s := s.focusOn c .mem) (leaveExecute core' op) hcore
  refine lonePassage_retires hcore halone hblock hservice ((memStage_passes _ _ hexecuted (by rfl) hmem).trans ?_)
  exact State.setCore_setCore (s.focusOn c .mem) c _ _

end

/-! ## Branches, loads and stores alone -/

/-- A lone op past mem, retired: its core has nothing in flight again (R420). -/
theorem retire_of_alone {core : CoreState} {pc w : Word} (halone : FreshlyFetchedAlone core pc w) (op op' : Op)
    (recovery : BranchRecover) (dcache : L1) :
    retire (commitDst op' (leaveMem op'
      { core with
        decodeOp := none, executeOp := none, memOp := some op, branchRecover := recovery, dcache := dcache })) =
      { core with
        decodeOp := none
        branchRecover := recovery
        dcache := dcache
        regs := core.regs.commit op'.regDst op'.regDstValue
        retired := core.retired + 1 } := by
  obtain ⟨-, hexe, hmem, hwb, -, -⟩ := halone
  simp [retire, commitDst, leaveMem, hexe, hmem, hwb]

section
variable {i : Instr} {s : State} {c : Nat} {core : CoreState} {pc w : Word} {op : Op} (hcore : s.cores[c]? = some core)
  (halone : FreshlyFetchedAlone core pc w) (hservice : (blocksOf i).service = noService)
  (hblock : (blocksOf i).executeBlock (withExecuting (decodedOp i pc w) core) (resolvedOp i core.regs pc w) =
    some (withExecuting (decodedOp i pc w) core, op))
include hcore halone hservice hblock

/-- A lone branch or jump leaves its recovery pending if it is taken, and its link written (R415, R420, R557). -/
theorem lonePassage_branches (hmem : op.isMem = false) (hbranch : op.isBranch = true) :
    lonePassage i c s = .next ((s.focusOn c .wb).setCore c
      { core with
        decodeOp := none
        branchRecover :=
          if op.branchTaken then { pending := true, dest := op.branchDest, flushDepth := 3 } else core.branchRecover
        regs := core.regs.commit op.regDst op.regDstValue
        retired := core.retired + 1 }) := by
  have hnone : (withExecuting (decodedOp i pc w) core).branchRecover.pending = false := by
    obtain ⟨-, -, -, -, hclear, -⟩ := halone
    exact congrArg BranchRecover.pending hclear
  rw [lonePassage_passes hcore halone hblock hservice hmem, leaveExecute_branch hbranch hnone]
  exact congrArg Host.Outcome.next (congrArg (State.setCore _ c) (retire_of_alone halone op op _ core.dcache))

section
variable {dcache : L1} {l2 : L2} (hmem : op.isMem = true) (hbranch : op.isBranch = false)
include hmem hbranch

/-- A lone load on a D-cache hit commits the value that its word of memory gives (R416, R600). -/
theorem lonePassage_loads (hload : op.memWrite = false)
    (haccess : l1Access s.cfg s.cycles core.id op.memAddr false true core.dcache s.l2 = (true, dcache, l2)) :
    lonePassage i c s = .next (State.setCore { s.focusOn c .wb with l2 := l2 } c
      { core with
        decodeOp := none
        dcache := dcache
        regs := core.regs.commit op.regDst ((blocksOf i).extract op.memAddr (memRead32 s.cfg s.mem op.memAddr))
        retired := core.retired + 1 }) := by
  have hleave := leaveExecute_of_not_taken (core := withExecuting (decodedOp i pc w) core) (op := op) (by simp [hbranch])
  have hmemStage := memStage_loads (blocksOf i).extract (blocksOf i).merge
    (State.setCore_same (s := s.focusOn c .mem) (leaveExecute (withExecuting (decodedOp i pc w) core) op) hcore)
    (by rw [hleave]) hmem hload (by rw [hleave]; exact haccess)
  rw [lonePassage_retires hcore halone hblock hservice
    (hmemStage.trans (State.setCore_setCore { s.focusOn c .mem with l2 := l2 } c _ _)), hleave]
  exact congrArg Host.Outcome.next (congrArg (State.setCore _ c) (retire_of_alone halone op _ core.branchRecover dcache))

/-- A lone store on a D-cache hit writes its word of memory (R416, R601). -/
theorem lonePassage_stores (hstore : op.memWrite = true) (hdst : op.regDst = none)
    (haccess : l1Access s.cfg s.cycles core.id op.memAddr true true core.dcache s.l2 = (true, dcache, l2)) :
    lonePassage i c s = .next (State.setCore
      { s.focusOn c .wb with
        l2 := l2
        mem := memWrite32 s.cfg s.mem op.memAddr
          ((blocksOf i).merge op.memAddr (memRead32 s.cfg s.mem op.memAddr) op.memValue) } c
      { core with decodeOp := none, dcache := dcache, retired := core.retired + 1 }) := by
  have hleave := leaveExecute_of_not_taken (core := withExecuting (decodedOp i pc w) core) (op := op) (by simp [hbranch])
  have hmemStage := memStage_stores (blocksOf i).extract (blocksOf i).merge
    (State.setCore_same (s := s.focusOn c .mem) (leaveExecute (withExecuting (decodedOp i pc w) core) op) hcore)
    (by rw [hleave]) hmem hstore (by rw [hleave]; exact haccess)
  have hretired := retire_of_alone halone op op core.branchRecover dcache
  rw [hdst] at hretired
  rw [lonePassage_retires hcore halone hblock hservice
    (hmemStage.trans (State.setCore_setCore { s.focusOn c .mem with l2 := l2, mem := _ } c _ _)), hleave]
  exact congrArg Host.Outcome.next (congrArg (State.setCore _ c) hretired)

end

end

/-! ## Every branch, jump, load and store -/

/-- The target of J and JAL, as R559 writes it: the top four bits of the next address over the 28 of the field. -/
theorem jumpTarget_eq (pc : Word) (target : BitVec 26) :
    jumpTarget pc target = ((pc + 4#32) &&& 0xF0000000#32) ||| (target.zeroExtend 32 <<< 2) := by
  apply BitVec.eq_of_getLsbD_eq
  intro k hk
  show (BitVec.getLsbD ((pc + 4#32).extractLsb' 28 4 ++ target ++ 0#2 : BitVec (4 + 26 + 2)) k) = _
  simp only [BitVec.getLsbD_append, BitVec.getLsbD_extractLsb', BitVec.getLsbD_or, BitVec.getLsbD_and]
  interval_cases k <;> simp

/-- Settles O52: each branch's blocks on its resolved sources, in the passage of a lone branch. -/
theorem branchInstructionsComplete : Obligations.BranchInstructionsComplete := by
  unfold Obligations.BranchInstructionsComplete
  intro rd rs rt offset target s c core pc w hcore halone a b near far
  have hfar : far = jumpTarget pc target := (jumpTarget_eq pc target).symm
  rw [hfar]
  simp only [List.forall_mem_cons, List.not_mem_nil, false_implies, implies_true, and_true]
  exact ⟨lonePassage_branches (i := .beq rs rt offset) hcore halone rfl rfl rfl rfl,
    lonePassage_branches (i := .bne rs rt offset) hcore halone rfl rfl rfl rfl,
    lonePassage_branches (i := .blez rs offset) hcore halone rfl rfl rfl rfl,
    lonePassage_branches (i := .bgtz rs offset) hcore halone rfl rfl rfl rfl,
    lonePassage_branches (i := .bltz rs offset) hcore halone rfl rfl rfl rfl,
    lonePassage_branches (i := .bgez rs offset) hcore halone rfl rfl rfl rfl,
    lonePassage_branches (i := .bltzal rs offset) hcore halone rfl rfl rfl rfl,
    lonePassage_branches (i := .bgezal rs offset) hcore halone rfl rfl rfl rfl,
    lonePassage_branches (i := .j target) hcore halone rfl rfl rfl rfl,
    lonePassage_branches (i := .jal target) hcore halone rfl rfl rfl rfl,
    lonePassage_branches (i := .jr rs) hcore halone rfl rfl rfl rfl,
    lonePassage_branches (i := .jalr rd rs) hcore halone rfl rfl rfl rfl⟩

/-- Settles O53: each load's and store's blocks on its resolved sources, in the passage of a lone access that hits. -/
theorem loadsAndStoresComplete : Obligations.LoadsAndStoresComplete := by
  unfold Obligations.LoadsAndStoresComplete
  intro rt rs offset s c core pc w dcache l2 hcore halone addr word
  simp only [List.forall_mem_cons, List.not_mem_nil, false_implies, implies_true, and_true]
  constructor
  · intro haccess
    exact ⟨lonePassage_loads (i := .lb rt rs offset) hcore halone rfl rfl rfl rfl rfl haccess,
      lonePassage_loads (i := .lbu rt rs offset) hcore halone rfl rfl rfl rfl rfl haccess,
      lonePassage_loads (i := .lh rt rs offset) hcore halone rfl rfl rfl rfl rfl haccess,
      lonePassage_loads (i := .lhu rt rs offset) hcore halone rfl rfl rfl rfl rfl haccess,
      lonePassage_loads (i := .lw rt rs offset) hcore halone rfl rfl rfl rfl rfl haccess⟩
  · intro haccess
    exact ⟨lonePassage_stores (i := .sb rt rs offset) hcore halone rfl rfl rfl rfl rfl rfl haccess,
      lonePassage_stores (i := .sh rt rs offset) hcore halone rfl rfl rfl rfl rfl rfl haccess,
      lonePassage_stores (i := .sw rt rs offset) hcore halone rfl rfl rfl rfl rfl rfl haccess⟩

end Sys2Proof.Machine
end

section
/-! SUPPORT. The ALU, immediate and shift instructions, stage by stage and alone in the pipeline (R412, R415, R416, R420,
R451–R475), and a multiply, divide or HI/LO move alone in the pipeline (R500–R512). -/

namespace Sys2Proof.Machine

/-! ## Results as the rules write them -/

/-- LUI's immediate, shifted into the upper half (R468). -/
theorem upperImm_eq (imm : BitVec 16) : upperImm imm = imm.zeroExtend 32 <<< 16 := by
  have happend : imm ++ 0#16 = imm.setWidth (16 + 16) <<< 16 := by
    rw [BitVec.append_def, BitVec.shiftLeftZeroExtend_eq]
    exact BitVec.or_zero
  exact happend

/-- The signed product, as 64 bits of the integers' product (R505). -/
theorem signedProduct_eq (a b : Word) : signedProduct a b = BitVec.ofInt 64 (a.toInt * b.toInt) := by
  rw [← signedProduct_toInt, BitVec.ofInt_toInt]

/-- HI of the unsigned product (R506). -/
theorem highWord_unsignedProduct (a b : Word) :
    highWord (unsignedProduct a b) = BitVec.ofNat 32 (a.toNat * b.toNat / 2 ^ 32) := by
  apply BitVec.eq_of_toNat_eq
  rw [highWord, BitVec.extractLsb'_toNat, unsignedProduct_toNat, Nat.shiftRight_eq_div_pow, BitVec.toNat_ofNat]

/-- LO of the unsigned product (R506). -/
theorem lowWord_unsignedProduct (a b : Word) :
    lowWord (unsignedProduct a b) = BitVec.ofNat 32 (a.toNat * b.toNat) := by
  apply BitVec.eq_of_toNat_eq
  rw [lowWord, BitVec.extractLsb'_toNat, unsignedProduct_toNat, Nat.shiftRight_zero, BitVec.toNat_ofNat]

/-! ## The four stage calls of an ALU instruction -/

/-- The value field of a source after execute has resolved it; a source that is −1 leaves it (R412, R413). -/
def operandValue (core : CoreState) (src : Option Reg) (old : Word) : Word := src.elim old (sourceValue core)

/-- With an empty mem slot every source resolves, to its program-order value (R412, R413). -/
theorem resolveSources_eq {core : CoreState} (hmem : core.memOp = none) (op : Op) :
    resolveSources core op =
      { op with
        regSrc1Value := operandValue core op.regSrc1 op.regSrc1Value
        regSrc2Value := operandValue core op.regSrc2 op.regSrc2Value } := by
  have hresolved (src : Option Reg) (old : Word) :
      resolvedValue old (resolveSource core src) = operandValue core src old := by
    cases src with
    | none => rfl
    | some r => rw [resolveSource_eq hmem]; rfl
  rw [resolveSources, hresolved, hresolved]

theorem Blocks.alu_congr {src1 src2 : Option Reg} {dst : Reg} {f g : Word → Word → Word} (h : ∀ a b, f a b = g a b) :
    Blocks.alu src1 src2 dst f = .alu src1 src2 dst g := congrArg (Blocks.alu src1 src2 dst) (funext₂ h)

/-- SYSCALL has no destination, so an instruction that computes one is another (R650). -/
theorem ne_syscall_of_alu {i : Instr} {src1 src2 : Option Reg} {dst : Reg} {f : Word → Word → Word}
    (hblocks : blocksOf i = .alu src1 src2 dst f) : i ≠ .syscall := by
  rintro rfl
  exact nomatch congrArg (fun b => (b.decodeBlock (Op.fresh 0#32 0#32)).regDst) hblocks

/-- The stage calls of an instruction that computes its destination from its sources (R450). -/
theorem alu_stages {i : Instr} {src1 src2 : Option Reg} {dst : Reg} {f : Word → Word → Word}
    (hblocks : blocksOf i = .alu src1 src2 dst f) :
    DecodesTo i (fun op => { op with regSrc1 := src1, regSrc2 := src2, regDst := some dst }) ∧
    ExecutesTo i (fun _ op => op.regSrc1 = src1 ∧ op.regSrc2 = src2 ∧ op.isBranch = false)
      (fun core op =>
        { core with
          executeOp := none
          memOp := some
            { op with
              regSrc1Value := operandValue core src1 op.regSrc1Value
              regSrc2Value := operandValue core src2 op.regSrc2Value
              regDstValue := f (operandValue core src1 op.regSrc1Value) (operandValue core src2 op.regSrc2Value)
              regDstValueReady := true } }) ∧
    PassesMem i ∧ Retires i := by
  refine ⟨?_, ?_, passesMem i, retires_of_not_syscall (ne_syscall_of_alu hblocks)⟩
  · have hdecodes := decodesTo i
    rw [hblocks] at hdecodes
    exact hdecodes
  · rintro s c core op hstage hop hmem ⟨rfl, rfl, hbranch⟩
    rw [exec_leaves hstage hop hmem (by rw [hblocks]; rfl), resolveSources_eq hmem,
      leaveExecute_of_not_taken (by simp [hbranch])]

/-- Settles O37: each row's word decodes to its instruction, whose blocks compute the row's function of both sources. -/
theorem threeRegisterInstructions : Obligations.ThreeRegisterInstructions := by
  unfold Obligations.ThreeRegisterInstructions
  refine fun rd rs rt p hp => ⟨?decodes, ?stages⟩
  case decodes =>
    revert p
    simp [decode, decodeSpecial]
  case stages =>
    revert p
    simp only [List.forall_mem_cons, List.not_mem_nil, false_implies, implies_true, and_true]
    exact ⟨alu_stages (i := .add rd rs rt) rfl, alu_stages (i := .addu rd rs rt) rfl,
      alu_stages (i := .sub rd rs rt) rfl, alu_stages (i := .subu rd rs rt) rfl,
      alu_stages (i := .and rd rs rt) rfl, alu_stages (i := .or rd rs rt) rfl,
      alu_stages (i := .xor rd rs rt) rfl, alu_stages (i := .nor rd rs rt) rfl,
      alu_stages (i := .slt rd rs rt) (Blocks.alu_congr setLessSigned_eq),
      alu_stages (i := .sltu rd rs rt) (Blocks.alu_congr setLessUnsigned_eq)⟩

/-- Settles O38: each row's word decodes to its instruction, whose blocks compute the row's function of its source, and LUI's
of none. -/
theorem immediateInstructions : Obligations.ImmediateInstructions := by
  unfold Obligations.ImmediateInstructions
  refine fun rt rs imm p hp => ⟨?decodes, ?stages⟩
  case decodes =>
    revert p
    simp [decode]
  case stages =>
    revert p
    simp only [List.forall_mem_cons, List.not_mem_nil, false_implies, implies_true, and_true]
    exact ⟨alu_stages (i := .addi rt rs imm) rfl, alu_stages (i := .addiu rt rs imm) rfl,
      alu_stages (i := .slti rt rs imm) (Blocks.alu_congr fun a _ => setLessSigned_eq a (signedImm imm)),
      alu_stages (i := .sltiu rt rs imm) (Blocks.alu_congr fun a _ => setLessUnsigned_eq a (signedImm imm)),
      alu_stages (i := .andi rt rs imm) rfl, alu_stages (i := .ori rt rs imm) rfl,
      alu_stages (i := .xori rt rs imm) rfl,
      alu_stages (i := .lui rt imm) (Blocks.alu_congr fun _ _ => upperImm_eq imm)⟩

/-- Settles O39: each row's word decodes to its instruction, and a variable amount is the low five bits of its register. -/
theorem shiftInstructions : Obligations.ShiftInstructions := by
  unfold Obligations.ShiftInstructions
  refine ⟨fun rd rt shamt p hp => ⟨?decodes, ?stages⟩, fun rd rt rs p hp => ⟨?decodesVariable, ?stagesVariable⟩⟩
  case decodes | decodesVariable =>
    revert p
    simp [decode, decodeSpecial]
  case stages =>
    revert p
    simp only [List.forall_mem_cons, List.not_mem_nil, false_implies, implies_true, and_true]
    exact ⟨alu_stages (i := .sll rd rt shamt.toNat) rfl, alu_stages (i := .srl rd rt shamt.toNat) rfl,
      alu_stages (i := .sra rd rt shamt.toNat) rfl⟩
  case stagesVariable =>
    revert p
    simp only [List.forall_mem_cons, List.not_mem_nil, false_implies, implies_true, and_true]
    exact ⟨alu_stages (i := .sllv rd rt rs) (Blocks.alu_congr fun a b => congrArg (b <<< ·) (variableAmount_eq a)),
      alu_stages (i := .srlv rd rt rs) (Blocks.alu_congr fun a b => congrArg (b >>> ·) (variableAmount_eq a)),
      alu_stages (i := .srav rd rt rs) (Blocks.alu_congr fun a b => congrArg b.sshiftRight (variableAmount_eq a))⟩

/-! ## Alone in the pipeline -/

section
variable {i : Instr} {s : State} {c : Nat} {core : CoreState} {pc w : Word} (hcore : s.cores[c]? = some core)
  (halone : FreshlyFetchedAlone core pc w)
include hcore halone

/-- A lone op that is no branch and accesses no memory leaves what its Execute block writes of HI, LO and the counter, and its
destination (R415, R416, R420). -/
theorem lonePassage_computes {op : Op} {hi lo : Word} {n : Nat} (hservice : (blocksOf i).service = noService)
    (hblock : (blocksOf i).executeBlock (withExecuting (decodedOp i pc w) core) (resolvedOp i core.regs pc w) =
      some ({ withExecuting (decodedOp i pc w) core with hi := hi, lo := lo, multiplierStall := n }, op))
    (hmem : op.isMem = false) (hbranch : op.isBranch = false) :
    lonePassage i c s = .next ((s.focusOn c .wb).setCore c
      { core with
        decodeOp := none
        hi := hi
        lo := lo
        multiplierStall := n
        regs := core.regs.commit op.regDst op.regDstValue
        retired := core.retired + 1 }) := by
  rw [lonePassage_passes hcore halone hblock hservice hmem, leaveExecute_of_not_taken (by simp [hbranch])]
  obtain ⟨-, hexe, hmemOp, hwb, -, -⟩ := halone
  simp [retire, commitDst, leaveMem, withExecuting, hexe, hmemOp, hwb]

/-- A lone ALU instruction writes what it computes of the register file into its destination (R412, R420). -/
theorem lonePassage_alu {src1 src2 : Option Reg} {dst : Reg} {f : Word → Word → Word} {v : Word}
    (hblocks : blocksOf i = .alu src1 src2 dst f)
    (hvalue : f (readSource core.regs src1) (readSource core.regs src2) = v) :
    lonePassage i c s = .next ((s.focusOn c .wb).setCore c
      { core with decodeOp := none, regs := core.regs.write dst v, retired := core.retired + 1 }) := by
  have hblock : (blocksOf i).executeBlock (withExecuting (decodedOp i pc w) core) (resolvedOp i core.regs pc w) =
      executeResult f (withExecuting (decodedOp i pc w) core)
        { decodeRegs src1 src2 (some dst) (extractFields (Op.fresh pc w)) with
          regSrc1Value := readSource core.regs src1, regSrc2Value := readSource core.regs src2 } := by
    rw [resolvedOp, decodedOp, hblocks]
    rfl
  rw [lonePassage_computes hcore halone (by rw [hblocks]; rfl) hblock rfl rfl, ← hvalue]
  rfl

end

/-- Settles O50: each ALU instruction's function of the register file, in the passage of a lone one. -/
theorem aluInstructionsComplete : Obligations.AluInstructionsComplete := by
  unfold Obligations.AluInstructionsComplete
  intro rd rs rt imm n p hp s c core pc w hcore halone
  revert p
  simp only [List.forall_mem_cons, List.not_mem_nil, false_implies, implies_true, and_true]
  exact ⟨lonePassage_alu (i := .add rd rs rt) hcore halone rfl rfl,
    lonePassage_alu (i := .addu rd rs rt) hcore halone rfl rfl,
    lonePassage_alu (i := .sub rd rs rt) hcore halone rfl rfl,
    lonePassage_alu (i := .subu rd rs rt) hcore halone rfl rfl,
    lonePassage_alu (i := .and rd rs rt) hcore halone rfl rfl,
    lonePassage_alu (i := .or rd rs rt) hcore halone rfl rfl,
    lonePassage_alu (i := .xor rd rs rt) hcore halone rfl rfl,
    lonePassage_alu (i := .nor rd rs rt) hcore halone rfl rfl,
    lonePassage_alu (i := .slt rd rs rt) hcore halone rfl (setLessSigned_eq _ _),
    lonePassage_alu (i := .sltu rd rs rt) hcore halone rfl (setLessUnsigned_eq _ _),
    lonePassage_alu (i := .addi rt rs imm) hcore halone rfl rfl,
    lonePassage_alu (i := .addiu rt rs imm) hcore halone rfl rfl,
    lonePassage_alu (i := .slti rt rs imm) hcore halone rfl (setLessSigned_eq _ _),
    lonePassage_alu (i := .sltiu rt rs imm) hcore halone rfl (setLessUnsigned_eq _ _),
    lonePassage_alu (i := .andi rt rs imm) hcore halone rfl rfl,
    lonePassage_alu (i := .ori rt rs imm) hcore halone rfl rfl,
    lonePassage_alu (i := .xori rt rs imm) hcore halone rfl rfl,
    lonePassage_alu (i := .lui rt imm) hcore halone rfl (upperImm_eq imm),
    lonePassage_alu (i := .sll rd rt n) hcore halone rfl rfl,
    lonePassage_alu (i := .srl rd rt n) hcore halone rfl rfl,
    lonePassage_alu (i := .sra rd rt n) hcore halone rfl rfl,
    lonePassage_alu (i := .sllv rd rt rs) hcore halone rfl (congrArg (core.regs.read rt <<< ·) (variableAmount_eq _)),
    lonePassage_alu (i := .srlv rd rt rs) hcore halone rfl (congrArg (core.regs.read rt >>> ·) (variableAmount_eq _)),
    lonePassage_alu (i := .srav rd rt rs) hcore halone rfl (congrArg (core.regs.read rt).sshiftRight (variableAmount_eq _))⟩

/-- Settles O51: each instruction's blocks on its resolved sources, in the passage of a lone one at counter 0. -/
theorem mulDivInstructionsComplete : Obligations.MulDivInstructionsComplete := by
  unfold Obligations.MulDivInstructionsComplete
  intro rd rs rt s c core pc w hcore halone a b left
  have ⟨_, _, _, _, _, hzero⟩ := halone
  rw [← signedProduct_eq, ← highWord_unsignedProduct, ← lowWord_unsignedProduct]
  exact ⟨lonePassage_computes (i := .mult rs rt) hcore halone rfl rfl rfl rfl,
    lonePassage_computes (i := .multu rs rt) hcore halone rfl rfl rfl rfl,
    lonePassage_computes (i := .div rs rt) hcore halone rfl rfl rfl rfl,
    lonePassage_computes (i := .divu rs rt) hcore halone rfl rfl rfl rfl,
    lonePassage_computes (i := .mfhi rd) hcore halone rfl (hiLo_executeBlock_of_zero _ hzero) rfl rfl,
    lonePassage_computes (i := .mflo rd) hcore halone rfl (hiLo_executeBlock_of_zero _ hzero) rfl rfl,
    lonePassage_computes (i := .mthi rs) hcore halone rfl (hiLo_executeBlock_of_zero _ hzero) rfl rfl,
    lonePassage_computes (i := .mtlo rs) hcore halone rfl (hiLo_executeBlock_of_zero _ hzero) rfl rfl⟩

end Sys2Proof.Machine
end

section
/-! SUPPORT. The multiplies and divides, stage by stage (R500, R502, R505–R508). -/

namespace Sys2Proof.Machine

/-- The stage calls of a multiply or divide: the counter does not hold it, and it has no destination (R500, R502). -/
theorem mulDiv_stages (i : Instr) {rs rt : Reg} {f : Word → Word → Word × Word} {latency : Nat} (hne : i ≠ .syscall)
    (hblocks : blocksOf i = .mulDiv rs rt f latency) :
    DecodesTo i (fun op => { op with regSrc1 := some rs, regSrc2 := some rt, regDst := none }) ∧
    ExecutesTo i (fun _ op => op.regSrc1 = some rs ∧ op.regSrc2 = some rt ∧ op.isBranch = false)
      (fun core op =>
        { core with
          hi := (f (sourceValue core rs) (sourceValue core rt)).1
          lo := (f (sourceValue core rs) (sourceValue core rt)).2
          multiplierStall := latency
          executeOp := none
          memOp := some { op with regSrc1Value := sourceValue core rs, regSrc2Value := sourceValue core rt } }) ∧
    PassesMem i ∧ Retires i := by
  refine ⟨?_, ?_, passesMem i, retires_of_not_syscall hne⟩
  · have hdecodes := decodesTo i
    rw [hblocks] at hdecodes
    exact hdecodes
  · rintro s c core op hstage hop hmem ⟨hsrc1, hsrc2, hbranch⟩
    rw [exec_leaves hstage hop hmem (by rw [hblocks]; rfl), resolveSources_both hmem hsrc1 hsrc2,
      leaveExecute_of_not_taken (by simp [hbranch])]
    rfl

/-- Settles O40: each row's word decodes to its instruction, whose blocks compute the row's HI and LO of both sources. -/
theorem multiplyDivideInstructions : Obligations.MultiplyDivideInstructions := by
  unfold Obligations.MultiplyDivideInstructions
  refine fun rs rt p hp => ⟨?decodes, ?stages⟩
  case decodes =>
    revert p
    simp [decode, decodeSpecial]
  case stages =>
    revert p
    simp only [List.forall_mem_cons, List.not_mem_nil, false_implies, implies_true, and_true]
    exact ⟨mulDiv_stages (.mult rs rt) nofun rfl, mulDiv_stages (.multu rs rt) nofun rfl,
      mulDiv_stages (.div rs rt) nofun rfl, mulDiv_stages (.divu rs rt) nofun rfl⟩

end Sys2Proof.Machine
end

section
/-! SUPPORT. The branches and jumps, stage by stage: a decoded target or link, the condition on the resolved sources, and the
recovery of a taken one (R407, R408, R412, R415, R420, R551–R562). -/

namespace Sys2Proof.Machine

/-- The stage calls of a branch or jump, from what its Execute block and the end of execute make of the resolved op (R450). -/
theorem branch_stages {i : Instr} {decodeBlock : Op → Op} {executeBlock : CoreState → Op → Option (CoreState × Op)}
    {given : CoreState → Op → Prop} {effect : CoreState → Op → CoreState} (hne : i ≠ .syscall)
    (hblocks : blocksOf i = .branch decodeBlock executeBlock)
    (hleaves : ∀ core op, core.memOp = none → given core op →
      ∃ op', executeBlock core (resolveSources core op) = some (core, op') ∧ leaveExecute core op' = effect core op) :
    DecodesTo i decodeBlock ∧ ExecutesTo i given effect ∧ PassesMem i ∧ Retires i := by
  refine ⟨?_, ?_, passesMem i, retires_of_not_syscall hne⟩
  · have hdecodes := decodesTo i
    rw [hblocks] at hdecodes
    exact hdecodes
  · intro s c core op hstage hop hmem hgiven
    obtain ⟨op', hblock, hleave⟩ := hleaves core op hmem hgiven
    rw [← hleave]
    exact exec_leaves hstage hop hmem (by rw [hblocks]; exact hblock)

/-- The stage calls of a conditional branch: its condition on the sources' program-order values decides the recovery, whatever
its Decode block is (R551–R558). -/
theorem condBranch_stages (i : Instr) {decodeBlock : Op → Op} {rs : Reg} {src2 : Option Reg} {cond : Word → Word → Bool}
    (hne : i ≠ .syscall) (hblocks : blocksOf i = .branch decodeBlock (executeCond cond)) :
    DecodesTo i decodeBlock ∧
    ExecutesTo i
      (fun core op => op.regSrc1 = some rs ∧ op.regSrc2 = src2 ∧ op.isBranch = true ∧ core.branchRecover.pending = false)
      (fun core op =>
        { core with
          branchRecover :=
            if cond (sourceValue core rs) (operandValue core src2 op.regSrc2Value) then
              { pending := true, dest := op.branchDest, flushDepth := 3 }
            else core.branchRecover
          executeOp := none
          memOp := some
            { op with
              regSrc1Value := sourceValue core rs
              regSrc2Value := operandValue core src2 op.regSrc2Value
              branchTaken := cond (sourceValue core rs) (operandValue core src2 op.regSrc2Value) } }) ∧
    PassesMem i ∧ Retires i := by
  refine branch_stages hne hblocks ?_
  rintro core op hmem ⟨hsrc1, rfl, hbranch, hclear⟩
  refine ⟨_, rfl, ?_⟩
  rw [resolveSources_eq hmem, hsrc1]
  exact leaveExecute_branch hbranch hclear

/-- The stage calls of a jump to a decoded target: it has no source, and execute adds nothing to the op (R559, R560). -/
theorem jump_stages (i : Instr) {decodeBlock : Op → Op} (hne : i ≠ .syscall)
    (hblocks : blocksOf i = .branch decodeBlock executeNothing) :
    DecodesTo i decodeBlock ∧
    ExecutesTo i
      (fun core op => op.regSrc1 = none ∧ op.regSrc2 = none ∧ op.isBranch = true ∧ op.branchTaken = true ∧
        core.branchRecover.pending = false)
      (fun core op =>
        { core with
          branchRecover := { pending := true, dest := op.branchDest, flushDepth := 3 }
          executeOp := none
          memOp := some op }) ∧
    PassesMem i ∧ Retires i := by
  refine branch_stages hne hblocks ?_
  rintro core op - ⟨hsrc1, hsrc2, hbranch, htaken, hclear⟩
  refine ⟨op, ?_, leaveExecute_of_taken hbranch htaken hclear⟩
  rw [resolveSources_neither core hsrc1 hsrc2, executeNothing]

/-- The stage calls of a jump to a register's value, which is its target in execute (R561, R562). -/
theorem jumpRegister_stages (i : Instr) {decodeBlock : Op → Op} {rs : Reg} (hne : i ≠ .syscall)
    (hblocks : blocksOf i = .branch decodeBlock executeJumpRegister) :
    DecodesTo i decodeBlock ∧
    ExecutesTo i
      (fun core op => op.regSrc1 = some rs ∧ op.regSrc2 = none ∧ op.isBranch = true ∧ core.branchRecover.pending = false)
      (fun core op =>
        { core with
          branchRecover := { pending := true, dest := sourceValue core rs, flushDepth := 3 }
          executeOp := none
          memOp := some
            { op with
              regSrc1Value := sourceValue core rs
              branchDest := sourceValue core rs
              branchTaken := true } }) ∧
    PassesMem i ∧ Retires i := by
  refine branch_stages hne hblocks ?_
  rintro core op hmem ⟨hsrc1, hsrc2, hbranch, hclear⟩
  refine ⟨_, rfl, ?_⟩
  rw [resolveSources_first hmem hsrc1 hsrc2]
  exact leaveExecute_of_taken hbranch rfl hclear

/-- Settles O42: each row's word decodes to its instruction, whose blocks test the row's condition on its sources. -/
theorem conditionalBranchInstructions : Obligations.ConditionalBranchInstructions := by
  unfold Obligations.ConditionalBranchInstructions
  refine fun rs rt offset p hp => ⟨?decodes, ?stages⟩
  case decodes =>
    revert p
    simp [decode, decodeRegimm]
  case stages =>
    revert p
    simp only [List.forall_mem_cons, List.not_mem_nil, false_implies, implies_true, and_true]
    exact ⟨condBranch_stages (.beq rs rt offset) nofun rfl, condBranch_stages (.bne rs rt offset) nofun rfl,
      condBranch_stages (.blez rs offset) nofun rfl, condBranch_stages (.bgtz rs offset) nofun rfl,
      condBranch_stages (.bltz rs offset) nofun rfl, condBranch_stages (.bgez rs offset) nofun rfl⟩

/-- Settles O43: the stage calls are those of a conditional branch, whose Decode block here sets the link too. -/
theorem linkBranchInstructions : Obligations.LinkBranchInstructions := by
  unfold Obligations.LinkBranchInstructions
  refine fun rs offset p hp => ⟨?decodes, ?stages⟩
  case decodes =>
    revert p
    simp [decode, decodeRegimm]
  case stages =>
    revert p
    simp only [List.forall_mem_cons, List.not_mem_nil, false_implies, implies_true, and_true]
    exact ⟨condBranch_stages (.bltzal rs offset) nofun rfl, condBranch_stages (.bgezal rs offset) nofun rfl⟩

/-- Settles O44: J and JAL are jumps to a decoded target, JR and JALR to a register's value. -/
theorem jumpInstructions : Obligations.JumpInstructions := by
  unfold Obligations.JumpInstructions
  refine ⟨fun target p hp => ⟨?decodes, ?stages⟩, fun rd rs p hp => ⟨?decodesRegister, ?stagesRegister⟩⟩
  case decodes | decodesRegister =>
    revert p
    simp [decode, decodeSpecial]
  case stages =>
    revert p
    simp only [List.forall_mem_cons, List.not_mem_nil, false_implies, implies_true, and_true, ← jumpTarget_eq]
    exact ⟨jump_stages (.j target) nofun rfl, jump_stages (.jal target) nofun rfl⟩
  case stagesRegister =>
    revert p
    simp only [List.forall_mem_cons, List.not_mem_nil, false_implies, implies_true, and_true]
    exact ⟨jumpRegister_stages (.jr rs) nofun rfl, jumpRegister_stages (.jalr rd rs) nofun rfl⟩

end Sys2Proof.Machine
end

section
/-! SUPPORT. The bytes of a narrow access, and the bytes a store leaves (R202, R204, R205, R600, R601, R630). -/

namespace Sys2Proof.Machine

/-! ## The bytes of a word (R202, R600) -/

theorem bitOffset_eq (addr : Word) : bitOffset addr = 8 * (addr.toNat % 4) := by
  simp [bitOffset]

theorem getLsbD_byteOfWord (w : Word) (k : Nat) {i : Nat} (hi : i < 8) :
    (byteOfWord w k).getLsbD i = w.getLsbD (8 * k + i) := by
  simp [byteOfWord, hi]

/-- A word made of four bytes gives each of them back. -/
theorem byteOfWord_wordOfBytes (b : Nat → Byte) {k : Nat} (hk : k < 4) :
    byteOfWord (wordOfBytes (b 0) (b 1) (b 2) (b 3)) k = b k := by
  apply BitVec.eq_of_getLsbD_eq
  intro i hi
  rw [getLsbD_byteOfWord _ _ hi]
  show (b 3 ++ b 2 ++ b 1 ++ b 0 : BitVec (8 + 8 + 8 + 8)).getLsbD (8 * k + i) = _
  simp only [BitVec.getLsbD_append]
  interval_cases k <;> grind

/-- The low halfword of a word is its two low bytes. -/
theorem byteOfWord_one_append_zero (v : Word) : byteOfWord v 1 ++ byteOfWord v 0 = v.extractLsb' 0 16 :=
  BitVec.extractLsb'_append_extractLsb'_eq_extractLsb' rfl

/-- A byte load uses byte k (R600). -/
theorem loadedByte_eq (addr w : Word) : loadedByte addr w = byteOfWord w (addr.toNat % 4) := by
  apply BitVec.eq_of_getLsbD_eq
  intro i hi
  rw [getLsbD_byteOfWord _ _ hi]
  simp [loadedByte, bitOffset_eq, hi]

/-- A halfword load uses bytes k and k + 1; at k = 3 the upper one lies past the word and is 0 (R600, D15). -/
theorem loadedHalf_eq (addr w : Word) :
    loadedHalf addr w = byteOfWord w (addr.toNat % 4 + 1) ++ byteOfWord w (addr.toNat % 4) := by
  have hbytes : byteOfWord w (addr.toNat % 4 + 1) ++ byteOfWord w (addr.toNat % 4) =
      w.extractLsb' (8 * (addr.toNat % 4)) 16 :=
    BitVec.extractLsb'_append_extractLsb'_eq_extractLsb' (by omega)
  apply BitVec.eq_of_getLsbD_eq
  intro i hi
  simp [hbytes, loadedHalf, bitOffset_eq, hi]

/-! ## The bytes of a merged word (R601) -/

/-- Bit by bit, a merged word is the store's value under the moved mask and the old word elsewhere. -/
theorem getLsbD_mergeMasked (mask addr w v : Word) {i : Nat} (hi : i < 32) :
    (mergeMasked mask addr w v).getLsbD i =
      if bitOffset addr ≤ i ∧ mask.getLsbD (i - bitOffset addr) = true then v.getLsbD (i - bitOffset addr)
      else w.getLsbD i := by
  simp only [mergeMasked, BitVec.getLsbD_or, BitVec.getLsbD_and, BitVec.getLsbD_not, BitVec.getLsbD_shiftLeft]
  by_cases hoff : i < bitOffset addr
  · simp [hoff, hi]
  · cases mask.getLsbD (i - bitOffset addr) <;> simp [hoff, hi, Nat.le_of_not_lt hoff]

/-- A mask of the n low bytes takes bytes k to k + n - 1 from the store's value. -/
theorem byteOfWord_mergeMasked {mask : Word} {n : Nat} (hmask : ∀ i < 32, mask.getLsbD i = decide (i < 8 * n))
    (addr w v : Word) {j : Nat} (hj : j < 4) :
    byteOfWord (mergeMasked mask addr w v) j =
      if addr.toNat % 4 ≤ j ∧ j < addr.toNat % 4 + n then byteOfWord v (j - addr.toNat % 4) else byteOfWord w j := by
  apply BitVec.eq_of_getLsbD_eq
  intro i hi
  have hbit : 8 * (addr.toNat % 4) ≤ 8 * j + i ∧ 8 * j + i - 8 * (addr.toNat % 4) < 8 * n ↔
      addr.toNat % 4 ≤ j ∧ j < addr.toNat % 4 + n := by omega
  rw [getLsbD_byteOfWord _ _ hi, getLsbD_mergeMasked _ _ _ _ (by omega), bitOffset_eq, hmask _ (by omega)]
  simp only [decide_eq_true_eq, hbit]
  split
  next htaken =>
    rw [getLsbD_byteOfWord _ _ hi]
    congr 1
    omega
  next => rw [getLsbD_byteOfWord _ _ hi]

/-- SB stores one byte (R601). -/
theorem byteOfWord_mergeSb (addr w v : Word) {j : Nat} (hj : j < 4) :
    byteOfWord (mergeSb addr w v) j = if j = addr.toNat % 4 then byteOfWord v 0 else byteOfWord w j := by
  rw [mergeSb, byteOfWord_mergeMasked (n := 1) (by decide) addr w v hj]
  grind

/-- SH stores two bytes, of which the upper is dropped at k = 3 (R601, D15). -/
theorem byteOfWord_mergeSh (addr w v : Word) {j : Nat} (hj : j < 4) :
    byteOfWord (mergeSh addr w v) j =
      if j = addr.toNat % 4 then byteOfWord v 0
      else if j = addr.toNat % 4 + 1 then byteOfWord v 1
      else byteOfWord w j := by
  rw [mergeSh, byteOfWord_mergeMasked (n := 2) (by decide) addr w v hj]
  grind

/-- A byte load of a merged SB uses the byte stored. -/
theorem loadedByte_mergeSb (addr w v : Word) : loadedByte addr (mergeSb addr w v) = v.extractLsb' 0 8 := by
  rw [loadedByte_eq, byteOfWord_mergeSb addr w v (by omega), if_pos rfl, byteOfWord]

/-- A halfword load of a merged SH uses the halfword stored, where the word holds both bytes. -/
theorem loadedHalf_mergeSh {addr : Word} (w v : Word) (h : addr.toNat % 4 ≤ 2) :
    loadedHalf addr (mergeSh addr w v) = v.extractLsb' 0 16 := by
  rw [loadedHalf_eq, byteOfWord_mergeSh addr w v (by omega), byteOfWord_mergeSh addr w v (by omega),
    if_neg (by omega), if_pos rfl, if_pos rfl, byteOfWord_one_append_zero]

/-! ## What a store leaves of memory (R204, R205, R601) -/

/-- The bytes a mapped word reads as are those of memory (R202, R204). -/
theorem byteOfWord_memRead32 {cfg : Config} {addr : Word} (m : Memory) (hmap : isMapped cfg addr = true) {j : Nat}
    (hj : j < 4) : byteOfWord (memRead32 cfg m addr) j = m.readByte ((alignWord addr).toNat + j) := by
  rw [memRead32, if_pos hmap]
  exact byteOfWord_wordOfBytes (fun k => m.readByte ((alignWord addr).toNat + k)) hj

/-- A word write leaves byte `b`, mapped or not, if the word written has that byte as memory has it (R204, R205). -/
theorem memWrite32_readByte_of_byteOfWord {cfg : Config} {m : Memory} {addr v : Word} {b : Nat} (h : m.wf = true)
    (hkeeps : b / 4 = addr.toNat / 4 → byteOfWord v (b % 4) = byteOfWord (memRead32 cfg m addr) (b % 4)) :
    (memWrite32 cfg m addr v).readByte b = m.readByte b := by
  by_cases hword : b / 4 = addr.toNat / 4
  · cases hmap : isMapped cfg addr with
    | false => simp [memWrite32, hmap]
    | true =>
      have hplace : b = (alignWord addr).toNat + b % 4 := by
        rw [alignWord_toNat]
        omega
      have hin : b % 4 < 4 := by omega
      have hread := byteOfWord_memRead32 m hmap hin
      have hwrite := Memory.readByte_writeWord_same v h (alignWord_bound addr) hin
      rw [← hplace] at hread hwrite
      rw [memWrite32, if_pos hmap, hwrite, hkeeps hword, hread]
  · exact memWrite32_readByte_other v b hword

/-- A store with this merge leaves every byte of memory that `names` does not relate to its address (R601). -/
def KeepsBytes (merge : Word → Word → Word → Word) (names : Nat → Nat → Prop) : Prop :=
  ∀ (cfg : Config) (m : Memory) (addr v : Word) (b : Nat), m.wf = true → ¬names addr.toNat b →
    (memWrite32 cfg m addr (merge addr (memRead32 cfg m addr) v)).readByte b = m.readByte b

/-- SB names one byte. -/
theorem mergeSb_keepsBytes : KeepsBytes mergeSb fun a b => b = a := by
  intro cfg m addr v b h hb
  refine memWrite32_readByte_of_byteOfWord h fun hword => ?_
  rw [byteOfWord_mergeSb addr _ v (by omega), if_neg (by omega)]

/-- SH names a byte and the next one in its word. -/
theorem mergeSh_keepsBytes : KeepsBytes mergeSh fun a b => b = a ∨ (b = a + 1 ∧ a % 4 ≠ 3) := by
  intro cfg m addr v b h hb
  refine memWrite32_readByte_of_byteOfWord h fun hword => ?_
  rw [byteOfWord_mergeSh addr _ v (by omega), if_neg (by omega), if_neg (by omega)]

/-- SW names the word's four bytes. -/
theorem mergeSw_keepsBytes : KeepsBytes mergeSw fun a b => b / 4 = a / 4 :=
  fun _ _ _ v b _ hb => memWrite32_readByte_other v b hb

/-! ## A load after a store (R630) -/

/-- The bytes of an aligned word are numbered from its address. -/
theorem toNat_add_of_aligned {a k : Word} (ha : alignWord a = a) (hk : k ≤ 3#32) :
    a.toNat % 4 = 0 ∧ (a + k).toNat = a.toNat + k.toNat := by
  have haligned := alignWord_toNat a
  have hbound := a.isLt
  have hk' : k.toNat ≤ 3 := hk
  rw [ha] at haligned
  refine ⟨by omega, ?_⟩
  rw [BitVec.toNat_add]
  omega

theorem alignWord_add_of_aligned {a k : Word} (ha : alignWord a = a) (hk : k ≤ 3#32) : alignWord (a + k) = a := by
  obtain ⟨haligned, hadd⟩ := toNat_add_of_aligned ha hk
  have hk' : k.toNat ≤ 3 := hk
  apply BitVec.eq_of_toNat_eq
  rw [alignWord_toNat, hadd]
  omega

/-- Settles O31: a load after a store of the same address uses the merged word, whose bytes the mask tells apart. -/
theorem loadsReturnWhatStoresWrote : Obligations.LoadsReturnWhatStoresWrote := by
  unfold Obligations.LoadsReturnWhatStoresWrote
  intro cfg m a v h store
  refine ⟨fun hmap ha => ?_, fun hmap merge => by simp [store, memRead32, memWrite32, hmap]⟩
  have hread (merge : Word → Word → Word → Word) {k : Word} (hk : k ≤ 3#32) :
      memRead32 cfg (store merge (a + k)) (a + k) = merge (a + k) (memRead32 cfg m (a + k)) v := by
    refine memRead32_memWrite32_same _ h ?_ rfl
    rw [← isMapped_alignWord, alignWord_add_of_aligned ha hk, hmap]
  refine ⟨memRead32_memWrite32_same v h hmap rfl, fun k hk => ?_, fun k hk => ?_, fun k j hk hj => ⟨?_, ?_⟩⟩
  · rw [hread _ hk, extractLbu, loadedByte_mergeSb]
  · have hk3 : k ≤ 3#32 := BitVec.le_trans hk (by decide)
    obtain ⟨haligned, hadd⟩ := toNat_add_of_aligned ha hk3
    have hk2 : k.toNat ≤ 2 := hk
    have hhalf := loadedHalf_mergeSh (addr := a + k) (memRead32 cfg m (a + k)) v (by omega)
    rw [hread _ hk3, extractLhu, extractLh, hhalf]
    exact ⟨rfl, rfl⟩
  · intro hne
    obtain ⟨-, hadd⟩ := toNat_add_of_aligned ha hk
    exact mergeSb_keepsBytes cfg m (a + k) v _ h (by omega)
  · intro hne hne'
    obtain ⟨-, hadd⟩ := toNat_add_of_aligned ha hk
    exact mergeSh_keepsBytes cfg m (a + k) v _ h (by omega)

end Sys2Proof.Machine
end

section
/-! SUPPORT. The loads and stores, stage by stage: the address in execute, the D-cache access in mem, and what its completion
loads or stores (R407, R415, R416, R602, R603, R610–R614, R620–R622). -/

namespace Sys2Proof.Machine

/-! ## The mem call of a load or store (R416) -/

section
variable {i : Instr} {s : State} {c : Nat} {core : CoreState} {op : Op} {dcache : L1} {l2 : L2}
  (h : InStage s c .mem core) (hop : core.memOp = some op) (hmem : op.isMem = true)
include h hop hmem

/-- While the D-cache access does not complete, the op stays and memory is untouched (R603). -/
theorem exec_waits {isWrite : Bool} (hwrite : op.memWrite = isWrite)
    (haccess : l1Access s.cfg s.cycles core.id op.memAddr isWrite true core.dcache s.l2 = (false, dcache, l2)) :
    exec i s = .next (State.setCore { s with l2 := l2 } c { core with dcache := dcache }) := by
  rw [exec_eq_run, Blocks.run_mem _ h.1, memStage_waits _ _ h.2 hop hmem (by rw [hwrite]; exact haccess)]

/-- When the D-cache access of a load completes, what its instruction extracts is the destination's value (R600). -/
theorem exec_loads (hwrite : op.memWrite = false)
    (haccess : l1Access s.cfg s.cycles core.id op.memAddr false true core.dcache s.l2 = (true, dcache, l2)) :
    exec i s = .next (State.setCore { s with l2 := l2 } c
      (leaveMem (loadInto (blocksOf i).extract (memRead32 s.cfg s.mem op.memAddr) op) { core with dcache := dcache })) := by
  rw [exec_eq_run, Blocks.run_mem _ h.1, memStage_loads _ _ h.2 hop hmem hwrite haccess]

/-- When the D-cache access of a store completes, what its instruction merges is written (R601). -/
theorem exec_stores (hwrite : op.memWrite = true)
    (haccess : l1Access s.cfg s.cycles core.id op.memAddr true true core.dcache s.l2 = (true, dcache, l2)) :
    exec i s = .next (State.setCore
      { s with
        l2 := l2
        mem := memWrite32 s.cfg s.mem op.memAddr
          ((blocksOf i).merge op.memAddr (memRead32 s.cfg s.mem op.memAddr) op.memValue) } c
      (leaveMem op { core with dcache := dcache })) := by
  rw [exec_eq_run, Blocks.run_mem _ h.1, memStage_stores _ _ h.2 hop hmem hwrite haccess]

end

/-! ## The four stage calls -/

theorem decodesTo_of_blocksOf {i : Instr} {b : Blocks} (h : blocksOf i = b) : DecodesTo i b.decodeBlock := h ▸ decodesTo i

/-- The stage calls of a load with its extraction (R450). -/
theorem load_stages (i : Instr) {rt rs : Reg} {offset : BitVec 16} {extract : Word → Word → Word} (hne : i ≠ .syscall)
    (hblocks : blocksOf i = .load rt rs offset extract) :
    DecodesTo i (fun op =>
      { op with regSrc1 := some rs, regSrc2 := none, regDst := some rt, isMem := true, memWrite := false }) ∧
    ExecutesTo i (fun _ op => op.regSrc1 = some rs ∧ op.regSrc2 = none ∧ op.isBranch = false)
      (fun core op =>
        { core with
          executeOp := none
          memOp := some
            { op with
              regSrc1Value := sourceValue core rs
              memAddr := sourceValue core rs + offset.signExtend 32 } }) ∧
    (∀ (s : State) (c : Nat) (core : CoreState) (op : Op) (dcache : L1) (l2 : L2), InStage s c .mem core →
      core.memOp = some op → op.isMem = true → op.memWrite = false →
      (l1Access s.cfg s.cycles core.id op.memAddr false true core.dcache s.l2 = (false, dcache, l2) →
        exec i s = .next (State.setCore { s with l2 := l2 } c { core with dcache := dcache })) ∧
      (l1Access s.cfg s.cycles core.id op.memAddr false true core.dcache s.l2 = (true, dcache, l2) →
        exec i s = .next (State.setCore { s with l2 := l2 } c
          { core with
            dcache := dcache
            memOp := none
            wbOp := some
              { op with
                regDstValue := extract op.memAddr (memRead32 s.cfg s.mem op.memAddr)
                regDstValueReady := true } }))) ∧
    Retires i := by
  refine ⟨(decodesTo_of_blocksOf hblocks :), ?_, ?_, retires_of_not_syscall hne⟩
  · rintro s c core op hstage hop hmem ⟨hsrc1, hsrc2, hbranch⟩
    rw [exec_leaves hstage hop hmem (by rw [hblocks]; rfl), resolveSources_first hmem hsrc1 hsrc2,
      leaveExecute_of_not_taken (by simp [hbranch])]
    rfl
  · intro s c core op dcache l2 hstage hop hmem hwrite
    refine ⟨exec_waits hstage hop hmem hwrite, fun haccess => ?_⟩
    rw [exec_loads hstage hop hmem hwrite haccess, hblocks]
    rfl

/-- The stage calls of a store with its merge, which keeps the bytes that `names` does not relate to its address (R450). -/
theorem store_stages (i : Instr) {rt rs : Reg} {offset : BitVec 16} {merge : Word → Word → Word → Word}
    {names : Nat → Nat → Prop} (hne : i ≠ .syscall) (hblocks : blocksOf i = .store rt rs offset merge)
    (hkeeps : KeepsBytes merge names) :
    DecodesTo i (fun op =>
      { op with regSrc1 := some rs, regSrc2 := some rt, regDst := none, isMem := true, memWrite := true }) ∧
    ExecutesTo i (fun _ op => op.regSrc1 = some rs ∧ op.regSrc2 = some rt ∧ op.isBranch = false)
      (fun core op =>
        { core with
          executeOp := none
          memOp := some
            { op with
              regSrc1Value := sourceValue core rs
              regSrc2Value := sourceValue core rt
              memAddr := sourceValue core rs + offset.signExtend 32
              memValue := sourceValue core rt } }) ∧
    (∀ (s : State) (c : Nat) (core : CoreState) (op : Op) (dcache : L1) (l2 : L2), InStage s c .mem core →
      core.memOp = some op → op.isMem = true → op.memWrite = true →
      (l1Access s.cfg s.cycles core.id op.memAddr true true core.dcache s.l2 = (false, dcache, l2) →
        exec i s = .next (State.setCore { s with l2 := l2 } c { core with dcache := dcache })) ∧
      (l1Access s.cfg s.cycles core.id op.memAddr true true core.dcache s.l2 = (true, dcache, l2) →
        ∃ mem : Memory,
          exec i s = .next (State.setCore { s with l2 := l2, mem := mem } c
            { core with dcache := dcache, memOp := none, wbOp := some op }) ∧
          mem = memWrite32 s.cfg s.mem op.memAddr
            (merge op.memAddr (memRead32 s.cfg s.mem op.memAddr) op.memValue) ∧
          (s.mem.wf = true → ∀ b : Nat, ¬names op.memAddr.toNat b → mem.readByte b = s.mem.readByte b))) ∧
    Retires i := by
  refine ⟨(decodesTo_of_blocksOf hblocks :), ?_, ?_, retires_of_not_syscall hne⟩
  · rintro s c core op hstage hop hmem ⟨hsrc1, hsrc2, hbranch⟩
    rw [exec_leaves hstage hop hmem (by rw [hblocks]; rfl), resolveSources_both hmem hsrc1 hsrc2,
      leaveExecute_of_not_taken (by simp [hbranch])]
    rfl
  · intro s c core op dcache l2 hstage hop hmem hwrite
    refine ⟨exec_waits hstage hop hmem hwrite, fun haccess => ⟨_, ?_, rfl, fun hwf b => hkeeps _ _ _ _ b hwf⟩⟩
    rw [exec_stores hstage hop hmem hwrite haccess, hblocks]
    rfl

/-- Settles O45: each row's word decodes to its instruction, whose Mem block extracts what the row says. -/
theorem loadInstructions : Obligations.LoadInstructions := by
  unfold Obligations.LoadInstructions
  refine fun rt rs offset p hp => ⟨?decodes, ?stages⟩
  case decodes =>
    revert p
    simp [decode]
  case stages =>
    revert p
    simp only [List.forall_mem_cons, List.not_mem_nil, false_implies, implies_true, and_true]
    exact ⟨load_stages (.lb rt rs offset) nofun rfl, load_stages (.lh rt rs offset) nofun rfl,
      load_stages (.lw rt rs offset) nofun rfl, load_stages (.lbu rt rs offset) nofun rfl,
      load_stages (.lhu rt rs offset) nofun rfl⟩

/-- Settles O46: each row's word decodes to its instruction, whose merge keeps the bytes that the row does not name. -/
theorem storeInstructions : Obligations.StoreInstructions := by
  unfold Obligations.StoreInstructions
  refine fun rt rs offset p hp => ⟨?decodes, ?stages⟩
  case decodes =>
    revert p
    simp [decode]
  case stages =>
    revert p
    simp only [List.forall_mem_cons, List.not_mem_nil, false_implies, implies_true, and_true]
    exact ⟨store_stages (.sb rt rs offset) nofun rfl mergeSb_keepsBytes,
      store_stages (.sh rt rs offset) nofun rfl mergeSh_keepsBytes,
      store_stages (.sw rt rs offset) nofun rfl mergeSw_keepsBytes⟩

end Sys2Proof.Machine
end

section
/-! SUPPORT. SYSCALL, stage by stage and alone in the pipeline: its services by the value of v0 (R650–R657). -/

namespace Sys2Proof.Machine

/-! ## The services, case by case (R652, R654–R657) -/

/-- A core's value set and then set again, another core set in between. -/
theorem State.setCore_setCore_other {t c : Nat} (s : State) (a target b : CoreState) (h : t ≠ c) :
    ((s.setCore c a).setCore t target).setCore c b = (s.setCore t target).setCore c b := by
  simp only [State.setCore, State.modifyCore]
  congr 1
  apply List.ext_getElem?
  intro k
  simp only [List.getElem?_modify]
  by_cases hc : c = k
  · subst hc
    simp [h, Function.comp_def]
  · simp [hc]

/-- The output stands beside the cores. -/
theorem State.setCore_withOutput (s : State) (c : Nat) (a : CoreState) (lines : List String) :
    { s.setCore c a with output := lines } = State.setCore { s with output := lines } c a := rfl

/-- The target of a spawn is idle exactly when the processor has it and it does not run (R656). -/
theorem idleTarget_of_core {s : State} {t : Nat} {target : CoreState} (h : s.cores[t]? = some target) :
    idleTarget s t = (decide (t < s.cfg.numCores) && !target.running) := by
  rw [idleTarget, h, Option.any_some]

section
variable {s : State} {c : Nat} {core : CoreState} {op : Op}

/-- A spawn of an idle core writes the target and the own register 3 (R656). -/
theorem serviceSpawn_of_idle {t id : Nat} {target : CoreState} (hcore : s.cores[c]? = some core) (htc : t ≠ c)
    (htarget : s.cores[t]? = some target) (hid : t ≠ id) (hidle : idleTarget s t = true) :
    serviceSpawn t c id op s =
      (s.setCore t (spawnInto op target)).setCore c { core with regs := core.regs.write Reg.v1 0#32 } := by
  rw [serviceSpawn, if_pos ⟨hid, hidle⟩, State.modifyCore_eq_setCore _ htarget,
    State.modifyCore_eq_setCore _ ((State.setCore_other _ htc.symm).trans hcore)]

/-- A spawn of itself or of a core that is not idle does nothing (R656). -/
theorem serviceSpawn_of_not_idle {t id : Nat} (h : t = id ∨ idleTarget s t = false) : serviceSpawn t c id op s = s := by
  refine if_neg fun ⟨hid, hidle⟩ => ?_
  rcases h with h | h
  · exact hid h
  · exact absurd (h.symm.trans hidle) Bool.false_ne_true

variable (hcore : s.cores[c]? = some core)
include hcore

theorem handleSyscall_halt (h : op.regSrc1Value = haltCode) :
    handleSyscall c op s = s.setCore c { core with pc := op.pc, running := false } := by
  simp only [handleSyscall, hcore, h, if_true]
  exact State.modifyCore_eq_setCore _ hcore

theorem handleSyscall_print (h : op.regSrc1Value = printCode) :
    handleSyscall c op s = { s with output := s.output ++ [printLine core.id op.regSrc2Value] } := by
  simp [handleSyscall, hcore, h, printCode, haltCode, servicePrint]

theorem handleSyscall_spawn (h : op.regSrc1Value ∈ spawnCodes) :
    handleSyscall c op s = serviceSpawn op.regSrc1Value.toNat c core.id op s := by
  have hhalt : op.regSrc1Value ≠ haltCode := fun e => absurd (e ▸ h) (by decide)
  have hprint : op.regSrc1Value ≠ printCode := fun e => absurd (e ▸ h) (by decide)
  simp only [handleSyscall, hcore, hhalt, hprint, h, if_true, if_false]

/-- Every other value of v0 asks for nothing (R657). -/
theorem handleSyscall_otherwise (hhalt : op.regSrc1Value ≠ haltCode) (hprint : op.regSrc1Value ≠ printCode)
    (hspawn : op.regSrc1Value ∉ spawnCodes) : handleSyscall c op s = s := by
  simp only [handleSyscall, hcore, hhalt, hprint, hspawn, if_false]

end

/-! ## Stage by stage (R650) -/

/-- Settles O47: SYSCALL's blocks decode two sources and no destination, and execute only resolves them. -/
theorem syscallInstruction : Obligations.SyscallInstruction := by
  unfold Obligations.SyscallInstruction
  refine ⟨fun rs rt rd shamt => ?_, decodesTo .syscall, ?_, passesMem .syscall⟩
  · simp [decode, decodeSpecial]
  · rintro s c core op hstage hop hmem ⟨hsrc1, hsrc2, hbranch⟩
    rw [exec_leaves hstage hop hmem (by rfl), resolveSources_both hmem hsrc1 hsrc2,
      leaveExecute_of_not_taken (by simp [hbranch])]

/-! ## The hexadecimal field of a printed line (R655) -/

/-- A number's digit is that of its last hexadecimal place, so a fact about the 16 digits is one about every `hexDigit`. -/
theorem hexDigit_mod (n : Nat) : hexDigit (n % 16) = hexDigit n := by
  rw [hexDigit, Nat.mod_mod, hexDigit]

@[simp] theorem hexDigitValue_hexDigit (n : Nat) : hexDigitValue (hexDigit n) = some (n % 16) := by
  have hdigit : ∀ d < 16, hexDigitValue (hexDigit d) = some d := by decide
  rw [← hexDigit_mod]
  exact hdigit _ (Nat.mod_lt n (by decide))

theorem hexDigit_lowercase (n : Nat) : hexDigit n ∈ "0123456789abcdef".toList := by
  have hdigit : ∀ d < 16, hexDigit d ∈ "0123456789abcdef".toList := by decide
  rw [← hexDigit_mod]
  exact hdigit _ (Nat.mod_lt n (by decide))

theorem hex8_toList (v : Word) :
    (hex8 v).toList = [7, 6, 5, 4, 3, 2, 1, 0].map fun k => hexDigit (v.toNat / 16 ^ k) := String.toList_ofList

/-- The eight digits of a word read back as the word. -/
theorem hexWord_hex8 (v : Word) : hexWord (hex8 v).toList = some v := by
  have hread : ([7, 6, 5, 4, 3, 2, 1, 0].map fun k => hexDigit (v.toNat / 16 ^ k)).mapM hexDigitValue =
      some ([7, 6, 5, 4, 3, 2, 1, 0].map fun k => v.toNat / 16 ^ k % 16) := by
    simp [List.mapM_cons]
  have hvalue : ([7, 6, 5, 4, 3, 2, 1, 0].map fun k => v.toNat / 16 ^ k % 16).foldl (fun n d => n * 16 + d) 0 =
      v.toNat := by
    have hlt := v.isLt
    simp only [List.map_cons, List.map_nil, List.foldl_cons, List.foldl_nil]
    omega
  rw [hex8_toList, hexWord, if_pos (by simp), hread, Option.map_some, hvalue, BitVec.ofNat_toNat, BitVec.setWidth_eq]

theorem hex8_lowercase (v : Word) : ∀ ch ∈ (hex8 v).toList, ch ∈ "0123456789abcdef".toList := by
  rw [hex8_toList]
  exact List.forall_mem_map.mpr fun k _ => hexDigit_lowercase _

/-! ## The services at writeback (R651–R657) -/

/-- Writeback with an op commits, makes its service and retires (R420, R651). -/
theorem wbStage_serves (service : Nat → Op → State → State) {s : State} {c : Nat} {core : CoreState} {op : Op}
    (hcore : s.cores[c]? = some core) (hop : core.wbOp = some op) :
    wbStage service c s = (service c op (s.modifyCore c (commitDst op))).modifyCore c retire := by
  simp only [wbStage, hcore, hop]

/-- The writeback of a SYSCALL leaves what its service makes of the machine, and the op is counted (R420, R651). -/
theorem exec_syscall_serves {s s' : State} {c : Nat} {core own : CoreState} {op : Op} (hstage : InStage s c .wb core)
    (hop : core.wbOp = some op) (hdst : op.regDst = none) (hcore' : s'.cores[c]? = some core)
    (hservice : handleSyscall c op s = s'.setCore c own) : exec .syscall s = .next (s'.setCore c (retire own)) := by
  obtain ⟨hfocus, hcore⟩ := hstage
  have hcommit : s.modifyCore c (commitDst op) = s := by
    rw [State.modifyCore_eq_setCore _ hcore, commitDst, hdst]
    exact setCore_self hcore
  rw [exec_eq_run, Blocks.run_wb _ hfocus, wbStage_serves _ hcore hop, hcommit,
    show (blocksOf .syscall).service = handleSyscall from rfl, hservice,
    State.modifyCore_eq_setCore _ (State.setCore_same own hcore'), State.setCore_setCore]

/-- Settles O48: each value of v0 asks for its service, and the op retires after it; the hex field is read digit by digit. -/
theorem syscallServices : Obligations.SyscallServices := by
  unfold Obligations.SyscallServices
  refine ⟨?_, fun v => ⟨hexWord_hex8 v, hex8_lowercase v⟩⟩
  intro s c core op hstage hop hdst hid done
  have hcore := hstage.2
  have hnothing (h : handleSyscall c op s = s) : exec .syscall s = .next (s.setCore c done) :=
    exec_syscall_serves hstage hop hdst hcore (h.trans (setCore_self hcore).symm)
  refine ⟨?halt, ?print, fun hspawn => ⟨?idle, ?notIdle⟩, ?otherwise⟩
  case halt => exact fun h => exec_syscall_serves hstage hop hdst hcore (handleSyscall_halt hcore h)
  case print =>
    intro h
    exact exec_syscall_serves hstage hop hdst (by exact hcore)
      ((handleSyscall_print hcore h).trans (setCore_self (by exact hcore)).symm)
  case idle =>
    intro target hother hexists htarget hidle
    have hspawns : idleTarget s op.regSrc1Value.toNat = true := by simp [idleTarget_of_core htarget, hexists, hidle]
    exact exec_syscall_serves hstage hop hdst ((State.setCore_other _ hother.symm).trans hcore)
      ((handleSyscall_spawn hcore hspawn).trans (serviceSpawn_of_idle hcore hother htarget (hid ▸ hother) hspawns))
  case notIdle =>
    intro hno
    refine hnothing ((handleSyscall_spawn hcore hspawn).trans (serviceSpawn_of_not_idle ?_))
    rcases hno with hself | habsent | ⟨target, htarget, hrunning⟩
    · exact .inl (hself.trans hid.symm)
    · exact .inr (by simp [idleTarget, habsent])
    · exact .inr (by simp [idleTarget_of_core htarget, hrunning])
  case otherwise =>
    intro hnone
    simp only [List.mem_cons, List.not_mem_nil, or_false, not_or] at hnone
    obtain ⟨hhalt, hprint, h1, h2, h3⟩ := hnone
    exact hnothing (handleSyscall_otherwise hcore hhalt hprint (by simp [spawnCodes, h1, h2, h3]))

/-! ## Alone in the pipeline -/

/-- A lone SYSCALL comes to writeback with $2 and $3 read, and nothing else changed (R650, R653). -/
theorem lonePassage_syscall {s : State} {c : Nat} {core : CoreState} {pc w : Word} (hcore : s.cores[c]? = some core)
    (halone : FreshlyFetchedAlone core pc w) :
    lonePassage .syscall c s = exec .syscall ((s.focusOn c .wb).setCore c
      { core with decodeOp := none, wbOp := some (resolvedOp .syscall core.regs pc w) }) := by
  have ⟨_, hexe, hmem, _⟩ := halone
  have hleave : leaveExecute (withExecuting (decodedOp .syscall pc w) core) (resolvedOp .syscall core.regs pc w) =
      { core with decodeOp := none, memOp := some (resolvedOp .syscall core.regs pc w) } := by
    rw [leaveExecute_of_not_taken rfl]
    simp [withExecuting, hexe]
  have hpass := passesMem .syscall ((s.focusOn c .mem).setCore c
    { core with decodeOp := none, memOp := some (resolvedOp .syscall core.regs pc w) }) c _ _
    ⟨rfl, State.setCore_same _ hcore⟩ rfl rfl
  rw [lonePassage_executes (i := .syscall) hcore halone rfl, hleave, hpass, andThen_next, State.setCore_setCore]
  simp [hmem]

/-- Settles O54: the services of a SYSCALL that comes to writeback alone, with $2 and $3 as v0 and v1. -/
theorem syscallCompletes : Obligations.SyscallCompletes := by
  unfold Obligations.SyscallCompletes
  intro s c core pc w hcore hid halone v0 v1 s' done
  subst hid
  rw [lonePassage_syscall hcore halone]
  have hdone : { core with decodeOp := none, wbOp := none, retired := core.retired + 1 } = done := by
    obtain ⟨-, -, -, hwb, -, -⟩ := halone
    simp [done, hwb]
  obtain ⟨hhalt, hprint, hspawn, hnone⟩ := syscallServices.1
    ((s.focusOn core.id .wb).setCore core.id
      { core with decodeOp := none, wbOp := some (resolvedOp .syscall core.regs pc w) }) _ _ _
    ⟨rfl, State.setCore_same _ hcore⟩ rfl rfl rfl
  refine ⟨fun h => ?_, fun h => ?_, fun target hmem hne hlt htarget hidle => ?_, fun h => ?_⟩
  · rw [hhalt h, State.setCore_setCore, ← hdone]
    rfl
  · rw [hprint h, State.setCore_withOutput, State.setCore_setCore, ← hdone]
    rfl
  · rw [(hspawn hmem).1 target hne hlt ((State.setCore_other _ hne).trans htarget) hidle, ← hdone]
    exact congrArg Host.Outcome.next (State.setCore_setCore_other s' _ _ _ hne)
  · rw [hnone h, State.setCore_setCore, ← hdone]
    rfl

end Sys2Proof.Machine
end

section
/-! SUPPORT. What a pipeline cycle of one core does to another: nothing before writeback, and in writeback a spawn at most
(R656, R659). -/

namespace Sys2Proof.Machine

/-! ## The stages that reach no other core -/

/-- Only a word that decodes to SYSCALL has a service at writeback (R420). -/
theorem service_none_or_syscall (w : Word) :
    (blocksOfWord w).service = noService ∨ decode w = .ok .syscall ∧ (blocksOfWord w).service = handleSyscall := by
  unfold blocksOfWord
  cases decode w with
  | error e => exact .inl rfl
  | ok i =>
    by_cases hi : i = .syscall
    · subst hi
      exact .inr ⟨rfl, rfl⟩
    · exact .inl (service_none_of_not_syscall i hi)

section
variable {s : State} {c k : Nat} (hk : k ≠ c)
include hk

theorem decodeStage_other (block : Op → Op) : (decodeStage block c s).cores[k]? = s.cores[k]? := by
  unfold decodeStage
  split
  · rfl
  · split
    · exact State.setCore_other _ hk
    · rfl

theorem executeStage_other (block : CoreState → Op → Option (CoreState × Op)) :
    (executeStage block c s).cores[k]? = s.cores[k]? := by
  unfold executeStage
  split
  · rfl
  · split
    · dsimp only
      split
      · exact State.setCore_other _ hk
      · split <;> exact State.setCore_other _ hk
    · rfl

theorem memStage_other (extract : Word → Word → Word) (merge : Word → Word → Word → Word) :
    (memStage extract merge c s).cores[k]? = s.cores[k]? := by
  cases hcore : s.cores[c]? with
  | none => simp [memStage, hcore]
  | some core =>
    obtain ⟨m, w, dcache, l2, mem, hframe, -⟩ := memStage_frame extract merge hcore
    rw [hframe]
    exact State.setCore_other _ hk

theorem fetchStage_other : (fetchStage c s).cores[k]? = s.cores[k]? := by
  unfold fetchStage
  split
  · rfl
  · split
    · rfl
    · exact State.setCore_other _ hk

/-- Before writeback an op reaches no core but its own. -/
theorem callRun_other {stage : Stage} (hstage : stage ≠ .wb) : (callRun c stage s).cores[k]? = s.cores[k]? := by
  rcases callRun_cases c stage s with h | ⟨core, op, -, -, h⟩
  · rw [h]
  · rw [h]
    cases stage with
    | decode => exact decodeStage_other hk _
    | execute => exact executeStage_other hk _
    | mem => exact memStage_other hk _ _
    | wb => exact absurd rfl hstage

/-- What a pipeline cycle does to another core, its writeback does. -/
theorem pipelineRun_other : (pipelineRun c s).cores[k]? = (callRun c .wb s).cores[k]? := by
  unfold pipelineRun
  rw [State.modifyCore_other _ hk, fetchStage_other hk, callRun_other hk (stage := .decode) nofun,
    callRun_other hk (stage := .execute) nofun, State.modifyCore_other _ hk, callRun_other hk (stage := .mem) nofun]

/-! ## The spawn -/

variable {core other : CoreState} (hcore : s.cores[c]? = some core) (hother : s.cores[k]? = some other)
include hcore hother

/-- SYSCALL's service leaves another core as it is, or spawns it. -/
theorem handleSyscall_other (op : Op) :
    (handleSyscall c op s).cores[k]? = some other ∨
      op.regSrc1Value ∈ spawnCodes ∧ op.regSrc1Value.toNat = k ∧ k ≠ core.id ∧ k < s.cfg.numCores ∧
        other.running = false ∧
        (handleSyscall c op s).cores[k]? = some (spawnInto op other) := by
  by_cases hhalt : op.regSrc1Value = haltCode
  · left
    rw [handleSyscall_halt hcore hhalt, State.setCore_other _ hk, hother]
  by_cases hprint : op.regSrc1Value = printCode
  · left
    rw [handleSyscall_print hcore hprint]
    exact hother
  by_cases hspawn : op.regSrc1Value ∈ spawnCodes
  · rw [handleSyscall_spawn hcore hspawn, serviceSpawn]
    split_ifs with hspawns
    · rw [State.modifyCore_other _ hk]
      by_cases htarget : op.regSrc1Value.toNat = k
      · rw [htarget, idleTarget_of_core hother, Bool.and_eq_true, decide_eq_true_eq, Bool.not_eq_true'] at hspawns
        obtain ⟨hself, hexists, hidle⟩ := hspawns
        rw [htarget]
        exact .inr ⟨hspawn, rfl, hself, hexists, hidle, State.modifyCore_same _ hother⟩
      · exact .inl ((State.modifyCore_other _ (Ne.symm htarget)).trans hother)
    · exact .inl hother
  · left
    rw [handleSyscall_otherwise hcore hhalt hprint hspawn, hother]

/-- A writeback call leaves another core as it is, or its op is a SYSCALL that spawns it. -/
theorem callRun_wb_other :
    (callRun c .wb s).cores[k]? = some other ∨
      ∃ op, core.wbOp = some op ∧ decode op.instruction = .ok .syscall ∧
        op.regSrc1Value ∈ spawnCodes ∧ op.regSrc1Value.toNat = k ∧ k ≠ core.id ∧ k < s.cfg.numCores ∧
        other.running = false ∧
        (callRun c .wb s).cores[k]? = some (spawnInto op other) := by
  cases hop : core.wbOp with
  | none => exact .inl (by simp [callRun, hcore, slotOf, hop, hother])
  | some op =>
    have hrun : callRun c .wb s = ((blocksOfWord op.instruction).service c op
        ((s.focusOn c .wb).modifyCore c (commitDst op))).modifyCore c retire := by
      simp only [callRun, hcore, Option.bind_some, slotOf, hop]
      rw [Blocks.run_wb _ rfl, wbStage_serves _ (by exact hcore) hop]
    have hcommitted : ((s.focusOn c .wb).modifyCore c (commitDst op)).cores[k]? = some other :=
      (State.modifyCore_other _ hk).trans hother
    rw [hrun, State.modifyCore_other _ hk]
    rcases service_none_or_syscall op.instruction with hservice | ⟨hdecode, hservice⟩
    · exact .inl (by rw [hservice, noService, hcommitted])
    · rw [hservice]
      refine (handleSyscall_other hk (State.modifyCore_same _ (by exact hcore)) hcommitted op).imp_right ?_
      exact fun hspawned => ⟨op, rfl, hdecode, hspawned⟩

end

/-- Settles O27: in a pipeline cycle only writeback reaches another core, and of writeback only a spawn. -/
theorem oneCoreReachesAnotherOnlyBySpawn : Obligations.OneCoreReachesAnotherOnlyBySpawn := by
  unfold Obligations.OneCoreReachesAnotherOnlyBySpawn
  intro s t c k own other hown hother hk hcycle
  obtain rfl : pipelineRun c s = t := Host.Outcome.next.inj ((pipelineCycle_next c s).symm.trans hcycle)
  rw [pipelineRun_other hk]
  exact callRun_wb_other hk hown hother

end Sys2Proof.Machine
end

section
/-! SUPPORT. A step as one processor cycle that never stops (R740–R742, R703), and the focus, which no part of the cycle reads
before it sets it (log 4). -/

namespace Sys2Proof.Machine

/-! ## The order of a cycle (R401, R740–R742) -/

/-- The DRAM's part of the cycle, by what `execute` completes (R740). -/
theorem dramPhase_eq (s : State) :
    dramPhase s =
      (let s' := { s with dram := (dramExecute s.cfg s.cycles s.dram).2 }
       match (dramExecute s.cfg s.cycles s.dram).1 with
       | some r => { s' with l2 := l2HandleCompletion s.cfg s.cycles r.addr s.l2 }
       | none => s') := by
  unfold dramPhase
  rcases dramExecute s.cfg s.cycles s.dram with ⟨_ | r, dram⟩ <;> rfl

/-- An idle core does not tick (R741). -/
theorem tickCore_of_idle {s : State} {c : Nat} {core : CoreState} (h : s.cores[c]? = some core)
    (hidle : core.running = false) : tickCore c s = .next s := by
  simp [tickCore, h, hidle]

/-- A running core makes one pipeline cycle (R741). -/
theorem tickCore_of_running {s : State} {c : Nat} {core : CoreState} (h : s.cores[c]? = some core)
    (hrun : core.running = true) : tickCore c s = pipelineCycle c s := by
  simp [tickCore, h, hrun]

theorem step_of_admitted {s : State} (h : configAdmitted s.cfg = true) : step s = processorCycle s := if_pos h

/-- Settles O5: the cycle's definition, with its order of the parts, of the cores and of the stage calls written out. -/
theorem stepIsOneProcessorCycle : Obligations.StepIsOneProcessorCycle := by
  unfold Obligations.StepIsOneProcessorCycle
  intro s hadmitted
  exact ⟨step_of_admitted hadmitted, dramPhase_eq s, fun _ _ => rfl,
    fun _ _ hcore => ⟨tickCore_of_idle hcore, tickCore_of_running hcore⟩⟩

/-! ## No instruction stops (R700, R703) -/

/-- Settles O24: every word's meaning runs its blocks, and the only refusal of a step is that of the configuration. -/
theorem onlyAConfigurationIsRefused : Obligations.OnlyAConfigurationIsRefused := by
  unfold Obligations.OnlyAConfigurationIsRefused
  refine ⟨fun i s => ⟨_, exec_eq_run i s⟩, fun s => ⟨_, execUnknown_eq_run s⟩,
    fun s => ⟨fun hadmitted => ?_, fun hrejected => ?_⟩⟩
  · exact ⟨cycleRun s, step_eq_next.mpr ⟨hadmitted, rfl⟩⟩
  · rw [step_eq, hrejected]
    rfl

/-! ## The focus (log 4) -/

/-- The focus `g` finds can show in nothing but the focus `g` leaves. -/
def IgnoresFocus (g : State → State) : Prop :=
  ∀ (s : State) (f : Focus), ∃ f' : Focus, g { s with focus := f } = { g s with focus := f' }

theorem IgnoresFocus.comp {g h : State → State} (hg : IgnoresFocus g) (hh : IgnoresFocus h) :
    IgnoresFocus fun s => g (h s) := by
  intro s f
  obtain ⟨f', hh⟩ := hh s f
  obtain ⟨f'', hg⟩ := hg (h s) f'
  exact ⟨f'', (congrArg g hh).trans hg⟩

theorem modifyCore_ignoresFocus (c : Nat) (change : CoreState → CoreState) :
    IgnoresFocus fun s => s.modifyCore c change :=
  fun _ f => ⟨f, rfl⟩

theorem dramPhase_ignoresFocus : IgnoresFocus dramPhase := by
  refine fun s f => ⟨f, ?_⟩
  unfold dramPhase
  dsimp only
  split <;> rfl

theorem deliver_ignoresFocus (r : RetItem) : IgnoresFocus fun s => deliver s r := by
  refine fun s f => ⟨f, ?_⟩
  unfold deliver
  dsimp only
  split <;> rfl

theorem foldl_deliver_ignoresFocus (items : List RetItem) : IgnoresFocus fun s => items.foldl deliver s := by
  induction items with
  | nil => exact fun _ f => ⟨f, rfl⟩
  | cons r rest ih => exact ih.comp (deliver_ignoresFocus r)

theorem l2Phase_ignoresFocus : IgnoresFocus l2Phase := by
  intro s f
  unfold l2Phase
  exact foldl_deliver_ignoresFocus _ { s with dram := _, l2 := _ } f

/-- A stage call sets the focus before it runs an op; without an op it does nothing. -/
theorem callRun_ignoresFocus (c : Nat) (stage : Stage) : IgnoresFocus (callRun c stage) := by
  intro s f
  unfold callRun
  dsimp only
  split
  · exact ⟨f, rfl⟩
  · exact ⟨_, rfl⟩

theorem fetchStage_ignoresFocus (c : Nat) : IgnoresFocus (fetchStage c) := by
  refine fun s f => ⟨f, ?_⟩
  unfold fetchStage
  dsimp only
  split
  · rfl
  · split <;> rfl

theorem pipelineRun_ignoresFocus (c : Nat) : IgnoresFocus (pipelineRun c) :=
  have hmem := (callRun_ignoresFocus c .mem).comp (callRun_ignoresFocus c .wb)
  have hexecute := (callRun_ignoresFocus c .execute).comp ((modifyCore_ignoresFocus c decrementMultiplier).comp hmem)
  have hfetch := (fetchStage_ignoresFocus c).comp ((callRun_ignoresFocus c .decode).comp hexecute)
  (modifyCore_ignoresFocus c applyRecoveryCore).comp hfetch

theorem tickRun_ignoresFocus (c : Nat) : IgnoresFocus (tickRun c) := by
  intro s f
  unfold tickRun
  dsimp only
  split
  · exact ⟨f, rfl⟩
  · split
    · exact pipelineRun_ignoresFocus c s f
    · exact ⟨f, rfl⟩

theorem ticksRun_ignoresFocus (cs : List Nat) : IgnoresFocus (ticksRun cs) := by
  induction cs with
  | nil => exact fun _ f => ⟨f, rfl⟩
  | cons c rest ih => exact ih.comp (tickRun_ignoresFocus c)

/-- The cycle's end puts the focus back, so what the parts left in it is lost. -/
theorem cycleRun_focus (s : State) (f : Focus) : cycleRun { s with focus := f } = cycleRun s := by
  have hparts : IgnoresFocus fun s' => ticksRun (List.range s.cfg.numCores) (l2Phase (dramPhase s')) :=
    (ticksRun_ignoresFocus _).comp (l2Phase_ignoresFocus.comp dramPhase_ignoresFocus)
  obtain ⟨f', hparts⟩ := hparts s f
  calc cycleRun { s with focus := f }
    _ = countCycle { ticksRun (List.range s.cfg.numCores) (l2Phase (dramPhase s)) with focus := f' } :=
      congrArg countCycle hparts
    _ = cycleRun s := rfl

/-- Settles O26: no part of the cycle shows the focus it finds but in the focus it leaves, which the count overwrites. -/
theorem stepIgnoresTheFocus : Obligations.StepIgnoresTheFocus := by
  unfold Obligations.StepIgnoresTheFocus
  intro s f
  rw [step_eq, step_eq, cycleRun_focus]

end Sys2Proof.Machine
end

section
/-! SUPPORT. `go` as the fuel-bounded run, one cycle at a time (R745, log 15). -/

namespace Sys2Proof.Machine

/-- `go` ends in `t` after exactly `n` cycles. -/
def GoEndsAfter (n : Nat) (s t : State) : Prop :=
  runCycles n s = .next t ∧ activeCoresCount t = 0 ∧
    ∀ k, k < n → ∃ u, runCycles k s = .next u ∧ activeCoresCount u ≠ 0

theorem goEnds_iff {s t : State} : GoEnds s t ↔ ∃ n, GoEndsAfter n s t := Iff.rfl

theorem runCycles_succ_eq_next {n : Nat} {s t : State} :
    runCycles (n + 1) s = .next t ↔ ∃ u, step s = .next u ∧ runCycles n u = .next t := andThen_eq_next

theorem goWithin_of_idle {s : State} (h : activeCoresCount s = 0) (n : Nat) : goWithin n s = .next s := by
  cases n with
  | zero => rfl
  | succ n => exact if_pos h

theorem goWithin_succ_of_active {s : State} (h : activeCoresCount s ≠ 0) (n : Nat) :
    goWithin (n + 1) s = andThen (step s) (goWithin n) := if_neg h

theorem goEndsAfter_zero {s t : State} : GoEndsAfter 0 s t ↔ t = s ∧ activeCoresCount s = 0 := by
  constructor
  · rintro ⟨hrun, hidle, -⟩
    obtain rfl : s = t := Host.Outcome.next.inj hrun
    exact ⟨rfl, hidle⟩
  · rintro ⟨rfl, hidle⟩
    exact ⟨rfl, hidle, nofun⟩

/-- To end after one more cycle is to run a core now and to end from the next boundary. -/
theorem goEndsAfter_succ {n : Nat} {s t : State} :
    GoEndsAfter (n + 1) s t ↔ activeCoresCount s ≠ 0 ∧ ∃ u, step s = .next u ∧ GoEndsAfter n u t := by
  constructor
  · rintro ⟨hrun, hidle, hbusy⟩
    obtain ⟨u, hstep, hrest⟩ := runCycles_succ_eq_next.mp hrun
    obtain ⟨s', hs', hactive⟩ := hbusy 0 n.succ_pos
    obtain rfl : s = s' := Host.Outcome.next.inj hs'
    refine ⟨hactive, u, hstep, hrest, hidle, fun k hk => ?_⟩
    obtain ⟨v, hv, hvactive⟩ := hbusy (k + 1) (Nat.succ_lt_succ hk)
    obtain ⟨u', hstep', hv⟩ := runCycles_succ_eq_next.mp hv
    obtain rfl : u = u' := Host.Outcome.next.inj (hstep.symm.trans hstep')
    exact ⟨v, hv, hvactive⟩
  · rintro ⟨hactive, u, hstep, hrest, hidle, hbusy⟩
    refine ⟨runCycles_succ_eq_next.mpr ⟨u, hstep, hrest⟩, hidle, fun k hk => ?_⟩
    cases k with
    | zero => exact ⟨s, rfl, hactive⟩
    | succ k =>
      obtain ⟨v, hv, hvactive⟩ := hbusy k (Nat.lt_of_succ_lt_succ hk)
      exact ⟨v, runCycles_succ_eq_next.mpr ⟨u, hstep, hv⟩, hvactive⟩

/-- Where the fuelled run stops idle, `go` ends. -/
theorem goEnds_of_goWithin {n : Nat} {s t : State} (h : goWithin n s = .next t) (hidle : activeCoresCount t = 0) :
    GoEnds s t := by
  induction n generalizing s with
  | zero =>
    obtain rfl : s = t := Host.Outcome.next.inj h
    exact ⟨0, goEndsAfter_zero.mpr ⟨rfl, hidle⟩⟩
  | succ n ih =>
    by_cases hactive : activeCoresCount s = 0
    · obtain rfl : s = t := Host.Outcome.next.inj ((goWithin_of_idle hactive _).symm.trans h)
      exact ⟨0, goEndsAfter_zero.mpr ⟨rfl, hidle⟩⟩
    · rw [goWithin_succ_of_active hactive, andThen_eq_next] at h
      obtain ⟨u, hstep, hrest⟩ := h
      obtain ⟨k, hends⟩ := goEnds_iff.mp (ih hrest)
      exact ⟨k + 1, goEndsAfter_succ.mpr ⟨hactive, u, hstep, hends⟩⟩

/-- Where `go` ends after `n` cycles, the run with that fuel or more answers its end. -/
theorem goWithin_of_goEndsAfter {n m : Nat} {s t : State} (h : GoEndsAfter n s t) (hm : n ≤ m) :
    goWithin m s = .next t := by
  induction n generalizing s m with
  | zero =>
    obtain ⟨rfl, hidle⟩ := goEndsAfter_zero.mp h
    exact goWithin_of_idle hidle m
  | succ n ih =>
    obtain ⟨hactive, u, hstep, hends⟩ := goEndsAfter_succ.mp h
    cases m with
    | zero => exact absurd hm (Nat.not_succ_le_zero n)
    | succ m =>
      rw [goWithin_succ_of_active hactive, hstep, andThen_next]
      exact ih hends (Nat.le_of_succ_le_succ hm)

/-- Two ends of `go` are the answers of one run with fuel enough for both. -/
theorem GoEnds.unique {s t t' : State} (h : GoEnds s t) (h' : GoEnds s t') : t = t' := by
  obtain ⟨n, h⟩ := goEnds_iff.mp h
  obtain ⟨n', h'⟩ := goEnds_iff.mp h'
  exact Host.Outcome.next.inj
    ((goWithin_of_goEndsAfter h (Nat.le_max_left n n')).symm.trans (goWithin_of_goEndsAfter h' (Nat.le_max_right n n')))

/-- Settles O59, by induction on the fuel one way and on the cycle of the end the other way. -/
theorem goStopsAtTheFirstIdleBoundary : Obligations.GoStopsAtTheFirstIdleBoundary := by
  unfold Obligations.GoStopsAtTheFirstIdleBoundary
  refine ⟨fun _ _ _ => goEnds_of_goWithin, fun s t hends => ?_, fun _ _ _ => GoEnds.unique⟩
  obtain ⟨n, hends⟩ := goEnds_iff.mp hends
  exact ⟨n, fun _ => goWithin_of_goEndsAfter hends⟩

end Sys2Proof.Machine
end

section
/-! SUPPORT. What the loader leaves of memory, and the three answers of a launch (R800, R802, R804). -/

namespace Sys2Proof.Machine

/-! ## The loader (R802) -/

theorem loadImage_cons (cfg : Config) (r : Word × Word) (img : Image) (m : Memory) :
    loadImage cfg (r :: img) m = loadImage cfg img (memWrite32 cfg m r.1 r.2) := rfl

theorem loadImage_append (cfg : Config) (before after : Image) (m : Memory) :
    loadImage cfg (before ++ after) m = loadImage cfg after (loadImage cfg before m) := List.foldl_append

/-- Records of other words leave what a word reads as. -/
theorem memRead32_loadImage_other {cfg : Config} {img : Image} {a : Word} (m : Memory)
    (h : ∀ r ∈ img, alignWord r.1 ≠ alignWord a) : memRead32 cfg (loadImage cfg img m) a = memRead32 cfg m a := by
  induction img generalizing m with
  | nil => rfl
  | cons r rest ih =>
    obtain ⟨hr, hrest⟩ := List.forall_mem_cons.mp h
    rw [loadImage_cons, ih _ hrest, memRead32_memWrite32_other r.2 hr.symm]

/-- Records of other words leave a byte. -/
theorem readByte_loadImage_other {cfg : Config} {img : Image} {b : Nat} (m : Memory)
    (h : ∀ r ∈ img, b / 4 ≠ r.1.toNat / 4) : (loadImage cfg img m).readByte b = m.readByte b := by
  induction img generalizing m with
  | nil => rfl
  | cons r rest ih =>
    obtain ⟨hr, hrest⟩ := List.forall_mem_cons.mp h
    rw [loadImage_cons, ih _ hrest, memWrite32_readByte_other r.2 b hr]

/-- A mapped word reads as its last record says: that record is written over what those before it left, and those after it are
of other words. -/
theorem memRead32_loadImage_last {cfg : Config} {before after : Image} {m : Memory} {a : Word} (d : Word) (hwf : m.wf = true)
    (hmap : isMapped cfg a = true) (hlast : ∀ r ∈ after, alignWord r.1 ≠ alignWord a) :
    memRead32 cfg (loadImage cfg (before ++ (a, d) :: after) m) a = d := by
  rw [loadImage_append, loadImage_cons, memRead32_loadImage_other _ hlast]
  exact memRead32_memWrite32_same d (loadImage_wf cfg before hwf) hmap rfl

/-! ## The launch (R800, R804) -/

theorem imageMapped_iff {cfg : Config} {img : Image} :
    imageMapped cfg img = true ↔ ∀ r ∈ img, isMapped cfg r.1 = true := List.all_eq_true

theorem launch_of_not_admitted {cfg : Config} (img : Image) (h : configAdmitted cfg = false) :
    launch cfg img = .refused .configurationNotAdmitted := by
  simp [launch, h]

theorem launch_of_not_mapped {cfg : Config} {img : Image} (h : configAdmitted cfg = true)
    (himg : imageMapped cfg img = false) : launch cfg img = .refused .imageOutsideMapped := by
  simp [launch, h, himg]

theorem launch_of_mapped {cfg : Config} {img : Image} (h : configAdmitted cfg = true)
    (himg : imageMapped cfg img = true) :
    launch cfg img = .next { State.resetWith cfg with mem := loadImage cfg img [] } := by
  simp [launch, h, himg]

/-- Settles O57: each answer of a launch, with the image's last record of a word split off from those before and after it. -/
theorem launchLoadsTheImage : Obligations.LaunchLoadsTheImage := by
  unfold Obligations.LaunchLoadsTheImage
  refine fun cfg img => ⟨launch_of_not_admitted img, fun hadmitted hout => ?_, fun hadmitted hmapped => ?_⟩
  · obtain ⟨r, hr, hunmapped⟩ := hout
    have hnot : ¬ imageMapped cfg img = true := fun hall =>
      Bool.false_ne_true (hunmapped.symm.trans (imageMapped_iff.mp hall r hr))
    exact launch_of_not_mapped hadmitted (Bool.eq_false_iff.mpr hnot)
  · refine ⟨loadImage cfg img [], launch_of_mapped hadmitted (imageMapped_iff.mpr hmapped), loadImage_wf cfg img rfl,
      fun before after a d himg hlast => ?_, fun b hb => readByte_loadImage_other [] hb⟩
    subst himg
    exact memRead32_loadImage_last d rfl (hmapped (a, d) (by simp)) hlast

end Sys2Proof.Machine
end

section
/-! SUPPORT. An L2 access and an L1 access, case by case (R213, R223, R242). -/

namespace Sys2Proof.Machine

/-! ## The MSHRs an access finds (R242) -/

theorem findMshr_eq_some_iff {mshrs : List Mshr} {block : Word} {k : Nat} :
    findMshr mshrs block = some k ↔
      (∃ m, mshrs[k]? = some m ∧ m.valid = true ∧ m.addr = block) ∧
        ∀ j m, j < k → mshrs[j]? = some m → ¬(m.valid = true ∧ m.addr = block) := by
  constructor
  · intro h
    obtain ⟨hlt, hfound, hlow⟩ := List.findIdx?_eq_some_iff_getElem.mp h
    simp only [Bool.and_eq_true, decide_eq_true_eq] at hfound hlow
    refine ⟨⟨_, List.getElem?_eq_getElem hlt, hfound⟩, fun j m hj hm => ?_⟩
    obtain ⟨_, rfl⟩ := List.getElem?_eq_some_iff.mp hm
    exact hlow j hj
  · rintro ⟨⟨m, hm, hvalid, haddr⟩, hlow⟩
    exact findMshr_eq_some hm hvalid haddr hlow

theorem findMshr_eq_none_iff {mshrs : List Mshr} {block : Word} :
    findMshr mshrs block = none ↔ ∀ m ∈ mshrs, ¬(m.valid = true ∧ m.addr = block) := by
  simp [findMshr, List.findIdx?_eq_none_iff]

theorem invalid_of_freeMshr {mshrs : List Mshr} {k : Nat} (h : freeMshr mshrs = some k) :
    ∃ m, mshrs[k]? = some m ∧ m.valid = false := by
  obtain ⟨hlt, hfree, -⟩ := List.findIdx?_eq_some_iff_getElem.mp h
  exact ⟨_, List.getElem?_eq_getElem hlt, by simpa using hfree⟩

/-! ## The four answers of the L2 (R242) -/

/-- The MSHR of a block that misses. -/
def mshrOf (addr : Word) (isWrite : Bool) (requesters : List Nat) : Mshr :=
  { valid := true, addr := blockAddr addr, isWrite := isWrite, requesters := requesters, done := false, readyCycle := 0 }

/-- The item of `req_queue` for a block that misses in cycle `t`. -/
def reqItemOf (cfg : Config) (t : Nat) (addr : Word) (isWrite : Bool) (id : Nat) : ReqItem :=
  { addr := blockAddr addr, isWrite := isWrite, coreId := id, readyCycle := t + cfg.l2ToDramDelay }

section
variable {l2 : L2} {addr : Word} (cfg : Config) (t : Nat) (isWrite : Bool) (id : Nat)

theorem l2Access_hit {way : Nat} (h : probe l2.sets addr = some way) :
    l2Access cfg t addr isWrite id l2 = (.hit, { l2 with sets := hitBlock l2.sets addr way isWrite }) := by
  simp [l2Access, h]

theorem l2Access_merge {k : Nat} {m : Mshr} (h : probe l2.sets addr = none)
    (hfind : findMshr l2.mshrs (blockAddr addr) = some k) (hk : l2.mshrs[k]? = some m) :
    l2Access cfg t addr isWrite id l2 =
      (.miss, { l2 with mshrs := l2.mshrs.set k { m with requesters := addRequester id m.requesters } }) := by
  simp [l2Access, h, hfind, modify_eq_set_of_getElem? _ hk]

theorem l2Access_allocate {k : Nat} (h : probe l2.sets addr = none) (hfind : findMshr l2.mshrs (blockAddr addr) = none)
    (hfree : freeMshr l2.mshrs = some k) :
    l2Access cfg t addr isWrite id l2 =
      (.miss, { l2 with
        mshrs := l2.mshrs.set k (mshrOf addr isWrite [id])
        reqQueue := l2.reqQueue ++ [reqItemOf cfg t addr isWrite id] }) := by
  simp [l2Access, h, hfind, hfree, mshrOf, reqItemOf]

theorem l2Access_busy (h : probe l2.sets addr = none) (hfind : findMshr l2.mshrs (blockAddr addr) = none)
    (hfree : freeMshr l2.mshrs = none) : l2Access cfg t addr isWrite id l2 = (.busy, l2) := by
  simp [l2Access, h, hfind, hfree]

/-- All an L2 access can do: hit, merge, allocate, or nothing. -/
theorem l2Access_cases (l2 : L2) (addr : Word) :
    (∃ way, probe l2.sets addr = some way ∧
      l2Access cfg t addr isWrite id l2 = (.hit, { l2 with sets := hitBlock l2.sets addr way isWrite })) ∨
    (∃ k m, l2.mshrs[k]? = some m ∧ m.valid = true ∧ m.addr = blockAddr addr ∧
      l2Access cfg t addr isWrite id l2 =
        (.miss, { l2 with mshrs := l2.mshrs.set k { m with requesters := addRequester id m.requesters } })) ∨
    (∃ k free, probe l2.sets addr = none ∧ (∀ m ∈ l2.mshrs, ¬(m.valid = true ∧ m.addr = blockAddr addr)) ∧
      l2.mshrs[k]? = some free ∧ free.valid = false ∧
      l2Access cfg t addr isWrite id l2 =
        (.miss, { l2 with
          mshrs := l2.mshrs.set k (mshrOf addr isWrite [id])
          reqQueue := l2.reqQueue ++ [reqItemOf cfg t addr isWrite id] })) ∨
    l2Access cfg t addr isWrite id l2 = (.busy, l2) := by
  cases hprobe : probe l2.sets addr with
  | some way => exact .inl ⟨way, rfl, l2Access_hit cfg t isWrite id hprobe⟩
  | none =>
    cases hfind : findMshr l2.mshrs (blockAddr addr) with
    | some k =>
      obtain ⟨⟨m, hk, hvalid, haddr⟩, -⟩ := findMshr_eq_some_iff.mp hfind
      exact .inr (.inl ⟨k, m, hk, hvalid, haddr, l2Access_merge cfg t isWrite id hprobe hfind hk⟩)
    | none =>
      cases hfree : freeMshr l2.mshrs with
      | some k =>
        obtain ⟨free, hk, hinvalid⟩ := invalid_of_freeMshr hfree
        exact .inr (.inr (.inl ⟨k, free, rfl, findMshr_eq_none_iff.mp hfind, hk, hinvalid,
          l2Access_allocate cfg t isWrite id hprobe hfind hfree⟩))
      | none => exact .inr (.inr (.inr (l2Access_busy cfg t isWrite id hprobe hfind hfree)))

/-- A second miss on a block finds the MSHR that the first one took (R246). -/
theorem l2Access_merge_allocated {k : Nat} {m : Mshr} {addr' : Word} (hprobe : probe l2.sets addr = none)
    (hnone : ∀ m ∈ l2.mshrs, ¬(m.valid = true ∧ m.addr = blockAddr addr)) (hk : l2.mshrs[k]? = some m)
    (requesters : List Nat) (queue : List ReqItem) (hblock : blockAddr addr' = blockAddr addr) (isWrite' : Bool) :
    l2Access cfg t addr' isWrite' id { l2 with mshrs := l2.mshrs.set k (mshrOf addr isWrite requesters), reqQueue := queue } =
      (.miss, { l2 with
        mshrs := l2.mshrs.set k (mshrOf addr isWrite (addRequester id requesters)), reqQueue := queue }) := by
  have hnew : (l2.mshrs.set k (mshrOf addr isWrite requesters))[k]? = some (mshrOf addr isWrite requesters) := by
    simp [(List.getElem?_eq_some_iff.mp hk).1]
  have hfind : findMshr (l2.mshrs.set k (mshrOf addr isWrite requesters)) (blockAddr addr') = some k := by
    refine findMshr_eq_some hnew rfl hblock.symm fun j m' hj hm' => ?_
    rw [List.getElem?_set_ne (by omega)] at hm'
    rw [hblock]
    exact hnone m' (List.mem_of_getElem? hm')
  rw [l2Access_merge cfg t isWrite' id (by exact (probe_eq_of_blockAddr _ hblock).trans hprobe) hfind hnew, List.set_set]
  rfl

end

/-- Settles O33: one equation for each of the L2's answers, and the MSHR of the first miss is the one the second finds. -/
theorem missesToOneBlockShareOneRequest : Obligations.MissesToOneBlockShareOneRequest := by
  unfold Obligations.MissesToOneBlockShareOneRequest
  intro cfg t t' c c' addr addr' w w' l2
  refine ⟨fun way hprobe => ?_, fun k m hprobe hk hvalid haddr hlow => ?_, fun hprobe hnone => ⟨?_, fun hfull => ?_⟩⟩
  · exact ⟨_, l2Access_hit cfg t w c hprobe, hitBlock_leaves w hprobe⟩
  · exact ⟨_, l2Access_merge cfg t w c hprobe (findMshr_eq_some hk hvalid haddr hlow) hk,
      fun x => mem_addRequester c x m.requesters⟩
  · rintro k ⟨free, hk, hfree⟩ hlow
    have hfirst := l2Access_allocate cfg t w c hprobe (findMshr_eq_none hnone) (freeMshr_eq_some hk hfree hlow)
    refine ⟨hfirst, fun hblock => ⟨addRequester c' [c], ?_, fun x => ?_⟩⟩
    · rw [hfirst]
      exact l2Access_merge_allocated cfg t' w c' hprobe hnone hk [c] _ hblock w'
    · rw [mem_addRequester, List.mem_singleton, or_comm]
  · exact l2Access_busy cfg t w c hprobe (findMshr_eq_none hnone) (freeMshr_eq_none hfull)

/-! ## The steps of an L1 access (R223) -/

/-- The L1 after its pending miss has been filled (R224). -/
def l1Filled (l1 : L1) : L1 := { l1 with sets := install l1.sets l1.pendingMissAddr, pendingMiss := false }

theorem l1Fill_eq (addr : Word) (l1 : L1) :
    l1Fill addr l1 =
      if l1.pendingMiss = true ∧ blockAddr addr = blockAddr l1.pendingMissAddr then l1Filled l1 else l1 := by
  simp [l1Fill, l1Filled]

theorem l1FillIfReady_of_clear {l1 : L1} (t : Nat) (h : l1.pendingMiss = false) : l1FillIfReady t l1 = l1 := by
  simp [l1FillIfReady, h]

theorem l1FillIfReady_of_ready {l1 : L1} {t r : Nat} (h : l1.pendingMiss = true) (hready : l1.pendingMissReady = some r)
    (hr : r ≤ t) : l1FillIfReady t l1 = l1Filled l1 := by
  simp [l1FillIfReady, h, hready, readyReached, hr, l1Fill_eq]

theorem l1FillIfReady_of_waiting {l1 : L1} {t : Nat}
    (hwait : l1.pendingMissReady = none ∨ ∃ r, l1.pendingMissReady = some r ∧ t < r) : l1FillIfReady t l1 = l1 := by
  rcases hwait with hnone | ⟨r, hready, hr⟩
  · simp [l1FillIfReady, hnone, readyReached]
  · simp [l1FillIfReady, hready, readyReached, hr]

/-- Step 1 of R223 fills the pending miss or leaves the L1. -/
theorem l1FillIfReady_cases (t : Nat) (l1 : L1) :
    l1FillIfReady t l1 = l1 ∨ l1FillIfReady t l1 = l1Fill l1.pendingMissAddr l1 := by
  unfold l1FillIfReady
  split
  · exact .inr rfl
  · exact .inl rfl

/-- What step 4 of R223 makes of the L1, by the L2's answer. -/
def l1AfterMiss (cfg : Config) (t : Nat) (addr : Word) (answer : L2Answer) (l1 : L1) : L1 :=
  match answer with
  | .hit => l1Latch addr (some (t + cfg.l2HitLatency)) l1
  | .miss => l1Latch addr none l1
  | .busy => l1

section
variable (cfg : Config) (t id : Nat) (addr : Word) (isWrite isData : Bool) {l1 : L1} (l2 : L2)

theorem l1Access_blocked (h : (l1FillIfReady t l1).pendingMiss = true) :
    l1Access cfg t id addr isWrite isData l1 l2 = (false, l1FillIfReady t l1, l2) := by
  simp [l1Access, h]

theorem l1Access_hit {way : Nat} (h : (l1FillIfReady t l1).pendingMiss = false)
    (hprobe : probe (l1FillIfReady t l1).sets addr = some way) :
    l1Access cfg t id addr isWrite isData l1 l2 =
      (true, { l1FillIfReady t l1 with sets := hitBlock (l1FillIfReady t l1).sets addr way isWrite }, l2) := by
  simp [l1Access, h, hprobe]

theorem l1Access_miss (h : (l1FillIfReady t l1).pendingMiss = false)
    (hprobe : probe (l1FillIfReady t l1).sets addr = none) :
    l1Access cfg t id addr isWrite isData l1 l2 =
      (false, l1AfterMiss cfg t addr (l2Access cfg t addr isWrite id l2).1 (l1FillIfReady t l1),
        (l2Access cfg t addr isWrite id l2).2) := by
  rcases hanswer : l2Access cfg t addr isWrite id l2 with ⟨answer, after⟩
  cases answer <;> simp [l1Access, h, hprobe, hanswer, l1AfterMiss]

/-- The access of an L1 whose pending miss is ready is that of the filled L1. -/
theorem l1Access_of_ready {r : Nat} (h : l1.pendingMiss = true) (hready : l1.pendingMissReady = some r) (hr : r ≤ t) :
    l1Access cfg t id addr isWrite isData l1 l2 = l1Access cfg t id addr isWrite isData (l1Filled l1) l2 := by
  have hfilled : l1FillIfReady t (l1Filled l1) = l1Filled l1 := l1FillIfReady_of_clear t rfl
  simp only [l1Access, l1FillIfReady_of_ready h hready hr, hfilled]

end

/-- Settles O32: the equation of each step, on an L1 that step 1 fills or leaves. -/
theorem l1AccessFollowsItsFourSteps : Obligations.L1AccessFollowsItsFourSteps := by
  unfold Obligations.L1AccessFollowsItsFourSteps
  intro cfg t id addr isWrite isData l1 l2
  refine ⟨fun r h hready hr => l1Access_of_ready cfg t id addr isWrite isData l2 h hready hr, fun h hwait => ?_,
    fun hclear => ?_, l1Fill_eq addr l1⟩
  · have hleft := l1FillIfReady_of_waiting hwait
    rw [l1Access_blocked cfg t id addr isWrite isData l2 (hleft.symm ▸ h), hleft]
  · have hleft := l1FillIfReady_of_clear t hclear
    have hclear' : (l1FillIfReady t l1).pendingMiss = false := hleft.symm ▸ hclear
    refine ⟨fun w hprobe => ⟨_, ?_, hitBlock_leaves isWrite hprobe⟩, fun hprobe l2' => ?_⟩
    · rw [l1Access_hit cfg t id addr isWrite isData l2 hclear' (hleft.symm ▸ hprobe), hleft]
    · have hmiss := l1Access_miss cfg t id addr isWrite isData l2 hclear' (hleft.symm ▸ hprobe)
      rw [hleft] at hmiss
      refine ⟨fun hanswer => ?_, fun hanswer => ?_, fun hanswer => ?_⟩ <;>
        rw [hmiss, hanswer] <;> rfl

end Sys2Proof.Machine
end

section
/-! SUPPORT. What a hit and an install do to a set, said once (R213–R215), and that both keep R217. -/

namespace Sys2Proof.Machine

/-! ## Lists -/

/-- Distinct values on the elements that a filter keeps, by places of the whole list. -/
theorem nodup_map_filter_iff {α β : Type} {p : α → Bool} {f : α → β} {l : List α} :
    ((l.filter p).map f).Nodup ↔
      ∀ (i j : Nat) (a b : α), i ≠ j → l[i]? = some a → l[j]? = some b → p a = true → p b = true →
        f a ≠ f b := by
  rw [List.Nodup, List.pairwise_map, List.pairwise_filter, List.pairwise_iff_getElem]
  constructor
  · intro h i j a b hij ha hb hpa hpb
    obtain ⟨hi, rfl⟩ := List.getElem?_eq_some_iff.mp ha
    obtain ⟨hj, rfl⟩ := List.getElem?_eq_some_iff.mp hb
    rcases Nat.lt_or_gt_of_ne hij with hlt | hgt
    · exact h i j hi hj hlt hpa hpb
    · exact (h j i hj hi hgt hpb hpa).symm
  · intro h i j hi hj hlt
    exact h i j _ _ (Nat.ne_of_lt hlt) (List.getElem?_eq_getElem hi) (List.getElem?_eq_getElem hj)

/-- A list of numbers is a permutation of those below its length if they are distinct and below it. -/
theorem perm_range_length_iff {l : List Nat} : l.Perm (List.range l.length) ↔ l.Nodup ∧ ∀ x ∈ l, x < l.length := by
  constructor
  · intro h
    exact ⟨h.nodup_iff.mpr List.nodup_range, fun x hx => List.mem_range.mp (h.mem_iff.mp hx)⟩
  · rintro ⟨hnodup, hlt⟩
    exact (hnodup.subperm fun x hx => List.mem_range.mpr (hlt x hx)).perm_of_length_le (by simp)

/-! ## A set that keeps R217, by its ways -/

theorem blockValid_iff {b : CacheBlock} : blockValid b = true ↔ b.state ≠ .invalid := by simp [blockValid]

theorem length_validBlocks (ways : CacheSet) : (validBlocks ways).length = (ways.map blockValid).countP id := by
  rw [validBlocks, ← List.countP_eq_length_filter, List.countP_map]
  rfl

/-- Valid blocks at different places differ in `f`. -/
def DifferIn {β : Type} (f : CacheBlock → β) (ways : CacheSet) : Prop :=
  ∀ (u v : Nat) (a b : CacheBlock), u ≠ v → ways[u]? = some a → ways[v]? = some b → a.state ≠ .invalid →
    b.state ≠ .invalid → f a ≠ f b

theorem differIn_iff {β : Type} {f : CacheBlock → β} {ways : CacheSet} :
    DifferIn f ways ↔ ((validBlocks ways).map f).Nodup := by
  simp only [DifferIn, validBlocks, nodup_map_filter_iff, blockValid_iff]

theorem lruPerm_iff {ways : CacheSet} :
    ((validBlocks ways).map (·.lru)).Perm (List.range (validBlocks ways).length) ↔
      DifferIn (·.lru) ways ∧ ∀ b ∈ ways, b.state ≠ .invalid → b.lru < (validBlocks ways).length := by
  have hperm := perm_range_length_iff (l := (validBlocks ways).map (·.lru))
  rw [List.length_map] at hperm
  rw [hperm, differIn_iff, List.forall_mem_map]
  simp [validBlocks, blockValid_iff]

/-! ## The block that becomes the youngest -/

/-- A way when the block `old` of another way gives its place to a youngest one: a valid block ages if `old` was invalid or
older than it (R213, R215). -/
def aged (old b : CacheBlock) : CacheBlock :=
  if b.state ≠ .invalid ∧ (old.state = .invalid ∨ b.lru < old.lru) then { b with lru := b.lru + 1 } else b

@[simp] theorem aged_state (old b : CacheBlock) : (aged old b).state = b.state := by unfold aged; split <;> rfl
@[simp] theorem aged_tag (old b : CacheBlock) : (aged old b).tag = b.tag := by unfold aged; split <;> rfl
@[simp] theorem aged_dirty (old b : CacheBlock) : (aged old b).dirty = b.dirty := by unfold aged; split <;> rfl

theorem aged_lru {b : CacheBlock} (old : CacheBlock) (h : b.state ≠ .invalid) :
    (aged old b).lru = if old.state = .invalid ∨ b.lru < old.lru then b.lru + 1 else b.lru := by
  simp only [aged, h, ne_eq, not_false_eq_true, true_and]
  split <;> rfl

/-- `ways'` is `ways` with `new`, valid and the youngest, in place of `old` at way `w`, and the others aged accordingly. -/
structure MadeYoungest (w : Nat) (old new : CacheBlock) (ways ways' : CacheSet) : Prop where
  old_at : ways[w]? = some old
  new_at : ways'[w]? = some new
  others : ∀ v, v ≠ w → ways'[v]? = ways[v]?.map (aged old)
  new_lru : new.lru = 0
  new_valid : new.state ≠ .invalid

namespace MadeYoungest
variable {w : Nat} {old new : CacheBlock} {ways ways' : CacheSet} (h : MadeYoungest w old new ways ways')
include h

/-- Each way afterwards. -/
theorem way_cases {v : Nat} {b' : CacheBlock} (hb : ways'[v]? = some b') :
    (v = w ∧ b' = new) ∨ (v ≠ w ∧ ∃ b, ways[v]? = some b ∧ b' = aged old b) := by
  by_cases hv : v = w
  · subst hv
    exact .inl ⟨rfl, Option.some.inj (hb.symm.trans h.new_at)⟩
  · rw [h.others v hv, Option.map_eq_some_iff] at hb
    obtain ⟨b, hb, rfl⟩ := hb
    exact .inr ⟨hv, b, hb, rfl⟩

/-- What `new` meets and every aged block meets, every block meets. -/
theorem forall_mem {P : CacheBlock → Prop} (hnew : P new) (hothers : ∀ b ∈ ways, P (aged old b)) : ∀ b ∈ ways', P b := by
  intro b' hb
  obtain ⟨v, hv⟩ := List.mem_iff_getElem?.mp hb
  rcases h.way_cases hv with ⟨-, rfl⟩ | ⟨-, b, hold, rfl⟩
  · exact hnew
  · exact hothers b (List.mem_of_getElem? hold)

theorem map_blockValid : ways'.map blockValid = (ways.map blockValid).set w true := by
  have hlt := (List.getElem?_eq_some_iff.mp h.old_at).1
  apply List.ext_getElem?
  intro v
  rw [List.getElem?_set, List.getElem?_map]
  by_cases hv : w = v
  · subst hv
    simp [h.new_at, hlt, blockValid, h.new_valid]
  · rw [h.others v (Ne.symm hv), if_neg hv]
    simp only [List.getElem?_map, Option.map_map]
    congr 1
    funext b
    simp [blockValid]

/-- The count of valid blocks grows by one if the place was not valid. -/
theorem length_validBlocks_eq :
    (validBlocks ways').length = if old.state = .invalid then (validBlocks ways).length + 1 else (validBlocks ways).length := by
  obtain ⟨hlt, rfl⟩ := List.getElem?_eq_some_iff.mp h.old_at
  rw [length_validBlocks, length_validBlocks, h.map_blockValid, List.countP_set (by simpa using hlt)]
  by_cases hold : ways[w].state = .invalid
  · simp [blockValid, hold]
  · have hpos : 0 < (ways.map blockValid).countP id :=
      List.countP_pos_iff.mpr ⟨true, List.mem_map.mpr ⟨ways[w], List.getElem_mem hlt, by simp [blockValid, hold]⟩, rfl⟩
    simpa [blockValid, hold] using Nat.sub_add_cancel hpos

/-- Aged blocks of one set have distinct counters, none that of the youngest. -/
theorem differIn_lru (hlru : DifferIn (·.lru) ways) : DifferIn (·.lru) ways' := by
  have hyoungest : ∀ v b, v ≠ w → ways[v]? = some b → b.state ≠ .invalid → 0 < (aged old b).lru := by
    intro v b hv hb hvalid
    rw [aged_lru old hvalid]
    split
    next => omega
    next hage =>
      rw [not_or] at hage
      have hne : b.lru ≠ old.lru := hlru v w b old hv hb h.old_at hvalid hage.1
      omega
  intro u v a' b' huv hu' hv' hva hvb
  show a'.lru ≠ b'.lru
  rcases h.way_cases hu' with ⟨rfl, rfl⟩ | ⟨hu, a, ha, rfl⟩ <;> rcases h.way_cases hv' with ⟨rfl, rfl⟩ | ⟨hv, b, hb, rfl⟩
  · exact absurd rfl huv
  · rw [h.new_lru]
    exact (hyoungest v b hv hb (by simpa using hvb)).ne
  · rw [h.new_lru]
    exact (hyoungest u a hu ha (by simpa using hva)).ne'
  · rw [aged_state] at hva hvb
    have hne : a.lru ≠ b.lru := hlru u v a b huv ha hb hva hvb
    rw [aged_lru old hva, aged_lru old hvb]
    by_cases hold : old.state = .invalid
    · simpa [hold] using hne
    · have ha' : a.lru ≠ old.lru := hlru u w a old hu ha h.old_at hva hold
      have hb' : b.lru ≠ old.lru := hlru v w b old hv hb h.old_at hvb hold
      simp only [hold, false_or]
      split <;> split <;> omega

theorem lru_lt (hlt : ∀ b ∈ ways, b.state ≠ .invalid → b.lru < (validBlocks ways).length) :
    ∀ b ∈ ways', b.state ≠ .invalid → b.lru < (validBlocks ways').length := by
  have hold := hlt old (List.mem_of_getElem? h.old_at)
  rw [h.length_validBlocks_eq]
  refine h.forall_mem (fun _ => ?_) (fun b hb hvalid => ?_)
  · rw [h.new_lru]
    split
    next => omega
    next hvalid =>
      have := hold hvalid
      omega
  · rw [aged_state] at hvalid
    rw [aged_lru old hvalid]
    have := hlt b hb hvalid
    by_cases hinvalid : old.state = .invalid
    · simp only [hinvalid, true_or, if_true]
      omega
    · have := hold hinvalid
      simp only [hinvalid, false_or, if_false]
      split <;> omega

/-- Tags stay distinct if no other valid way has the new block's. -/
theorem differIn_tag (htag : DifferIn (·.tag) ways)
    (hnew : ∀ v b, v ≠ w → ways[v]? = some b → b.state ≠ .invalid → b.tag ≠ new.tag) : DifferIn (·.tag) ways' := by
  intro u v a' b' huv hu' hv' hva hvb
  rcases h.way_cases hu' with ⟨rfl, rfl⟩ | ⟨hu, a, ha, rfl⟩ <;> rcases h.way_cases hv' with ⟨rfl, rfl⟩ | ⟨hv, b, hb, rfl⟩
  · exact absurd rfl huv
  · simpa using (hnew v b hv hb (by simpa using hvb)).symm
  · simpa using hnew u a hu ha (by simpa using hva)
  · simpa using htag u v a b huv ha hb (by simpa using hva) (by simpa using hvb)

/-- Making a block the youngest keeps R217, if its tag is no other valid way's. -/
theorem setInv (hset : SetInv ways) (hshared : new.state ≠ .shared)
    (htag : ∀ v b, v ≠ w → ways[v]? = some b → b.state ≠ .invalid → b.tag ≠ new.tag) : SetInv ways' := by
  obtain ⟨hlru, hlt⟩ := lruPerm_iff.mp hset.lruPerm
  exact
    { lruPerm := lruPerm_iff.mpr ⟨h.differIn_lru hlru, h.lru_lt hlt⟩
      dirtyValid := h.forall_mem (fun _ => h.new_valid) fun b hb => by simpa using hset.dirtyValid b hb
      neverShared := h.forall_mem hshared fun b hb => by simpa using hset.neverShared b hb
      tagsDistinct := differIn_iff.mp (h.differIn_tag (differIn_iff.mpr hset.tagsDistinct) htag) }

end MadeYoungest

/-! ## The array in which a block becomes the youngest of its set -/

/-- `sets'` is `sets` with `new` made the youngest in place of `old`, at way `w` of the address's set. -/
def YoungestIn (addr : Word) (w : Nat) (old new : CacheBlock) (sets sets' : CacheSets) : Prop :=
  ∃ ways ways', sets[setIndex sets addr]? = some ways ∧ MadeYoungest w old new ways ways' ∧
    sets' = sets.set (setIndex sets addr) ways'

/-- The set of an address after one set has been replaced. -/
theorem setOf_set {sets : CacheSets} {addr : Word} {ways : CacheSet} (hways : sets[setIndex sets addr]? = some ways)
    (ways' : CacheSet) (a : Word) :
    setOf (sets.set (setIndex sets addr) ways') a =
      if setIndex sets a = setIndex sets addr then ways' else setOf sets a := by
  have hindex : setIndex (sets.set (setIndex sets addr) ways') a = setIndex sets a := by simp [setIndex]
  rw [setOf, hindex, List.getElem?_set]
  by_cases hset : setIndex sets a = setIndex sets addr
  · simp [hset, (List.getElem?_eq_some_iff.mp hways).1]
  · simp [hset, Ne.symm hset, setOf]

theorem setOf_eq {sets : CacheSets} {addr : Word} {ways : CacheSet} (hways : sets[setIndex sets addr]? = some ways) :
    setOf sets addr = ways := by
  simp [setOf, hways]

/-- A probe misses if no valid way of the address's set holds its tag (R212). -/
theorem probe_eq_none_iff {sets : CacheSets} {addr : Word} :
    probe sets addr = none ↔ ∀ b ∈ setOf sets addr, b.state ≠ .invalid → b.tag ≠ tagOf sets addr := by
  simp [probe, List.findIdx?_eq_none_iff, blockValid]

namespace YoungestIn
variable {addr : Word} {w : Nat} {old new : CacheBlock} {sets sets' : CacheSets} (h : YoungestIn addr w old new sets sets')
include h

theorem cacheInv (hinv : CacheInv sets) (hshared : new.state ≠ .shared)
    (htag : ∀ v b, v ≠ w → (setOf sets addr)[v]? = some b → b.state ≠ .invalid → b.tag ≠ new.tag) : CacheInv sets' := by
  obtain ⟨ways, ways', hways, hyoungest, rfl⟩ := h
  rw [setOf_eq hways] at htag
  intro found hfound
  rcases List.mem_or_eq_of_mem_set hfound with hold | rfl
  · exact hinv found hold
  · exact hyoungest.setInv (hinv ways (List.mem_of_getElem? hways)) hshared htag

/-- A block that is not the new one stays absent. -/
theorem probe_eq_none {a : Word} (ha : probe sets a = none)
    (hnew : setIndex sets a = setIndex sets addr → new.tag ≠ tagOf sets a) : probe sets' a = none := by
  obtain ⟨ways, ways', hways, hyoungest, rfl⟩ := h
  rw [probe_eq_none_iff] at ha ⊢
  have htagOf : tagOf (sets.set (setIndex sets addr) ways') a = tagOf sets a := by simp [tagOf]
  rw [htagOf, setOf_set hways]
  by_cases hset : setIndex sets a = setIndex sets addr
  · have hof : setOf sets a = ways := (congrArg (fun k => (sets[k]?).getD []) hset).trans (setOf_eq hways)
    rw [if_pos hset]
    rw [hof] at ha
    exact hyoungest.forall_mem (fun _ => hnew hset) fun b hb => by simpa using ha b hb
  · rw [if_neg hset]
    exact ha

end YoungestIn

/-! ## A hit (R213) -/

/-- A hit makes the block of its way the youngest of the set, with the tag it had. -/
theorem HitLeaves.youngestIn {addr : Word} {w : Nat} {isWrite : Bool} {sets sets' : CacheSets}
    (h : HitLeaves addr w isWrite sets sets') :
    ∃ old new, YoungestIn addr w old new sets sets' ∧ (setOf sets addr)[w]? = some old ∧ old.state ≠ .invalid ∧
      new.tag = old.tag ∧ (new.state = old.state ∨ new.state = .modified) := by
  obtain ⟨ways, ways', hit, hways, hw, hvalid, -, hsets, hlength, hnew, hothers⟩ := h
  refine ⟨hit, _, ⟨ways, ways', hways, ⟨hw, hnew, fun v hv => ?_, ?_, ?_⟩, hsets⟩, setOf_eq hways ▸ hw, hvalid, ?_, ?_⟩
  · cases hb : ways[v]? with
    | none =>
      rw [Option.map_none, List.getElem?_eq_none_iff, hlength]
      exact List.getElem?_eq_none_iff.mp hb
    | some b => simp [hothers v b hv hb, aged, hvalid]
  all_goals cases isWrite <;> simp [hvalid]

theorem mem_setOf {sets : CacheSets} {addr : Word} (h : setOf sets addr ≠ []) : setOf sets addr ∈ sets := by
  unfold setOf at h ⊢
  cases hways : sets[setIndex sets addr]? with
  | none => simp [hways] at h
  | some ways => exact List.mem_of_getElem? hways

theorem CacheInv.hit {sets : CacheSets} {addr : Word} {w : Nat} (h : CacheInv sets) (isWrite : Bool)
    (hprobe : probe sets addr = some w) : CacheInv (hitBlock sets addr w isWrite) := by
  obtain ⟨old, new, hyoungest, hold, hvalid, htag, hstate⟩ := (hitBlock_leaves isWrite hprobe).youngestIn
  have hset : SetInv (setOf sets addr) := h _ (mem_setOf (List.ne_nil_of_mem (List.mem_of_getElem? hold)))
  refine hyoungest.cacheInv h ?_ fun v b hv hb hb' => ?_
  · rcases hstate with hsame | hmodified
    · rw [hsame]
      exact hset.neverShared old (List.mem_of_getElem? hold)
    · rw [hmodified]
      exact nofun
  · rw [htag]
    exact differIn_iff.mpr hset.tagsDistinct v w b old hv hb hold hb' hvalid

/-- A hit brings no block in. -/
theorem probe_hitBlock_eq_none {sets : CacheSets} {addr a : Word} {w : Nat} (isWrite : Bool)
    (hprobe : probe sets addr = some w) (h : probe sets a = none) : probe (hitBlock sets addr w isWrite) a = none := by
  obtain ⟨old, new, hyoungest, hold, hvalid, htag, -⟩ := (hitBlock_leaves isWrite hprobe).youngestIn
  refine hyoungest.probe_eq_none h fun hset => ?_
  have hof : setOf sets a = setOf sets addr := by simp only [setOf, hset]
  rw [htag]
  exact probe_eq_none_iff.mp h old (hof ▸ List.mem_of_getElem? hold) hvalid

/-! ## The victim (R214) -/

theorem le_foldl_max (ways : CacheSet) (n : Nat) :
    n ≤ ways.foldl (fun m b => max m b.lru) n ∧ ∀ b ∈ ways, b.lru ≤ ways.foldl (fun m b => max m b.lru) n := by
  induction ways generalizing n with
  | nil => simp
  | cons a rest ih =>
    obtain ⟨hstart, hrest⟩ := ih (max n a.lru)
    simp only [List.foldl_cons, List.forall_mem_cons]
    exact ⟨by omega, by omega, hrest⟩

theorem foldl_max_attained (ways : CacheSet) (n : Nat) :
    ways.foldl (fun m b => max m b.lru) n = n ∨ ∃ b ∈ ways, b.lru = ways.foldl (fun m b => max m b.lru) n := by
  induction ways generalizing n with
  | nil => exact .inl rfl
  | cons a rest ih =>
    simp only [List.foldl_cons, List.exists_mem_cons_iff]
    rcases ih (max n a.lru) with hstart | hrest
    · rw [hstart]
      omega
    · exact .inr (.inr hrest)

theorem lru_le_maxLru {ways : CacheSet} {b : CacheBlock} (h : b ∈ ways) : b.lru ≤ maxLru ways :=
  (le_foldl_max ways 0).2 b h

theorem exists_lru_eq_maxLru {ways : CacheSet} (h : ways ≠ []) : ∃ b ∈ ways, b.lru = maxLru ways := by
  rcases foldl_max_attained ways 0 with hzero | hattained
  · obtain ⟨b, hb⟩ := List.exists_mem_of_ne_nil ways h
    have hle := lru_le_maxLru hb
    exact ⟨b, hb, by unfold maxLru at hle ⊢; omega⟩
  · exact hattained

/-- The victim of a set with ways: the first invalid way, or, where none is invalid, a way with the highest counter. -/
theorem findVictim_spec {ways : CacheSet} (h : ways ≠ []) :
    ∃ old, ways[findVictim ways]? = some old ∧
      (old.state = .invalid → ∀ u b, u < findVictim ways → ways[u]? = some b → b.state ≠ .invalid) ∧
      (old.state ≠ .invalid → ∀ b ∈ ways, b.state ≠ .invalid ∧ b.lru ≤ old.lru) := by
  unfold findVictim
  cases hinvalid : ways.findIdx? (fun b => !blockValid b) with
  | some w =>
    obtain ⟨hlt, hw, hlow⟩ := List.findIdx?_eq_some_iff_getElem.mp hinvalid
    have hold : ways[w].state = .invalid := by simpa [blockValid] using hw
    refine ⟨ways[w], List.getElem?_eq_getElem hlt, fun _ u b hu hb => ?_, fun hvalid => absurd hold hvalid⟩
    obtain ⟨_, rfl⟩ := List.getElem?_eq_some_iff.mp hb
    simpa [blockValid] using hlow u hu
  | none =>
    have hvalid : ∀ b ∈ ways, b.state ≠ .invalid := by
      simpa [List.findIdx?_eq_none_iff, blockValid] using hinvalid
    obtain ⟨top, htop, hmax⟩ := exists_lru_eq_maxLru h
    cases hfind : ways.findIdx? fun b => decide (b.lru = maxLru ways) with
    | none => exact absurd hmax (by simpa using List.findIdx?_eq_none_iff.mp hfind top htop)
    | some w =>
      obtain ⟨hlt, hw, -⟩ := List.findIdx?_eq_some_iff_getElem.mp hfind
      rw [decide_eq_true_eq] at hw
      refine ⟨ways[w], List.getElem?_eq_getElem hlt, fun hnot => absurd hnot (hvalid _ (List.getElem_mem hlt)), ?_⟩
      exact fun _ b hb => ⟨hvalid b hb, hw ▸ lru_le_maxLru hb⟩

/-! ## An install (R215) -/

/-- The block that an install puts in the place of `old`. -/
def installedIn (tag : Nat) (old : CacheBlock) : CacheBlock :=
  { old with tag := tag, state := .exclusive, dirty := false, lru := 0 }

theorem installWays_madeYoungest {ways : CacheSet} {old : CacheBlock} (tag : Nat)
    (h : ways[findVictim ways]? = some old) :
    MadeYoungest (findVictim ways) old (installedIn tag old) ways (installWays tag ways) := by
  refine ⟨h, ?_, fun v hv => ?_, rfl, nofun⟩
  · rw [installWays_getElem? tag h, h]
    simp [installedIn]
  · rw [installWays_getElem? tag h]
    simp only [hv, if_false]
    rfl

theorem install_youngestIn {sets : CacheSets} {addr : Word} {ways : CacheSet} {old : CacheBlock}
    (hways : sets[setIndex sets addr]? = some ways) (hold : ways[findVictim ways]? = some old) :
    YoungestIn addr (findVictim ways) old (installedIn (tagOf sets addr) old) sets (install sets addr) :=
  ⟨ways, _, hways, installWays_madeYoungest _ hold, modify_eq_set_of_getElem? _ hways⟩

/-- An install into a set without ways changes nothing; any other makes its block the youngest of the set. -/
theorem install_cases (sets : CacheSets) (addr : Word) :
    install sets addr = sets ∨
      ∃ w old, YoungestIn addr w old (installedIn (tagOf sets addr) old) sets (install sets addr) := by
  cases hways : sets[setIndex sets addr]? with
  | none => exact .inl (List.modify_eq_self (List.getElem?_eq_none_iff.mp hways))
  | some ways =>
    rcases eq_or_ne ways [] with rfl | hne
    · refine .inl ((modify_eq_set_of_getElem? _ hways).trans ?_)
      obtain ⟨hlt, hempty⟩ := List.getElem?_eq_some_iff.mp hways
      show sets.set (setIndex sets addr) [] = sets
      rw [← hempty, List.set_getElem_self]
    · obtain ⟨old, hold, -⟩ := findVictim_spec hne
      exact .inr ⟨_, old, install_youngestIn hways hold⟩

theorem CacheInv.install {sets : CacheSets} {addr : Word} (h : CacheInv sets) (hprobe : probe sets addr = none) :
    CacheInv (install sets addr) := by
  rcases install_cases sets addr with hsame | ⟨w, old, hyoungest⟩
  · rw [hsame]
    exact h
  · exact hyoungest.cacheInv h nofun fun v b _ hb => probe_eq_none_iff.mp hprobe b (List.mem_of_getElem? hb)

/-- Addresses of different blocks that fall in one set have different tags (R211). -/
theorem tagOf_ne_of_blockAddr {sets : CacheSets} {a b : Word} (h : blockAddr a ≠ blockAddr b)
    (hset : setIndex sets a = setIndex sets b) : tagOf sets a ≠ tagOf sets b := by
  intro htag
  have ha := Nat.div_add_mod (blockNumber a) sets.length
  have hb := Nat.div_add_mod (blockNumber b) sets.length
  unfold setIndex at hset
  unfold tagOf at htag
  rw [htag, hset, hb] at ha
  refine h (BitVec.eq_of_toNat_eq ?_)
  rw [blockAddr_toNat, blockAddr_toNat]
  exact congrArg (· * 32) ha.symm

/-- An install brings in its own block only. -/
theorem probe_install_eq_none {sets : CacheSets} {addr a : Word} (hne : blockAddr a ≠ blockAddr addr)
    (h : probe sets a = none) : probe (install sets addr) a = none := by
  rcases install_cases sets addr with hsame | ⟨w, old, hyoungest⟩
  · rw [hsame]
    exact h
  · exact hyoungest.probe_eq_none h fun hset => (tagOf_ne_of_blockAddr hne hset).symm

/-- The installed block is found where it was put (R212). -/
theorem YoungestIn.probe_eq_some {addr : Word} {w : Nat} {old new : CacheBlock} {sets sets' : CacheSets}
    (h : YoungestIn addr w old new sets sets') (hprobe : probe sets addr = none) (htag : new.tag = tagOf sets addr) :
    probe sets' addr = some w := by
  obtain ⟨ways, ways', hways, hyoungest, rfl⟩ := h
  rw [probe_eq_none_iff, setOf_eq hways] at hprobe
  obtain ⟨hlt, hnew⟩ := List.getElem?_eq_some_iff.mp hyoungest.new_at
  have htagOf : tagOf (sets.set (setIndex sets addr) ways') addr = tagOf sets addr := by simp [tagOf]
  unfold probe
  rw [htagOf, setOf_set hways, if_pos rfl, List.findIdx?_eq_some_iff_getElem]
  refine ⟨hlt, ?_, fun u hu hfound => ?_⟩
  · simp [hnew, blockValid, hyoungest.new_valid, htag]
  · simp only [Bool.and_eq_true, blockValid_iff, decide_eq_true_eq] at hfound
    obtain ⟨hvalid, htag'⟩ := hfound
    rcases hyoungest.way_cases (List.getElem?_eq_getElem (by omega : u < ways'.length)) with ⟨rfl, -⟩ | ⟨-, b, hb, hb'⟩
    · exact absurd hu (Nat.lt_irrefl _)
    · rw [hb', aged_state] at hvalid
      rw [hb', aged_tag] at htag'
      exact hprobe b (List.mem_of_getElem? hb) hvalid htag'

/-- Settles O35: the victim is the one `findVictim_spec` describes, and its block becomes the youngest of the set. -/
theorem installReplacesTheVictimOnly : Obligations.InstallReplacesTheVictimOnly := by
  unfold Obligations.InstallReplacesTheVictimOnly
  intro sets addr ways hways hinv hne hprobe
  obtain ⟨old, hold, hfirst, hfull⟩ := findVictim_spec hne
  have hyoungest := installWays_madeYoungest (tagOf sets addr) hold
  have hset : (install sets addr)[setIndex sets addr]? = some (installWays (tagOf sets addr) ways) := by
    simp [install, hways]
  refine ⟨findVictim ways, old, _, hold, hfirst, fun hvalid u b hu hb => ?_,
    (install_youngestIn hways hold).probe_eq_some hprobe rfl, ?_, rfl, fun u b hu hb => ?_, fun k hk => ?_⟩
  · obtain ⟨hb', hle⟩ := hfull hvalid b (List.mem_of_getElem? hb)
    have hdiffer : b.lru ≠ old.lru := (lruPerm_iff.mp hinv.lruPerm).1 u _ b old hu hb hold hb' hvalid
    exact ⟨hb', by omega⟩
  · rw [hset]
    exact hyoungest.new_at
  · rw [hset, Option.bind_some, hyoungest.others u hu, hb, Option.map_some, aged]
    split <;> rfl
  · simp [install, Ne.symm hk]

end Sys2Proof.Machine
end

section
/-! SUPPORT. The pool of MSHRs under each change of one MSHR (R240, R242, R243, R247), a delivery (R243, R246), the L2's own cycle,
and the DRAM's own cycle (R262–R264), by cases. -/

namespace Sys2Proof.Machine

/-! ## The pool of MSHRs -/

theorem validMshrAddrs_cons (m : Mshr) (mshrs : List Mshr) :
    validMshrAddrs (m :: mshrs) = (if m.valid then [m.addr] else []) ++ validMshrAddrs mshrs := by
  unfold validMshrAddrs
  cases h : m.valid <;> simp [h]

/-- The blocks of the valid MSHRs when one MSHR has been replaced. -/
theorem validMshrAddrs_set_perm {mshrs : List Mshr} {k : Nat} {m : Mshr} (hk : mshrs[k]? = some m) (m' : Mshr) :
    ((if m.valid then [m.addr] else []) ++ validMshrAddrs (mshrs.set k m')).Perm
      ((if m'.valid then [m'.addr] else []) ++ validMshrAddrs mshrs) := by
  induction mshrs generalizing k with
  | nil => cases hk
  | cons a rest ih =>
    cases k with
    | zero =>
      obtain rfl : a = m := Option.some.inj hk
      rw [List.set_cons_zero, validMshrAddrs_cons, validMshrAddrs_cons]
      exact List.perm_append_comm_assoc _ _ _
    | succ k =>
      rw [List.set_cons_succ, validMshrAddrs_cons, validMshrAddrs_cons]
      exact (List.perm_append_comm_assoc _ _ _).trans (((ih hk).append_left _).trans (List.perm_append_comm_assoc _ _ _))

/-- A merge changes no block. -/
theorem validMshrAddrs_merge {mshrs : List Mshr} {k : Nat} {m : Mshr} (hk : mshrs[k]? = some m) (requesters : List Nat) :
    (validMshrAddrs (mshrs.set k { m with requesters := requesters })).Perm (validMshrAddrs mshrs) :=
  (List.perm_append_left_iff (if m.valid then [m.addr] else [])).mp (validMshrAddrs_set_perm hk _)

/-- A new MSHR adds its block. -/
theorem validMshrAddrs_allocate {mshrs : List Mshr} {k : Nat} {free new : Mshr} (hk : mshrs[k]? = some free)
    (hfree : free.valid = false) (hnew : new.valid = true) :
    (validMshrAddrs (mshrs.set k new)).Perm (new.addr :: validMshrAddrs mshrs) := by
  simpa [hfree, hnew] using validMshrAddrs_set_perm hk new

/-- A freed MSHR takes its block away. -/
theorem validMshrAddrs_free {mshrs : List Mshr} {k : Nat} {m : Mshr} (hk : mshrs[k]? = some m) (hvalid : m.valid = true) :
    (validMshrAddrs mshrs).Perm (m.addr :: validMshrAddrs (mshrs.set k { m with valid := false })) := by
  simpa [hvalid] using (validMshrAddrs_set_perm hk { m with valid := false }).symm

theorem mem_validMshrAddrs {mshrs : List Mshr} {a : Word} :
    a ∈ validMshrAddrs mshrs ↔ ∃ m ∈ mshrs, m.valid = true ∧ m.addr = a := by
  simp [validMshrAddrs, and_assoc]

/-- Distinct valid MSHRs have distinct blocks, each a block address (R247). -/
structure MshrsWf (mshrs : List Mshr) : Prop where
  distinct : (validMshrAddrs mshrs).Nodup
  aligned : ∀ m ∈ mshrs, m.valid = true → blockAddr m.addr = m.addr

/-- What all elements of a list and a new one meet, all meet after one is replaced by the new one. -/
theorem forall_mem_set {α : Type} {P : α → Prop} {l : List α} {b : α} (k : Nat) (h : ∀ x ∈ l, P x) (hnew : P b) :
    ∀ x ∈ l.set k b, P x := by
  intro x hx
  rcases List.mem_or_eq_of_mem_set hx with hold | rfl
  · exact h x hold
  · exact hnew

theorem MshrsWf.free {mshrs : List Mshr} {k : Nat} {m : Mshr} (h : MshrsWf mshrs) (hk : mshrs[k]? = some m)
    (hvalid : m.valid = true) : MshrsWf (mshrs.set k { m with valid := false }) :=
  { distinct := (List.nodup_cons.mp ((validMshrAddrs_free hk hvalid).nodup_iff.mp h.distinct)).2
    aligned := forall_mem_set k h.aligned nofun }

/-- After an MSHR is freed no valid one has its block. -/
theorem MshrsWf.addr_ne_of_free {mshrs : List Mshr} {k : Nat} {m m' : Mshr} (h : MshrsWf mshrs) (hk : mshrs[k]? = some m)
    (hvalid : m.valid = true) (hm' : m' ∈ mshrs.set k { m with valid := false }) (hvalid' : m'.valid = true) :
    m'.addr ≠ m.addr := by
  have hnot := (List.nodup_cons.mp ((validMshrAddrs_free hk hvalid).nodup_iff.mp h.distinct)).1
  exact fun heq => hnot (mem_validMshrAddrs.mpr ⟨m', hm', hvalid', heq⟩)

/-- An L2 access keeps the pool in order. -/
theorem MshrsWf.access {l2 : L2} (h : MshrsWf l2.mshrs) (cfg : Config) (t : Nat) (addr : Word) (isWrite : Bool) (id : Nat) :
    MshrsWf (l2Access cfg t addr isWrite id l2).2.mshrs := by
  rcases l2Access_cases cfg t isWrite id l2 addr with ⟨_, -, heq⟩ | ⟨k, m, hk, hvalid, -, heq⟩ |
    ⟨k, free, -, hnone, hk, hfree, heq⟩ | heq
  · rw [heq]
    exact h
  · rw [heq]
    exact
      { distinct := (validMshrAddrs_merge hk _).nodup_iff.mpr h.distinct
        aligned := forall_mem_set k h.aligned (h.aligned m (List.mem_of_getElem? hk)) }
  · rw [heq]
    refine
      { distinct := (validMshrAddrs_allocate hk hfree rfl).nodup_iff.mpr (List.nodup_cons.mpr ⟨fun hmem => ?_, h.distinct⟩)
        aligned := forall_mem_set k h.aligned fun _ => blockAddr_blockAddr addr }
    obtain ⟨m, hm, hvalid, haddr⟩ := mem_validMshrAddrs.mp hmem
    exact hnone m hm ⟨hvalid, haddr⟩
  · rw [heq]
    exact h

/-! ## A delivery (R243, R246) -/

theorem deliver_of_no_mshr {s : State} {r : RetItem} (h : findMshr s.l2.mshrs (blockAddr r.addr) = none) :
    deliver s r = s := by
  simp [deliver, h]

/-- What the delivery of the block of MSHR `m`, at place `k`, leaves. -/
def delivered (s : State) (r : RetItem) (k : Nat) (m : Mshr) : State :=
  { s with
    l2 := { s.l2 with
      sets := install s.l2.sets r.addr
      mshrs := s.l2.mshrs.set k { m with valid := false } }
    cores := fillRequesters r.addr m.requesters s.cores }

theorem deliver_of_mshr {s : State} {r : RetItem} {k : Nat} {m : Mshr}
    (h : findMshr s.l2.mshrs (blockAddr r.addr) = some k) (hk : s.l2.mshrs[k]? = some m) :
    deliver s r = delivered s r k m := by
  simp [deliver, delivered, h, hk, modify_eq_set_of_getElem? _ hk]

/-- A delivery has no effect or is that of a valid MSHR's block. -/
theorem deliver_cases (s : State) (r : RetItem) :
    (deliver s r = s ∧ ∀ m ∈ s.l2.mshrs, ¬(m.valid = true ∧ m.addr = blockAddr r.addr)) ∨
      ∃ k m, s.l2.mshrs[k]? = some m ∧ m.valid = true ∧ m.addr = blockAddr r.addr ∧ deliver s r = delivered s r k m := by
  cases hfind : findMshr s.l2.mshrs (blockAddr r.addr) with
  | none => exact .inl ⟨deliver_of_no_mshr hfind, findMshr_eq_none_iff.mp hfind⟩
  | some k =>
    obtain ⟨⟨m, hk, hvalid, haddr⟩, -⟩ := findMshr_eq_some_iff.mp hfind
    exact .inr ⟨k, m, hk, hvalid, haddr, deliver_of_mshr hfind hk⟩

/-- A fill that finds a pending miss afterwards has done nothing: the miss is on another block. -/
theorem l1Fill_of_pendingMiss {addr : Word} {l1 : L1} (h : (l1Fill addr l1).pendingMiss = true) :
    l1Fill addr l1 = l1 ∧ blockAddr addr ≠ blockAddr l1.pendingMissAddr := by
  rw [l1Fill_eq] at h ⊢
  split at h
  next => cases h
  next hnot => exact ⟨if_neg hnot, fun heq => hnot ⟨h, heq⟩⟩

/-- Filling an L1 twice is filling it once. -/
theorem l1Fill_l1Fill (addr : Word) (l1 : L1) : l1Fill addr (l1Fill addr l1) = l1Fill addr l1 := by
  cases h : (l1Fill addr l1).pendingMiss with
  | true => rw [(l1Fill_of_pendingMiss h).1, (l1Fill_of_pendingMiss h).1]
  | false => rw [l1Fill_eq addr (l1Fill addr l1), h]; simp

theorem fillCore_fillCore (addr : Word) (core : CoreState) : fillCore addr (fillCore addr core) = fillCore addr core := by
  simp [fillCore, l1Fill_l1Fill]

/-- The cores after the fills: the requesters are filled, the others are as they were. -/
theorem getElem?_fillRequesters (addr : Word) (requesters : List Nat) (cores : List CoreState) (k : Nat) :
    (fillRequesters addr requesters cores)[k]? =
      cores[k]?.map fun core => if k ∈ requesters then fillCore addr core else core := by
  induction requesters generalizing cores with
  | nil => simp [fillRequesters]
  | cons c rest ih =>
    refine (ih (cores.modify c (fillCore addr))).trans ?_
    rw [List.getElem?_modify]
    cases cores[k]? with
    | none => rfl
    | some core =>
      by_cases hc : c = k
      · subst hc
        by_cases hk : c ∈ rest <;> simp [hk, fillCore_fillCore]
      · simp [hc, Ne.symm hc]

/-- Settles O34: the equation of each case of a delivery, with the cores after the fills. -/
theorem deliveryFillsEveryRequester : Obligations.DeliveryFillsEveryRequester := by
  unfold Obligations.DeliveryFillsEveryRequester
  intro s r
  refine ⟨deliver_of_no_mshr, fun k m hfind hk _ => ?_⟩
  rw [deliver_of_mshr hfind hk]
  refine ⟨?_, fun c core hc => ?_, rfl, rfl, rfl⟩
  · rw [modify_eq_set_of_getElem? _ hk]
    rfl
  · have hfilled := getElem?_fillRequesters r.addr m.requesters s.cores c
    rw [hc, Option.map_some] at hfilled
    exact ⟨fun hin => hfilled.trans (congrArg some (if_pos hin)), fun hout => hfilled.trans (congrArg some (if_neg hout))⟩

/-! ## The L2's own cycle (R243) -/

/-- The machine when the request path has handed over `sent` and the ready items have left `ret_queue`. -/
def drained (s : State) (sent held : List ReqItem) : State :=
  { s with
    dram := { s.dram with queue := s.dram.queue ++ sent.map (requestOf s.cfg s.cycles) }
    l2 := { s.l2 with
      reqQueue := held
      retQueue := s.l2.retQueue.filter fun r => decide (s.cycles < r.readyCycle) } }

/-- The items of `ret_queue` that are delivered in this cycle. -/
def readyItems (s : State) : List RetItem := s.l2.retQueue.filter fun r => decide (r.readyCycle ≤ s.cycles)

/-- The L2's cycle: the front of the request queue goes to the DRAM, then every ready item is delivered. -/
theorem l2Phase_split (s : State) :
    ∃ sent held : List ReqItem, s.l2.reqQueue = sent ++ held ∧ (∀ q ∈ sent, q.readyCycle ≤ s.cycles) ∧
      (sent ≠ [] → s.dram.queue.length + sent.length ≤ s.cfg.dramReqQueueSize) ∧
      (∀ (q : ReqItem) (rest : List ReqItem), held = q :: rest →
        s.cycles < q.readyCycle ∨ s.cfg.dramReqQueueSize ≤ s.dram.queue.length + sent.length) ∧
      l2Phase s = (readyItems s).foldl deliver (drained s sent held) := by
  obtain ⟨sent, held, hsplit, hready, hroom, hstop, hdrain⟩ := drainRequests_split s.cfg s.cycles s.l2.reqQueue s.dram
  refine ⟨sent, held, hsplit, hready, hroom, hstop, ?_⟩
  simp only [l2Phase, hdrain, ← decide_not, Nat.not_le]
  rfl

/-- Settles O60: the split of the request path, and deliveries, which touch neither queue. -/
theorem l2CycleDrainsThenDelivers : Obligations.L2CycleDrainsThenDelivers := by
  unfold Obligations.L2CycleDrainsThenDelivers
  intro s
  obtain ⟨sent, held, hsplit, hready, hroom, hstop, hphase⟩ := l2Phase_split s
  obtain ⟨hreq, hret⟩ := foldl_deliver_queues (readyItems s) (drained s sent held)
  rw [← hphase] at hreq hret
  exact ⟨sent, held, hsplit, hready, hroom, hstop, hphase, hreq, hret⟩

/-- Settles O28: neither cycle changes more than the L2, the DRAM and L1s. -/
theorem memoryHierarchyTouchesOnlyTiming : Obligations.MemoryHierarchyTouchesOnlyTiming := by
  unfold Obligations.MemoryHierarchyTouchesOnlyTiming
  intro s
  have htiming := (dramPhase_onlyTiming s).trans (l2Phase_onlyTiming (dramPhase s))
  exact ⟨htiming.mem, htiming.output, htiming.cycles, htiming.cfg, htiming.cores⟩

/-! ## The DRAM's own cycle (R262–R264) -/

/-- The first place of a list that meets a test. -/
theorem findIdx?_eq_some_of_getElem? {α : Type} {p : α → Bool} {l : List α} {k : Nat} {a : α} (hk : l[k]? = some a)
    (ha : p a = true) (hlow : ∀ j b, j < k → l[j]? = some b → p b = false) : l.findIdx? p = some k := by
  obtain ⟨hlt, rfl⟩ := List.getElem?_eq_some_iff.mp hk
  refine List.findIdx?_eq_some_iff_getElem.mpr ⟨hlt, ha, fun j hj => ?_⟩
  simp [hlow j _ hj (List.getElem?_eq_getElem (by omega))]

theorem dramComplete_of_ended {t k : Nat} {d : Dram} {e : DramRequest} (hk : d.queue[k]? = some e)
    (hdispatched : e.dispatched = true) (hended : e.dataEnd ≤ t)
    (hlow : ∀ j e', j < k → d.queue[j]? = some e' → ¬(e'.dispatched = true ∧ e'.dataEnd ≤ t)) :
    dramComplete t d = (some e, { d with queue := d.queue.eraseIdx k }) := by
  have hfind : d.queue.findIdx? (fun e => e.dispatched && decide (e.dataEnd ≤ t)) = some k :=
    findIdx?_eq_some_of_getElem? hk (by simp [hdispatched, hended]) fun j e' hj he' => by simpa using hlow j e' hj he'
  simp [dramComplete, hfind, hk]

theorem dramComplete_of_none {t : Nat} {d : Dram} (h : ∀ e ∈ d.queue, ¬(e.dispatched = true ∧ e.dataEnd ≤ t)) :
    dramComplete t d = (none, d) := by
  have hfind : d.queue.findIdx? (fun e => e.dispatched && decide (e.dataEnd ≤ t)) = none :=
    List.findIdx?_eq_none_iff.mpr fun e he => by simpa using h e he
  simp [dramComplete, hfind]

theorem dramDispatch_of_first {cfg : Config} {t k : Nat} {d : Dram} {e : DramRequest} (hk : d.queue[k]? = some e)
    (hfree : dispatchable cfg t d e = true)
    (hlow : ∀ j e', j < k → d.queue[j]? = some e' → dispatchable cfg t d e' = false) :
    dramDispatch cfg t d = dispatchAt cfg t d k e.loc := by
  simp [dramDispatch, findIdx?_eq_some_of_getElem? hk hfree hlow, hk]

theorem dramDispatch_of_none {cfg : Config} {t : Nat} {d : Dram} (h : ∀ e ∈ d.queue, dispatchable cfg t d e = false) :
    dramDispatch cfg t d = d := by
  simp [dramDispatch, List.findIdx?_eq_none_iff.mpr h]

/-- The cycles up to and including RDWR, by page policy (R263, R264). -/
theorem sum_throughRdwr (cfg : Config) (openRow : Option Nat) (row : Nat) :
    ((throughRdwr (commandSequence cfg openRow row)).map (cmdBusCycles cfg)).sum =
      match cfg.dramPagePolicy with
      | .openRow => ((commandSequence cfg openRow row).map (cmdBusCycles cfg)).sum
      | .closedRow => cfg.dramActCmdBusBusy + cfg.dramRdwrCmdBusBusy := by
  cases hpolicy : cfg.dramPagePolicy <;> simp only [commandSequence, hpolicy]
  · split <;> rfl
  · rfl

/-- Settles O36: the equation of each case of a request, a completion and a dispatch. -/
theorem dramQueuesDispatchesAndCompletes : Obligations.DramQueuesDispatchesAndCompletes := by
  unfold Obligations.DramQueuesDispatchesAndCompletes
  refine fun cfg t d => ⟨fun w a c src => ⟨fun hroom => if_pos hroom, fun hfull => if_neg (Nat.not_lt.mpr hfull)⟩,
    fun openRow row => rfl,
    fun k e hk hdispatched hended hlow => ?_, fun hnone => ?_,
    fun k e bank chan hk hdispatched hbank hchan hbusy hcmd hlow => ?_, dramDispatch_of_none⟩
  · rw [dramExecute, dramComplete_of_ended hk hdispatched hended hlow]
  · rw [dramExecute, dramComplete_of_none hnone]
  · have hbankOf : bankOf cfg d e.loc = bank := by simp [bankOf, hbank]
    have hchannelOf : channelOf d e.loc = chan := by simp [channelOf, hchan]
    have hfree : dispatchable cfg t d e = true := by
      simp [dispatchable, hdispatched, hbankOf, hchannelOf, hbusy, hcmd]
    have hdispatch := dramDispatch_of_first hk hfree hlow
    rw [dispatchAt, dispatchDataEnd, hbankOf, hchannelOf, sum_throughRdwr, modify_eq_set_of_getElem? _ hbank,
      modify_eq_set_of_getElem? _ hchan, modify_eq_set_of_getElem? _ hk] at hdispatch
    exact hdispatch

end Sys2Proof.Machine
end

section
/-! SUPPORT. Invariants of the memory system over a step: what every access of an L1 and every fill keep, a tick keeps; then the
caches (R212, R216, R217, R247), the requests in flight (R241, R246, R262, R265) and the waiting L1s (R246, C8). -/

namespace Sys2Proof.Machine

/-! ## A condition on the L2 and on every L1 -/

/-- A number that names no core changes nothing. -/
theorem State.modifyCore_of_no_core {s : State} {c : Nat} (f : CoreState → CoreState) (h : s.cores[c]? = none) :
    s.modifyCore c f = s := by
  rw [State.modifyCore, List.modify_eq_self (List.getElem?_eq_none_iff.mp h)]

/-- `R` of the L2, and `Q` of the L2, a core's id and each L1 of that core. -/
structure HierarchyInv (R : L2 → Prop) (Q : L2 → Nat → L1 → Prop) (s : State) : Prop where
  l2 : R s.l2
  l1s : EveryCore (fun _ core => Q s.l2 core.id core.icache ∧ Q s.l2 core.id core.dcache) s

/-- What an L1 access does, one step at a time (R223, R242), keeps `R` and `Q`. -/
structure KeptByAccess (R : L2 → Prop) (Q : L2 → Nat → L1 → Prop) : Prop where
  fill : ∀ (l2 : L2) (id : Nat) (l1 : L1) (addr : Word), Q l2 id l1 → Q l2 id (l1Fill addr l1)
  hit : ∀ (l2 : L2) (id : Nat) (l1 : L1) (addr : Word) (way : Nat) (isWrite : Bool), l1.pendingMiss = false →
    probe l1.sets addr = some way → Q l2 id l1 → Q l2 id { l1 with sets := hitBlock l1.sets addr way isWrite }
  access : ∀ (cfg : Config) (t : Nat) (addr : Word) (isWrite : Bool) (id : Nat) (l2 : L2), R l2 →
    R (l2Access cfg t addr isWrite id l2).2
  others : ∀ (cfg : Config) (t : Nat) (addr : Word) (isWrite : Bool) (id : Nat) (l2 : L2) (i : Nat) (l1 : L1),
    Q l2 i l1 → Q (l2Access cfg t addr isWrite id l2).2 i l1
  miss : ∀ (cfg : Config) (t : Nat) (addr : Word) (isWrite : Bool) (id : Nat) (l2 : L2) (l1 : L1), l1.pendingMiss = false →
    probe l1.sets addr = none → Q l2 id l1 →
      Q (l2Access cfg t addr isWrite id l2).2 id (l1AfterMiss cfg t addr (l2Access cfg t addr isWrite id l2).1 l1)

section
variable {R : L2 → Prop} {Q : L2 → Nat → L1 → Prop} (hkept : KeptByAccess R Q)
include hkept

/-- A whole L1 access keeps `R`, `Q` of its own L1, and `Q` of every other. -/
theorem KeptByAccess.l1Access {cfg : Config} {t id : Nat} {addr : Word} {isWrite isData done : Bool} {l1 l1' : L1}
    {l2 l2' : L2} (hR : R l2) (hQ : Q l2 id l1) (h : l1Access cfg t id addr isWrite isData l1 l2 = (done, l1', l2')) :
    R l2' ∧ Q l2' id l1' ∧ ∀ i l, Q l2 i l → Q l2' i l := by
  have hfilled : Q l2 id (l1FillIfReady t l1) := by
    rcases l1FillIfReady_cases t l1 with hsame | hfill
    · rw [hsame]
      exact hQ
    · rw [hfill]
      exact hkept.fill l2 id l1 _ hQ
  cases hpending : (l1FillIfReady t l1).pendingMiss with
  | true =>
    rw [l1Access_blocked cfg t id addr isWrite isData l2 hpending] at h
    cases h
    exact ⟨hR, hfilled, fun _ _ hl => hl⟩
  | false =>
    cases hprobe : probe (l1FillIfReady t l1).sets addr with
    | some way =>
      rw [l1Access_hit cfg t id addr isWrite isData l2 hpending hprobe] at h
      cases h
      exact ⟨hR, hkept.hit l2 id _ addr way isWrite hpending hprobe hfilled, fun _ _ hl => hl⟩
    | none =>
      rw [l1Access_miss cfg t id addr isWrite isData l2 hpending hprobe] at h
      cases h
      exact ⟨hkept.access cfg t addr isWrite id l2 hR, hkept.miss cfg t addr isWrite id l2 _ hpending hprobe hfilled,
        fun i l => hkept.others cfg t addr isWrite id l2 i l⟩

omit hkept in
/-- A stage of core `c` keeps the condition if it keeps it on that core and the L2, and on every L1 that met it before. -/
theorem HierarchyInv.of_elsewhere {s t : State} {c : Nat} {core core' : CoreState} (h : HierarchyInv R Q s)
    (he : Elsewhere c s t) (hc : s.cores[c]? = some core) (hc' : t.cores[c]? = some core') (hR : R t.l2)
    (hcore : Q t.l2 core'.id core'.icache ∧ Q t.l2 core'.id core'.dcache)
    (hothers : ∀ i l, Q s.l2 i l → Q t.l2 i l) : HierarchyInv R Q t := by
  refine ⟨hR, .of_cores he.length fun k other hk => ?_⟩
  by_cases hkc : k = c
  · subst hkc
    exact ⟨core', hc', hcore⟩
  · obtain ⟨hi, hd⟩ := h.l1s k other hk
    obtain ⟨other', hother', hspawn⟩ := he.others k other hkc hk
    refine ⟨other', hother', ?_⟩
    rcases hspawn with rfl | ⟨pc, -, rfl⟩
    · exact ⟨hothers _ _ hi, hothers _ _ hd⟩
    · exact ⟨hothers _ _ hi, hothers _ _ hd⟩

omit hkept in
/-- In particular if it leaves the L2, and the id and the L1s of that core. -/
theorem HierarchyInv.of_sameCaches {s t : State} {c : Nat} {core core' : CoreState} (h : HierarchyInv R Q s)
    (he : Elsewhere c s t) (hc : s.cores[c]? = some core) (hc' : t.cores[c]? = some core') (hl2 : t.l2 = s.l2)
    (hid : core'.id = core.id) (hicache : core'.icache = core.icache) (hdcache : core'.dcache = core.dcache) :
    HierarchyInv R Q t := by
  refine h.of_elsewhere he hc hc' (hl2 ▸ h.l2) ?_ fun _ _ => hl2 ▸ id
  rw [hl2, hid, hicache, hdcache]
  exact h.l1s c core hc

theorem callRun_hierarchyInv (c : Nat) (stage : Stage) {s : State} (h : HierarchyInv R Q s) :
    HierarchyInv R Q (callRun c stage s) := by
  cases hc : s.cores[c]? with
  | none => exact (callRun_of_no_core stage hc).symm ▸ h
  | some core =>
    obtain ⟨hi, hd⟩ := h.l1s c core hc
    cases stage with
    | wb =>
      obtain ⟨⟨core', hc', heffect⟩, helse, -, hl2⟩ := callRun_wb hc
      obtain ⟨_, _, _, _, _, rfl, -⟩ := heffect.frame
      exact h.of_sameCaches helse hc hc' hl2 rfl rfl rfl
    | mem =>
      obtain ⟨core', hc', heffect, helse, -, hcaches⟩ := callRun_mem hc
      obtain ⟨dcache, _, _, rfl⟩ := heffect.frame
      rcases hcaches with ⟨hl2, hsame⟩ | ⟨_, _, _, haccess⟩
      · exact h.of_sameCaches helse hc hc' hl2 rfl rfl hsame
      · obtain ⟨hR, hown, hothers⟩ := hkept.l1Access h.l2 hd haccess
        exact h.of_elsewhere helse hc hc' hR ⟨hothers _ _ hi, hown⟩ hothers
    | execute =>
      obtain ⟨⟨core', hc', heffect⟩, helse, -, hl2⟩ := callRun_execute hc
      obtain ⟨_, _, _, _, _, _, rfl⟩ := heffect.frame
      exact h.of_sameCaches helse hc hc' hl2 rfl rfl rfl
    | decode =>
      obtain ⟨⟨core', hc', heffect⟩, helse, -, hl2⟩ := callRun_decode hc
      obtain ⟨_, _, rfl⟩ := heffect.frame
      exact h.of_sameCaches helse hc hc' hl2 rfl rfl rfl

theorem fetchStage_hierarchyInv (c : Nat) {s : State} (h : HierarchyInv R Q s) : HierarchyInv R Q (fetchStage c s) := by
  cases hc : s.cores[c]? with
  | none => simpa only [fetchStage, hc] using h
  | some core =>
    obtain ⟨hi, hd⟩ := h.l1s c core hc
    obtain ⟨core', hc', heffect, helse, -, hcaches⟩ := fetchStage_effect hc
    obtain ⟨icache, _, _, _, rfl, -⟩ := heffect.frame
    rcases hcaches with ⟨hl2, hsame⟩ | ⟨_, haccess⟩
    · exact h.of_sameCaches helse hc hc' hl2 rfl hsame rfl
    · obtain ⟨hR, hown, hothers⟩ := hkept.l1Access h.l2 hi haccess
      exact h.of_elsewhere helse hc hc' hR ⟨hown, hothers _ _ hd⟩ hothers

omit hkept in
/-- A change of a core that leaves its id and its L1s keeps the condition. -/
theorem HierarchyInv.modifyCore {s : State} {f : CoreState → CoreState} (h : HierarchyInv R Q s) (c : Nat)
    (hf : ∀ core, (f core).id = core.id ∧ (f core).icache = core.icache ∧ (f core).dcache = core.dcache) :
    HierarchyInv R Q (s.modifyCore c f) := by
  cases hc : s.cores[c]? with
  | none => exact (State.modifyCore_of_no_core f hc).symm ▸ h
  | some core =>
    obtain ⟨hid, hicache, hdcache⟩ := hf core
    exact h.of_sameCaches (.modifyCore c s f) hc (State.modifyCore_same f hc) rfl hid hicache hdcache

/-- What every access keeps, a tick keeps. -/
theorem tickRun_hierarchyInv (c : Nat) {s : State} (h : HierarchyInv R Q s) : HierarchyInv R Q (tickRun c s) := by
  refine tickRun_induct h fun _ _ _ => pipelineRun_induct h (fun stage _ hu => callRun_hierarchyInv hkept c stage hu)
    (fun _ hu => hu.modifyCore c fun _ => ⟨rfl, rfl, rfl⟩) (fun _ hu => fetchStage_hierarchyInv hkept c hu)
    (fun _ hu => hu.modifyCore c fun core => ?_)
  obtain ⟨_, _, _, _, _, _, _, hrecovered, -⟩ := applyRecoveryCore_frame core
  rw [hrecovered]
  exact ⟨rfl, rfl, rfl⟩

end

theorem everyCore_iff_forall_mem {P : CoreState → Prop} {s : State} :
    EveryCore (fun _ => P) s ↔ ∀ core ∈ s.cores, P core := by
  constructor
  · intro h core hcore
    obtain ⟨k, hk⟩ := List.mem_iff_getElem?.mp hcore
    exact h k core hk
  · exact fun h k core hk => h core (List.mem_of_getElem? hk)

/-! ## The caches (R212, R216, R217, R247) -/

theorem cachesInv_iff {s : State} : CachesInv s ↔ HierarchyInv L2Inv (fun _ _ => L1Inv) s :=
  ⟨fun h => ⟨h.l2, everyCore_iff_forall_mem.mpr h.l1s⟩, fun h => ⟨everyCore_iff_forall_mem.mp h.l1s, h.l2⟩⟩

theorem L2Inv.mshrsWf {l2 : L2} (h : L2Inv l2) : MshrsWf l2.mshrs := ⟨h.mshrsDistinct, h.mshrsAligned⟩

/-- The queues of the L2 do not matter to its invariant. -/
theorem L2Inv.queues {l2 : L2} (h : L2Inv l2) (reqQueue : List ReqItem) (retQueue : List RetItem) :
    L2Inv { l2 with reqQueue := reqQueue, retQueue := retQueue } :=
  ⟨h.cache, h.mshrsDistinct, h.missAbsent, h.mshrsAligned⟩

theorem L1Inv.fill {l1 : L1} (h : L1Inv l1) (addr : Word) : L1Inv (l1Fill addr l1) := by
  rw [l1Fill_eq]
  split
  next hfill => exact { cache := h.cache.install (h.pendingAbsent hfill.1), pendingAbsent := nofun }
  next => exact h

/-- After a miss the L1 awaits at most the block that was not in it. -/
theorem L1Inv.afterMiss {l1 : L1} {addr : Word} (h : L1Inv l1) (hprobe : probe l1.sets addr = none) (cfg : Config) (t : Nat)
    (answer : L2Answer) : L1Inv (l1AfterMiss cfg t addr answer l1) := by
  cases answer with
  | hit => exact ⟨h.cache, fun _ => hprobe⟩
  | miss => exact ⟨h.cache, fun _ => hprobe⟩
  | busy => exact h

theorem L2Inv.access {l2 : L2} (h : L2Inv l2) (cfg : Config) (t : Nat) (addr : Word) (isWrite : Bool) (id : Nat) :
    L2Inv (l2Access cfg t addr isWrite id l2).2 := by
  have hpool := h.mshrsWf.access cfg t addr isWrite id
  suffices hcaches : CacheInv (l2Access cfg t addr isWrite id l2).2.sets ∧
      ∀ m ∈ (l2Access cfg t addr isWrite id l2).2.mshrs, m.valid = true →
        probe (l2Access cfg t addr isWrite id l2).2.sets m.addr = none from
    ⟨hcaches.1, hpool.distinct, hcaches.2, hpool.aligned⟩
  rcases l2Access_cases cfg t isWrite id l2 addr with ⟨way, hprobe, heq⟩ | ⟨k, m, hk, -, -, heq⟩ |
    ⟨k, free, hprobe, -, -, -, heq⟩ | heq
  · rw [heq]
    exact ⟨h.cache.hit isWrite hprobe, fun m hm hvalid => probe_hitBlock_eq_none isWrite hprobe (h.missAbsent m hm hvalid)⟩
  · rw [heq]
    exact ⟨h.cache, forall_mem_set k h.missAbsent (h.missAbsent m (List.mem_of_getElem? hk))⟩
  · rw [heq]
    refine ⟨h.cache, forall_mem_set k h.missAbsent fun _ => ?_⟩
    exact (probe_eq_of_blockAddr l2.sets (blockAddr_blockAddr addr)).trans hprobe
  · rw [heq]
    exact ⟨h.cache, h.missAbsent⟩

theorem cachesInv_keptByAccess : KeptByAccess L2Inv (fun _ _ => L1Inv) where
  fill _ _ _ addr h := h.fill addr
  hit _ _ _ _ _ isWrite hclear hprobe h :=
    { cache := h.cache.hit isWrite hprobe, pendingAbsent := fun hpending => by simp [hclear] at hpending }
  access cfg t addr isWrite id _ h := h.access cfg t addr isWrite id
  others _ _ _ _ _ _ _ _ h := h
  miss cfg t _ _ _ _ _ _ hprobe h := h.afterMiss hprobe cfg t _

/-- The delivery of a valid MSHR's block installs what was absent, and frees the one MSHR of that block. -/
theorem L2Inv.delivered {l2 : L2} {addr : Word} {k : Nat} {m : Mshr} (h : L2Inv l2) (hk : l2.mshrs[k]? = some m)
    (hvalid : m.valid = true) (haddr : m.addr = blockAddr addr) :
    L2Inv { l2 with sets := install l2.sets addr, mshrs := l2.mshrs.set k { m with valid := false } } := by
  have hpool := h.mshrsWf.free hk hvalid
  have habsent : probe l2.sets addr = none := by
    rw [← probe_eq_of_blockAddr l2.sets (blockAddr_blockAddr addr), ← haddr]
    exact h.missAbsent m (List.mem_of_getElem? hk) hvalid
  refine { cache := h.cache.install habsent, mshrsDistinct := hpool.distinct, missAbsent := fun m' hm' hvalid' => ?_,
           mshrsAligned := hpool.aligned }
  refine probe_install_eq_none ?_ ?_
  · rw [hpool.aligned m' hm' hvalid', ← haddr]
    exact h.mshrsWf.addr_ne_of_free hk hvalid hm' hvalid'
  · rcases List.mem_or_eq_of_mem_set hm' with hold | rfl
    · exact h.missAbsent m' hold hvalid'
    · cases hvalid'

/-- Each core after a delivery is a core from before, filled or not. -/
theorem mem_delivered_cores {s : State} {r : RetItem} {k : Nat} {m : Mshr} {c : Nat} {core' : CoreState}
    (h : (delivered s r k m).cores[c]? = some core') :
    ∃ core, s.cores[c]? = some core ∧ core' = if c ∈ m.requesters then fillCore r.addr core else core := by
  obtain ⟨core, hc, heq⟩ := Option.map_eq_some_iff.mp ((getElem?_fillRequesters r.addr m.requesters s.cores c).symm.trans h)
  exact ⟨core, hc, heq.symm⟩

theorem deliver_cachesInv {s : State} (r : RetItem) (h : HierarchyInv L2Inv (fun _ _ => L1Inv) s) :
    HierarchyInv L2Inv (fun _ _ => L1Inv) (deliver s r) := by
  rcases deliver_cases s r with ⟨hsame, -⟩ | ⟨k, m, hk, hvalid, haddr, heq⟩
  · rw [hsame]
    exact h
  · rw [heq]
    refine ⟨h.l2.delivered hk hvalid haddr, fun c core' hc' => ?_⟩
    obtain ⟨core, hc, rfl⟩ := mem_delivered_cores hc'
    obtain ⟨hi, hd⟩ := h.l1s c core hc
    split
    · exact ⟨hi.fill _, hd.fill _⟩
    · exact ⟨hi, hd⟩

/-- What the request path and every delivery keep, the L2's cycle keeps. -/
theorem l2Phase_induct {P : State → Prop} {s : State} (hqueues : ∀ sent held, P (drained s sent held))
    (hdeliver : ∀ u r, P u → P (deliver u r)) : P (l2Phase s) := by
  obtain ⟨sent, held, -, -, -, -, hphase⟩ := l2Phase_split s
  rw [hphase]
  exact List.foldlRecOn _ deliver (hqueues sent held) fun u hu r _ => hdeliver u r hu

/-- The DRAM's part of a cycle, as the DRAM it leaves and the block it completes (R740 step 1). -/
theorem dramPhase_completes (s : State) :
    dramPhase s = { s with
      dram := (dramExecute s.cfg s.cycles s.dram).2
      l2 := { s.l2 with
        retQueue := s.l2.retQueue ++ (dramExecute s.cfg s.cycles s.dram).1.toList.map fun r =>
          { addr := r.addr, readyCycle := s.cycles + s.cfg.dramToL2Delay } } } := by
  unfold dramPhase
  rcases dramExecute s.cfg s.cycles s.dram with ⟨done, after⟩
  cases done with
  | none => simp
  | some r => simp [l2HandleCompletion]

/-- Settles O20: every access, fill and delivery keeps the invariants of each cache. -/
theorem stepKeepsCacheInvariants : Obligations.StepKeepsCacheInvariants := by
  unfold Obligations.StepKeepsCacheInvariants
  simp only [cachesInv_iff]
  intro s t hs hstep
  refine step_induct hstep hs (fun u hu => ?_)
    (fun u hu => l2Phase_induct (fun _ _ => ⟨hu.l2.queues _ _, hu.l1s⟩) fun _ => deliver_cachesInv)
    (fun c u => tickRun_hierarchyInv cachesInv_keptByAccess c) (fun _ hu => ⟨hu.l2, hu.l1s⟩)
  rw [dramPhase_completes]
  exact ⟨hu.l2.queues u.l2.reqQueue _, hu.l1s⟩

/-! ## The requests in flight (R241, R246, R262, R265) -/

/-- A completion takes its request out of the DRAM queue. -/
theorem dramComplete_perm (t : Nat) (d : Dram) :
    d.queue.Perm ((dramComplete t d).1.toList ++ (dramComplete t d).2.queue) := by
  unfold dramComplete
  split
  next k hfind =>
    obtain ⟨hlt, -⟩ := List.findIdx?_eq_some_iff_getElem.mp hfind
    simpa [hlt] using (List.getElem_cons_eraseIdx_perm hlt).symm
  next => exact .refl _

/-- A dispatch changes neither the block nor the source of a request. -/
theorem dramDispatch_map {β : Type} {f : DramRequest → β}
    (hf : ∀ (e : DramRequest) (dispatched : Bool) (dataEnd : Nat),
      f { e with dispatched := dispatched, dataEnd := dataEnd } = f e)
    (cfg : Config) (t : Nat) (d : Dram) : (dramDispatch cfg t d).queue.map f = d.queue.map f := by
  unfold dramDispatch
  split
  next k _ =>
    split
    next e hk =>
      obtain ⟨hlt, rfl⟩ := List.getElem?_eq_some_iff.mp hk
      show (d.queue.modify k _).map f = _
      rw [modify_eq_set_of_getElem? _ hk, List.map_set, hf, ← List.getElem_map f (h := by simpa using hlt),
        List.set_getElem_self]
    next => rfl
  next => rfl

theorem dramExecute_perm {β : Type} {f : DramRequest → β}
    (hf : ∀ (e : DramRequest) (dispatched : Bool) (dataEnd : Nat),
      f { e with dispatched := dispatched, dataEnd := dataEnd } = f e)
    (cfg : Config) (t : Nat) (d : Dram) :
    (d.queue.map f).Perm ((dramExecute cfg t d).1.toList.map f ++ (dramExecute cfg t d).2.queue.map f) := by
  show (d.queue.map f).Perm ((dramComplete t d).1.toList.map f ++ (dramDispatch cfg t (dramComplete t d).2).queue.map f)
  rw [dramDispatch_map hf, ← List.map_append]
  exact (dramComplete_perm t d).map f

theorem RequestsMatchMshrs.mshrsWf {s : State} (h : RequestsMatchMshrs s) : MshrsWf s.l2.mshrs := ⟨h.distinct, h.aligned⟩

theorem dramPhase_requestsMatch {s : State} (h : RequestsMatchMshrs s) : RequestsMatchMshrs (dramPhase s) := by
  have haddrs := dramExecute_perm (f := (·.addr)) (fun _ _ _ => rfl) s.cfg s.cycles s.dram
  have hsources := dramExecute_perm (f := (·.source)) (fun _ _ _ => rfl) s.cfg s.cycles s.dram
  rw [dramPhase_completes]
  refine { inFlight := ?_, distinct := h.distinct, aligned := h.aligned, queueBound := ?_, neverWriteback := fun r hr => ?_ }
  · have hflight := h.inFlight
    simp only [inFlightAddrs, List.perm_iff_count, List.map_append, List.map_map, List.count_append] at haddrs hflight ⊢
    intro a
    have := haddrs a
    have := hflight a
    simp only [Function.comp_def]
    omega
  · have hlength := hsources.length_eq
    simp only [List.length_map, List.length_append] at hlength
    have := h.queueBound
    show (dramExecute s.cfg s.cycles s.dram).2.queue.length ≤ s.cfg.dramReqQueueSize
    omega
  · have hmem := hsources.symm.subset (List.mem_append_right _ (List.mem_map_of_mem hr))
    obtain ⟨r', hr', heq⟩ := List.mem_map.mp hmem
    exact heq ▸ h.neverWriteback r' hr'

/-- The machine with these items still in `ret_queue`. -/
def withReturns (s : State) (items : List RetItem) : State :=
  { s with l2 := { s.l2 with retQueue := s.l2.retQueue ++ items } }

/-- The request path moves requests from queue to queue, and the ready items are still to be delivered. -/
theorem drained_requestsMatch {s : State} {sent held : List ReqItem} (h : RequestsMatchMshrs s)
    (hsplit : s.l2.reqQueue = sent ++ held) (hroom : sent ≠ [] → s.dram.queue.length + sent.length ≤ s.cfg.dramReqQueueSize) :
    RequestsMatchMshrs (withReturns (drained s sent held) (readyItems s)) := by
  have hreturns : (readyItems s ++ s.l2.retQueue.filter fun r => decide (s.cycles < r.readyCycle)).Perm s.l2.retQueue := by
    have hfilter := List.filter_append_perm (fun r => decide (r.readyCycle ≤ s.cycles)) s.l2.retQueue
    simpa only [readyItems, ← decide_not, Nat.not_le] using hfilter
  refine { inFlight := ?_, distinct := h.distinct, aligned := h.aligned, queueBound := ?_, neverWriteback := fun r hr => ?_ }
  · have hflight := h.inFlight
    have haddrs := hreturns.map (·.addr)
    simp only [inFlightAddrs, withReturns, drained, hsplit, List.perm_iff_count, List.map_append, List.map_map,
      List.count_append] at haddrs hflight ⊢
    intro a
    have := haddrs a
    have := hflight a
    simp only [Function.comp_def, requestOf]
    omega
  · show (s.dram.queue ++ sent.map (requestOf s.cfg s.cycles)).length ≤ s.cfg.dramReqQueueSize
    rw [List.length_append, List.length_map]
    rcases eq_or_ne sent [] with rfl | hsent
    · exact h.queueBound
    · exact hroom hsent
  · rcases List.mem_append.mp hr with hold | hnew
    · exact h.neverWriteback r hold
    · obtain ⟨q, -, rfl⟩ := List.mem_map.mp hnew
      rfl

/-- A delivery takes one item out of flight and frees the MSHR of its block. -/
theorem deliver_requestsMatch {s : State} {r : RetItem} {rest : List RetItem}
    (h : RequestsMatchMshrs (withReturns s (r :: rest))) : RequestsMatchMshrs (withReturns (deliver s r) rest) := by
  have hin : r.addr ∈ inFlightAddrs (withReturns s (r :: rest)) := by simp [inFlightAddrs, withReturns]
  obtain ⟨asked, hasked, hvalid', haddr'⟩ := mem_validMshrAddrs.mp (h.inFlight.subset hin)
  have hblock : blockAddr r.addr = r.addr := haddr' ▸ h.aligned asked hasked hvalid'
  rcases deliver_cases s r with ⟨-, hnone⟩ | ⟨k, m, hk, hvalid, haddr, heq⟩
  · exact absurd ⟨hvalid', haddr'.trans hblock.symm⟩ (hnone asked hasked)
  · have hpool := h.mshrsWf.free hk hvalid
    rw [heq]
    refine { inFlight := ?_, distinct := hpool.distinct, aligned := hpool.aligned, queueBound := h.queueBound,
             neverWriteback := h.neverWriteback }
    have hflight : (inFlightAddrs (withReturns s (r :: rest))).Perm
        (r.addr :: validMshrAddrs (s.l2.mshrs.set k { m with valid := false })) := by
      rw [← haddr.trans hblock]
      exact h.inFlight.trans (validMshrAddrs_free hk hvalid)
    refine (List.perm_cons r.addr).mp (List.Perm.trans ?_ hflight)
    simp only [inFlightAddrs, withReturns, delivered, List.map_append, List.map_cons, ← List.append_assoc]
    exact List.perm_middle.symm

theorem foldl_deliver_requestsMatch {items : List RetItem} {s : State} (h : RequestsMatchMshrs (withReturns s items)) :
    RequestsMatchMshrs (items.foldl deliver s) := by
  induction items generalizing s with
  | nil => simpa [withReturns] using h
  | cons r rest ih => exact ih (deliver_requestsMatch h)

theorem l2Phase_requestsMatch {s : State} (h : RequestsMatchMshrs s) : RequestsMatchMshrs (l2Phase s) := by
  obtain ⟨sent, held, hsplit, -, hroom, -, hphase⟩ := l2Phase_split s
  rw [hphase]
  exact foldl_deliver_requestsMatch (drained_requestsMatch h hsplit hroom)

/-- An L2 access takes an MSHR and queues its request, or does neither. -/
theorem access_requestsMatch {s : State} {l2 : L2} (h : RequestsMatchMshrs { s with l2 := l2 }) (cfg : Config) (t : Nat)
    (addr : Word) (isWrite : Bool) (id : Nat) :
    RequestsMatchMshrs { s with l2 := (l2Access cfg t addr isWrite id l2).2 } := by
  have hpool := h.mshrsWf.access cfg t addr isWrite id
  refine { inFlight := ?_, distinct := hpool.distinct, aligned := hpool.aligned, queueBound := h.queueBound,
           neverWriteback := h.neverWriteback }
  rcases l2Access_cases cfg t isWrite id l2 addr with ⟨_, -, heq⟩ | ⟨k, m, hk, -, -, heq⟩ |
    ⟨k, free, -, -, hk, hfree, heq⟩ | heq <;> rw [heq]
  · exact h.inFlight
  · exact h.inFlight.trans (validMshrAddrs_merge hk _).symm
  · refine List.Perm.trans ?_ ((h.inFlight.cons (blockAddr addr)).trans
      (validMshrAddrs_allocate (new := mshrOf addr isWrite [id]) hk hfree rfl).symm)
    simp only [inFlightAddrs, List.map_append, List.map_cons, List.map_nil, List.append_assoc, List.singleton_append]
    exact List.perm_middle
  · exact h.inFlight

theorem requestsMatch_keptByAccess (s : State) :
    KeptByAccess (fun l2 => RequestsMatchMshrs { s with l2 := l2 }) (fun _ _ _ => True) where
  fill _ _ _ _ h := h
  hit _ _ _ _ _ _ _ _ h := h
  access cfg t addr isWrite id _ h := access_requestsMatch h cfg t addr isWrite id
  others _ _ _ _ _ _ _ _ h := h
  miss _ _ _ _ _ _ _ _ _ h := h

/-- A tick leaves the DRAM, and its accesses keep the match. -/
theorem tickRun_requestsMatch (c : Nat) {s : State} (h : RequestsMatchMshrs s) : RequestsMatchMshrs (tickRun c s) := by
  have helse := tickRun_elsewhere c s
  have hafter : RequestsMatchMshrs { s with l2 := (tickRun c s).l2 } :=
    (tickRun_hierarchyInv (requestsMatch_keptByAccess s) c ⟨h, fun _ _ _ => ⟨trivial, trivial⟩⟩).l2
  refine { inFlight := ?_, distinct := hafter.distinct, aligned := hafter.aligned, queueBound := ?_, neverWriteback := ?_ }
  · rw [inFlightAddrs, helse.dram]
    exact hafter.inFlight
  · rw [helse.dram, helse.cfg]
    exact hafter.queueBound
  · rw [helse.dram]
    exact hafter.neverWriteback

/-- The request queue is bounded by the MSHR pool (R241). -/
theorem RequestsMatchMshrs.length_reqQueue_le {s : State} (h : RequestsMatchMshrs s) :
    s.l2.reqQueue.length ≤ s.l2.mshrs.length := by
  have hlength := h.inFlight.length_eq
  have hvalid := List.length_filter_le (·.valid) s.l2.mshrs
  simp only [inFlightAddrs, validMshrAddrs, List.length_append, List.length_map] at hlength
  omega

/-- Settles O21: requests move between the queues, and each enters and leaves with its MSHR. -/
theorem stepKeepsRequestsMatched : Obligations.StepKeepsRequestsMatched := by
  unfold Obligations.StepKeepsRequestsMatched
  refine ⟨fun s t hs hstep => ?_, fun s => RequestsMatchMshrs.length_reqQueue_le⟩
  exact step_induct hstep hs (fun _ => dramPhase_requestsMatch) (fun _ => l2Phase_requestsMatch)
    (fun c _ => tickRun_requestsMatch c)
    fun _ hu => ⟨hu.inFlight, hu.distinct, hu.aligned, hu.queueBound, hu.neverWriteback⟩

/-! ## The waiting L1s (R222, R246, C8) -/

/-- Every core stands at the place of its id (R116). -/
def IdsArePlaces (s : State) : Prop := EveryCore (fun k core => core.id = k) s

/-- The pool is in order, and every waiting L1 is a requester of a valid MSHR of its block. -/
def Awaited (s : State) : Prop :=
  HierarchyInv (fun l2 => MshrsWf l2.mshrs) (fun l2 id l1 => L1Awaited l2.mshrs id l1) s

theorem waitersAreServed_iff {s : State} : WaitersAreServed s ↔ IdsArePlaces s ∧ Awaited s := by
  constructor
  · intro h
    exact ⟨h.places, ⟨h.distinct, h.aligned⟩,
      everyCore_iff_forall_mem.mpr fun core hcore => ⟨h.icaches core hcore, h.dcaches core hcore⟩⟩
  · rintro ⟨hplaces, hpool, hl1s⟩
    have hmem := everyCore_iff_forall_mem.mp hl1s
    exact ⟨hplaces, hpool.distinct, hpool.aligned, fun core hcore => (hmem core hcore).1, fun core hcore => (hmem core hcore).2⟩

/-- An element other than the replaced one stays in the list. -/
theorem mem_set_of_ne {α : Type} {l : List α} {k : Nat} {a x : α} (b : α) (hk : l[k]? = some a) (hx : x ∈ l) (hne : x ≠ a) :
    x ∈ l.set k b := by
  obtain ⟨j, hj⟩ := List.mem_iff_getElem?.mp hx
  refine List.mem_of_getElem? (i := j) ?_
  rw [List.getElem?_set_ne, hj]
  rintro rfl
  exact hne (Option.some.inj (hj.symm.trans hk))

theorem mem_set_self {α : Type} {l : List α} {k : Nat} {a : α} (b : α) (hk : l[k]? = some a) : b ∈ l.set k b :=
  List.mem_set (List.getElem?_eq_some_iff.mp hk).1 b

/-- An L2 access takes no requester away from a valid MSHR. -/
theorem access_keeps_requester {l2 : L2} {m : Mshr} {i : Nat} (cfg : Config) (t : Nat) (addr : Word) (isWrite : Bool)
    (id : Nat) (hm : m ∈ l2.mshrs) (hvalid : m.valid = true) (hi : i ∈ m.requesters) :
    ∃ m' ∈ (l2Access cfg t addr isWrite id l2).2.mshrs, m'.valid = true ∧ m'.addr = m.addr ∧ i ∈ m'.requesters := by
  rcases l2Access_cases cfg t isWrite id l2 addr with ⟨_, -, heq⟩ | ⟨k, merged, hk, hvalid', -, heq⟩ |
    ⟨k, free, -, -, hk, hfree, heq⟩ | heq <;> rw [heq]
  · exact ⟨m, hm, hvalid, rfl, hi⟩
  · by_cases hsame : m = merged
    · subst hsame
      exact ⟨_, mem_set_self _ hk, hvalid, rfl, (mem_addRequester id i m.requesters).mpr (.inr hi)⟩
    · exact ⟨m, mem_set_of_ne _ hk hm hsame, hvalid, rfl, hi⟩
  · refine ⟨m, mem_set_of_ne _ hk hm ?_, hvalid, rfl, hi⟩
    rintro rfl
    exact Bool.false_ne_true (hfree.symm.trans hvalid)
  · exact ⟨m, hm, hvalid, rfl, hi⟩

/-- A core whose access misses in the L2 is a requester of the block's MSHR. -/
theorem requester_of_miss {l2 : L2} {cfg : Config} {t id : Nat} {addr : Word} {isWrite : Bool}
    (h : (l2Access cfg t addr isWrite id l2).1 = .miss) :
    ∃ m ∈ (l2Access cfg t addr isWrite id l2).2.mshrs, m.valid = true ∧ m.addr = blockAddr addr ∧ id ∈ m.requesters := by
  rcases l2Access_cases cfg t isWrite id l2 addr with ⟨_, -, heq⟩ | ⟨k, m, hk, hvalid, haddr, heq⟩ |
    ⟨k, free, -, -, hk, -, heq⟩ | heq <;> rw [heq] at h ⊢
  · cases h
  · exact ⟨_, mem_set_self _ hk, hvalid, haddr, (mem_addRequester id id m.requesters).mpr (.inl rfl)⟩
  · exact ⟨_, mem_set_self _ hk, rfl, rfl, List.mem_singleton_self id⟩
  · cases h

theorem L1Awaited.fill {mshrs : List Mshr} {id : Nat} {l1 : L1} (h : L1Awaited mshrs id l1) (addr : Word) :
    L1Awaited mshrs id (l1Fill addr l1) := by
  intro hpending
  obtain ⟨hsame, -⟩ := l1Fill_of_pendingMiss hpending
  rw [hsame] at hpending ⊢
  exact h hpending

theorem awaited_keptByAccess :
    KeptByAccess (fun l2 => MshrsWf l2.mshrs) (fun l2 id l1 => L1Awaited l2.mshrs id l1) where
  fill _ _ _ addr h := h.fill addr
  hit _ _ _ _ _ _ hclear _ _ := fun hpending => by simp [hclear] at hpending
  access cfg t addr isWrite id _ h := h.access cfg t addr isWrite id
  others cfg t addr isWrite id l2 i l1 h := fun hpending hwaits => by
    obtain ⟨m, hm, hvalid, haddr, hi⟩ := h hpending hwaits
    obtain ⟨m', hm', hvalid', haddr', hi'⟩ := access_keeps_requester cfg t addr isWrite id hm hvalid hi
    exact ⟨m', hm', hvalid', haddr'.trans haddr, hi'⟩
  miss cfg t addr isWrite id l2 l1 hclear _ _ := fun hpending hwaits => by
    cases hanswer : (l2Access cfg t addr isWrite id l2).1 with
    | hit => rw [hanswer] at hwaits; cases hwaits
    | miss => exact requester_of_miss hanswer
    | busy => rw [hanswer, l1AfterMiss, hclear] at hpending; cases hpending

/-- A delivery leaves an L1 waiting only if it waits for another block, or has another MSHR. -/
theorem L1Awaited.delivered {mshrs : List Mshr} {k id : Nat} {m : Mshr} {l1 : L1} (h : L1Awaited mshrs id l1)
    (hk : mshrs[k]? = some m)
    (hother : blockAddr l1.pendingMissAddr ≠ m.addr ∨ id ∉ m.requesters) :
    L1Awaited (mshrs.set k { m with valid := false }) id l1 := by
  intro hpending hwaits
  obtain ⟨m', hm', hvalid', haddr', hid'⟩ := h hpending hwaits
  refine ⟨m', mem_set_of_ne _ hk hm' ?_, hvalid', haddr', hid'⟩
  rintro rfl
  rcases hother with hne | hnot
  · exact hne haddr'.symm
  · exact hnot hid'

/-- A requester's L1 after the delivery is filled, or waits for another block. -/
theorem L1Awaited.filled {mshrs : List Mshr} {k id : Nat} {m : Mshr} {l1 : L1} {addr : Word} (h : L1Awaited mshrs id l1)
    (hk : mshrs[k]? = some m) (haddr : m.addr = blockAddr addr) :
    L1Awaited (mshrs.set k { m with valid := false }) id (l1Fill addr l1) := by
  intro hpending
  obtain ⟨hsame, hne⟩ := l1Fill_of_pendingMiss hpending
  rw [hsame] at hpending ⊢
  exact h.delivered hk (.inl (haddr ▸ hne.symm)) hpending

theorem deliver_awaited {s : State} (r : RetItem) (hplaces : IdsArePlaces s) (h : Awaited s) : Awaited (deliver s r) := by
  rcases deliver_cases s r with ⟨hsame, -⟩ | ⟨k, m, hk, hvalid, haddr, heq⟩
  · rw [hsame]
    exact h
  · rw [heq]
    refine ⟨h.l2.free hk hvalid, fun c core' hc' => ?_⟩
    obtain ⟨core, hc, rfl⟩ := mem_delivered_cores hc'
    obtain ⟨hi, hd⟩ := h.l1s c core hc
    split
    next => exact ⟨hi.filled hk haddr, hd.filled hk haddr⟩
    next hout =>
      rw [← hplaces c core hc] at hout
      exact ⟨hi.delivered hk (.inr hout), hd.delivered hk (.inr hout)⟩

theorem IdsArePlaces.onlyTiming {s t : State} (h : IdsArePlaces s) (ht : OnlyTiming s t) : IdsArePlaces t :=
  EveryCore.onlyTiming (fun _ _ _ _ hid => hid) h ht

/-- No step changes a core's id or its place (R116). -/
theorem step_idsArePlaces {s t : State} (h : IdsArePlaces s) (hstep : step s = .next t) : IdsArePlaces t := by
  refine step_everyCore (fun _ _ _ _ hid => hid) (fun k core core' hid hcycle => ?_) (fun k core core' hid hspawn => ?_) h
    hstep
  · obtain ⟨-, -, -, hsame⟩ := hcycle.countsGrow
    exact hsame.trans hid
  · rcases hspawn with rfl | ⟨pc, -, rfl⟩
    · exact hid
    · exact hid

/-- Settles O22: an MSHR is freed only as its block is delivered to every requester, and an L1 comes to wait only as one. -/
theorem stepKeepsWaitersServed : Obligations.StepKeepsWaitersServed := by
  unfold Obligations.StepKeepsWaitersServed
  simp only [waitersAreServed_iff]
  rintro s t ⟨hplaces, hs⟩ hstep
  refine ⟨step_idsArePlaces hplaces hstep, ?_⟩
  obtain ⟨-, rfl⟩ := step_eq_next.mp hstep
  have hplaced := hplaces.onlyTiming (dramPhase_onlyTiming s)
  have hdram : Awaited (dramPhase s) := by
    rw [dramPhase_completes]
    exact ⟨hs.l2, hs.l1s⟩
  have hl2 : IdsArePlaces (l2Phase (dramPhase s)) ∧ Awaited (l2Phase (dramPhase s)) :=
    l2Phase_induct (P := fun u => IdsArePlaces u ∧ Awaited u)
      (fun _ _ => ⟨hplaced, hdram.l2, hdram.l1s⟩)
      fun u r ⟨hu, hawaited⟩ => ⟨hu.onlyTiming (deliver_onlyTiming u r), deliver_awaited r hu hawaited⟩
  have hticks : Awaited (ticksRun (List.range s.cfg.numCores) (l2Phase (dramPhase s))) :=
    ticksRun_induct hl2.2 fun c u => tickRun_hierarchyInv awaited_keptByAccess c
  exact ⟨hticks.l2, hticks.l1s⟩

end Sys2Proof.Machine
end

section
/-! SUPPORT. The word accessors byte by byte, and the values of the narrow loads (R202–R205, R600, R601). -/

namespace Sys2Proof.Machine

/-! ## Word accessors (R204, R205) -/

theorem memRead32_of_mapped {cfg : Config} {addr : Word} (m : Memory) (h : isMapped cfg addr = true) :
    memRead32 cfg m addr = m.readWord (alignWord addr).toNat := if_pos h

theorem memWrite32_of_mapped {cfg : Config} {addr : Word} (m : Memory) (v : Word) (h : isMapped cfg addr = true) :
    memWrite32 cfg m addr v = m.writeWord (alignWord addr).toNat v := if_pos h

/-- Addresses of one word are mapped alike (R204). -/
theorem isMapped_eq_of_word {addr addr' : Word} (cfg : Config) (h : addr'.toNat / 4 = addr.toNat / 4) :
    isMapped cfg addr' = isMapped cfg addr := by
  have halign : alignWord addr' = alignWord addr := by
    apply BitVec.eq_of_toNat_eq
    rw [alignWord_toNat, alignWord_toNat, h]
  rw [← isMapped_alignWord, halign, isMapped_alignWord]

/-- Settles O29: a mapped word is its four bytes, read and written at the aligned address. -/
theorem wordAccessorsAreLittleEndian : Obligations.WordAccessorsAreLittleEndian := by
  unfold Obligations.WordAccessorsAreLittleEndian
  intro cfg m addr v a
  have ha : (alignWord addr).toNat = a := alignWord_toNat addr
  have hbound : a + 3 < 2 ^ 32 := ha ▸ alignWord_bound addr
  refine ⟨fun hmap => ?_, fun hmap => ?_, (isMapped_alignWord cfg addr).symm, ha, fun addr' => isMapped_eq_of_word cfg⟩
  · rw [memRead32_of_mapped m hmap, memWrite32_of_mapped m v hmap, ha]
    refine ⟨rfl, fun hwf => ?_, fun b => Memory.readByte_writeWord_other v⟩
    have hbyte {k : Nat} (hk : k < 4) := Memory.readByte_writeWord_same v hwf hbound hk
    exact ⟨hbyte (k := 0) (by decide), hbyte (by decide), hbyte (by decide), hbyte (by decide)⟩
  · simp [memRead32, memWrite32, hmap]

/-! ## Narrow accesses (R600, R601) -/

/-- There is no fifth byte in a word. -/
theorem byteOfWord_four (w : Word) : byteOfWord w 4 = 0#8 := by
  apply BitVec.eq_of_getLsbD_eq
  intro i hi
  simp [byteOfWord]

/-- A halfword whose upper byte is 0 extends with zeros, signed or not (D15). -/
theorem extend_zero_append (b : Byte) :
    (0#8 ++ b : BitVec 16).signExtend 32 = b.zeroExtend 32 ∧ (0#8 ++ b : BitVec 16).zeroExtend 32 = b.zeroExtend 32 := by
  have hwide : (0#8 ++ b : BitVec 16) = b.zeroExtend 16 :=
    (BitVec.setWidth_eq_append (by decide : 8 ≤ 16)).symm
  have hmsb : (b.zeroExtend 16).msb = false := by simp [BitVec.msb_setWidth]
  have hzero : (b.zeroExtend 16).zeroExtend 32 = b.zeroExtend 32 := by simp
  rw [hwide]
  exact ⟨(BitVec.signExtend_eq_setWidth_of_msb_false hmsb).trans hzero, hzero⟩

/-- Settles O30: the bytes a load uses and the bytes a store leaves. -/
theorem narrowAccessesTakeTheirBytes : Obligations.NarrowAccessesTakeTheirBytes := by
  unfold Obligations.NarrowAccessesTakeTheirBytes
  intro addr w v j hj k
  have hhalf : loadedHalf addr w = byteOfWord w (k + 1) ++ byteOfWord w k := loadedHalf_eq addr w
  refine ⟨?_, ?_, fun _ => ⟨?_, ?_⟩, fun hk => ?_, rfl, byteOfWord_mergeSb addr w v hj, byteOfWord_mergeSh addr w v hj, rfl⟩
  · rw [extractLb, loadedByte_eq]
  · rw [extractLbu, loadedByte_eq]
  · rw [extractLh, hhalf]
  · rw [extractLhu, hhalf]
  · rw [extractLh, extractLhu, hhalf, hk, byteOfWord_four]
    exact extend_zero_append _

end Sys2Proof.Machine
end
